-- ==== Sys2Proof/Word.lean ====
section
/-!
DEFINITION. The widths of the OFH-BFP codec: a BMEM byte (20_memory.md R81), a WMEM word (R82) and a
register (10_state.md R32).
-/

namespace Sys2Proof

/-- One byte of BMEM, and of the wire format (20_memory.md R81). -/
abbrev Byte := BitVec 8

/-- One word of WMEM: a float sample, a fixed sample, an exponent word or a descriptor word
(20_memory.md R82, 00_scope.md R18). -/
abbrev Sample := BitVec 16

/-- One register, one command word, one address (10_state.md R32, 30_encoding.md R110). -/
abbrev Word := BitVec 32

end Sys2Proof
end

