-- ==== Sys2Proof/Syntax.lean ====
section
/-!
DEFINITION. The commands of the block: one constructor for each row of spec/opcode_table.json
(30_encoding.md R116). The fields are those the row uses: `w` is W (R111), `meth` is METH (R112),
`e8` is E8 (R113). Every other operand is in an argument register (R121).
-/

namespace Sys2Proof

inductive Instr where
  /-- NOP (43_control.md R250). -/
  | nop
  /-- INIT (43_control.md R251). -/
  | init
  /-- QUANT (40_quantizer.md R167). -/
  | quant
  /-- DEQUANT (40_quantizer.md R168). -/
  | dequant (e8 : BitVec 8)
  /-- PACK (41_bitpack.md R193). -/
  | pack (w : BitVec 5)
  /-- UNPACK (41_bitpack.md R194). -/
  | unpack (w : BitVec 5)
  /-- BFPX (42_bfp.md R218). -/
  | bfpx (w : BitVec 5)
  /-- BFPC_I (42_bfp.md R219). -/
  | bfpcI (w : BitVec 5)
  /-- BFPC_F (42_bfp.md R220). -/
  | bfpcF (w : BitVec 5)
  /-- BFPD_F (42_bfp.md R221). -/
  | bfpdF (w : BitVec 5)
  /-- BFPD_RAW (42_bfp.md R222). -/
  | bfpdRaw (w : BitVec 5)
  /-- PRB_SIZE (44_decoder.md R299). -/
  | prbSize (w : BitVec 5) (meth : BitVec 4)
  /-- MSG_DEC (44_decoder.md R270). -/
  | msgDec
  /-- MSG_ENC (45_encoder.md R320). -/
  | msgEnc (w : BitVec 5) (meth : BitVec 4)
deriving DecidableEq, Repr

end Sys2Proof
end

