-- ==== Sys2Proof/WellFormed.lean ====
section
/-!
DEFINITION. When a command's fields are legal (30_encoding.md R111, R112): W in 1 .. 16 where the
command uses W, METH in 0 .. 6 where it uses METH. Every E8 is legal (R113).
-/

namespace Sys2Proof

/-- A legal bit width, 1 .. 16 (30_encoding.md R111). -/
def legalWidth (w : BitVec 5) : Bool := decide (1 ≤ w.toNat) && decide (w.toNat ≤ 16)

/-- A method code that is not reserved, 0 .. 6 (30_encoding.md R112, R131). -/
def legalMethod (m : BitVec 4) : Bool := decide (m.toNat < 7)

/-- The field legality of 30_encoding.md R111 to R113, one command at a time. -/
def Instr.wf : Instr → Bool
  | .nop => true
  | .init => true
  | .quant => true
  | .dequant _ => true
  | .pack w => legalWidth w
  | .unpack w => legalWidth w
  | .bfpx w => legalWidth w
  | .bfpcI w => legalWidth w
  | .bfpcF w => legalWidth w
  | .bfpdF w => legalWidth w
  | .bfpdRaw w => legalWidth w
  | .prbSize w m => legalWidth w && legalMethod m
  | .msgDec => true
  | .msgEnc w m => legalWidth w && legalMethod m

end Sys2Proof
end

