-- ==== Sys2Proof/Decode.lean ====
section
/-!
DEFINITION. Command words: decoding (30_encoding.md R117, total on every 32-bit word, rejecting by
name) and encoding (R110, R116).
-/

namespace Sys2Proof

/-- Why a word is no command: one name for each ILLEGAL of 30_encoding.md R117. -/
inductive DecodeError where
  /-- A bit of 31:25 is set (R114). -/
  | reservedBits
  /-- OPC is in no row of R116. -/
  | unassignedOpcode
  /-- W is not 0 and the row does not use it (R111). -/
  | unusedWidth
  /-- METH is not 0 and the row does not use it (R112). -/
  | unusedMethod
  /-- E8 is not 0 and the row does not use it (R113). -/
  | unusedExponent
  /-- The row uses W, and W is 0 or 17 .. 31 (R111). -/
  | illegalWidth
  /-- The row uses METH, and METH is 7 .. 15 (R112). -/
  | illegalMethod
deriving DecidableEq, Repr

/-- One row of the opcode map (30_encoding.md R116): the opcode, the fields it uses, and the command
those fields make. -/
structure OpcodeRow where
  opc : Byte
  usesW : Bool
  usesMeth : Bool
  usesE8 : Bool
  make : BitVec 5 → BitVec 4 → BitVec 8 → Instr

/-- The opcode map (30_encoding.md R116). -/
def opcodeMap : List OpcodeRow :=
  [ ⟨0x00#8, false, false, false, fun _ _ _ => .nop⟩,
    ⟨0x01#8, false, false, false, fun _ _ _ => .init⟩,
    ⟨0x10#8, false, false, false, fun _ _ _ => .quant⟩,
    ⟨0x11#8, false, false, true, fun _ _ e => .dequant e⟩,
    ⟨0x20#8, true, false, false, fun w _ _ => .pack w⟩,
    ⟨0x21#8, true, false, false, fun w _ _ => .unpack w⟩,
    ⟨0x30#8, true, false, false, fun w _ _ => .bfpx w⟩,
    ⟨0x31#8, true, false, false, fun w _ _ => .bfpcI w⟩,
    ⟨0x32#8, true, false, false, fun w _ _ => .bfpcF w⟩,
    ⟨0x33#8, true, false, false, fun w _ _ => .bfpdF w⟩,
    ⟨0x34#8, true, false, false, fun w _ _ => .bfpdRaw w⟩,
    ⟨0x40#8, true, true, false, fun w m _ => .prbSize w m⟩,
    ⟨0x41#8, false, false, false, fun _ _ _ => .msgDec⟩,
    ⟨0x42#8, true, true, false, fun w m _ => .msgEnc w m⟩ ]

/-- The row of an opcode, if one is assigned. -/
def rowOf (opc : Byte) : Option OpcodeRow := opcodeMap.find? (fun r => r.opc == opc)

/-- OPC, bits 7:0 of a command word (30_encoding.md R110). -/
def opcOf (c : Word) : Byte := c.extractLsb' 0 8

/-- W, bits 12:8 (30_encoding.md R111). -/
def widthOf (c : Word) : BitVec 5 := c.extractLsb' 8 5

/-- METH, bits 16:13 (30_encoding.md R112). -/
def methOf (c : Word) : BitVec 4 := c.extractLsb' 13 4

/-- E8, bits 24:17 (30_encoding.md R113). -/
def exp8Of (c : Word) : BitVec 8 := c.extractLsb' 17 8

/-- The reserved bits 31:25 (30_encoding.md R114). -/
def reservedOf (c : Word) : BitVec 7 := c.extractLsb' 25 7

/-- The field checks of one row, in the order of 30_encoding.md R117. -/
def decodeRow (r : OpcodeRow) (w : BitVec 5) (m : BitVec 4) (e : BitVec 8) :
    Except DecodeError Instr :=
  if !r.usesW && w != 0#5 then .error .unusedWidth
  else if !r.usesMeth && m != 0#4 then .error .unusedMethod
  else if !r.usesE8 && e != 0#8 then .error .unusedExponent
  else if r.usesW && !legalWidth w then .error .illegalWidth
  else if r.usesMeth && !legalMethod m then .error .illegalMethod
  else .ok (r.make w m e)

/-- The decoding procedure of 30_encoding.md R117. -/
def decode (c : Word) : Except DecodeError Instr :=
  if reservedOf c != 0#7 then .error .reservedBits
  else match rowOf (opcOf c) with
    | none => .error .unassignedOpcode
    | some r => decodeRow r (widthOf c) (methOf c) (exp8Of c)

/-- A command word from its fields, bits 31:25 zero (30_encoding.md R110). -/
def commandWord (opc : Byte) (w : BitVec 5) (m : BitVec 4) (e : BitVec 8) : Word :=
  0#7 ++ e ++ m ++ w ++ opc

/-- The word of a command, every field it does not use 0 (30_encoding.md R116). -/
def encode : Instr → Word
  | .nop => commandWord 0x00#8 0#5 0#4 0#8
  | .init => commandWord 0x01#8 0#5 0#4 0#8
  | .quant => commandWord 0x10#8 0#5 0#4 0#8
  | .dequant e => commandWord 0x11#8 0#5 0#4 e
  | .pack w => commandWord 0x20#8 w 0#4 0#8
  | .unpack w => commandWord 0x21#8 w 0#4 0#8
  | .bfpx w => commandWord 0x30#8 w 0#4 0#8
  | .bfpcI w => commandWord 0x31#8 w 0#4 0#8
  | .bfpcF w => commandWord 0x32#8 w 0#4 0#8
  | .bfpdF w => commandWord 0x33#8 w 0#4 0#8
  | .bfpdRaw w => commandWord 0x34#8 w 0#4 0#8
  | .prbSize w m => commandWord 0x40#8 w m 0#8
  | .msgDec => commandWord 0x41#8 0#5 0#4 0#8
  | .msgEnc w m => commandWord 0x42#8 w m 0#8

/-- The command the decoder reads from an instruction of `nbits` bits `w`, bit 0 the least significant
bit of the command word and every bit from `nbits` on 0. Every command is one 32-bit word
(30_encoding.md R119). -/
def decodeTableWord (nbits w : Nat) : Option Instr :=
  match decode (BitVec.ofNat 32 (w % 2 ^ nbits)) with
  | .ok i => some i
  | .error _ => none

end Sys2Proof
end

