-- ==== Sys2Proof/Config.lean ====
section
/-!
DEFINITION. What an instance of the block fixes (00_scope.md R8) and the values the spec leaves free
(70_reset_and_hazards.md R381, 20_memory.md R95).
-/

namespace Sys2Proof

/-- The 16-bit float format of an instance (40_quantizer.md R160). -/
inductive FloatFmt where
  | bf16
  | fp16
deriving DecidableEq, Repr

/-- The exponent rule of an instance (42_bfp.md R212). -/
inductive ExpRule where
  | signed
  | magnitude
deriving DecidableEq, Repr

/-- The hardware parameters of one unit (00_scope.md R8). A size of 1 .. 2^32 is held as its last
address, the value of BMEM_LAST or WMEM_LAST (10_state.md R36, R37), so that no other size can be
written. `NUM_UNITS` is not here: this is one unit (60_exceptions.md R364; log 2). -/
structure Params where
  floatFmt : FloatFmt
  expRule : ExpRule
  hwTier1 : Bool
  hwTier2 : Bool
  bmemLast : Word
  wmemLast : Word
deriving DecidableEq, Repr

/-- `BMEM_SIZE` in bytes (20_memory.md R81). -/
def Params.bmemSize (p : Params) : Nat := p.bmemLast.toNat + 1

/-- `WMEM_SIZE` in 16-bit words (20_memory.md R82). -/
def Params.wmemSize (p : Params) : Nat := p.wmemLast.toNat + 1

/-- The instance `State.reset` describes: the spec's defaults BF16 and SIGNED, no batched tier, both
memories of the largest size. DESIGN CHOICE (log 1), unsafe for a statement about `State.reset`:
00_scope.md R8 leaves tiers and sizes open. -/
def Params.default : Params :=
  { floatFmt := .bf16, expRule := .signed, hwTier1 := false, hwTier2 := false,
    bmemLast := 0xFFFFFFFF#32, wmemLast := 0xFFFFFFFF#32 }

/-- The identification string of an instance, a naming convention (00_scope.md R4). -/
def Params.idString (p : Params) : String :=
  "OFH-BFP-v1/" ++ (match p.floatFmt with | .bf16 => "BF16" | .fp16 => "FP16") ++ "/" ++
  (match p.expRule with | .signed => "SIGNED" | .magnitude => "MAGNITUDE") ++ "/T" ++
  (match p.hwTier1, p.hwTier2 with
    | false, false => "0"
    | true, false => "1"
    | false, true => "2"
    | true, true => "3")

/-- The n-th free byte. DESIGN CHOICE (log 9), safe: no body, so no proof knows its value. It stands
wherever the spec leaves a byte of BMEM, or of a host read of BMEM, unspecified. -/
opaque Config.freeByte : Nat → Byte

/-- The n-th free WMEM word, as `Config.freeByte` (log 9). -/
opaque Config.freeSample : Nat → Sample

/-- What `to_fixed` gives under a scale that is no number. DESIGN CHOICE (log 16), safe: no body, and
no run reaches it, for INIT refuses such a scale (43_control.md R251). -/
opaque Config.freeFixed : Sample

end Sys2Proof
end

