-- ==== Sys2Proof/Machine/State.lean ====
section
/-!
DEFINITION. The state of one unit, as plain data: every register and all hidden state of 10_state.md,
the two memories of 20_memory.md, and the inputs the host has yet to make. INVENTORY.md lists every
field with its rule and its reset value.
-/

namespace Sys2Proof.Machine

/-- A memory as a list of addresses and contents, addresses strictly rising, no entry equal to what
an unlisted address reads as. `Memory 8` is a list of `Host.Cell`. -/
abbrev Memory (w : Nat) := List (Nat × BitVec w)

/-- What an address nothing has written reads as. DESIGN CHOICE (log 3), unsafe for runs from reset:
memory after a hardware reset is unspecified (70_reset_and_hazards.md R380). -/
abbrev Memory.unlisted (w : Nat) : BitVec w := 0#w

/-- The canonical form of a memory. -/
abbrev Memory.wf {w : Nat} (m : Memory w) : Prop :=
  m.Pairwise (fun p q => p.1 < q.1) ∧ ∀ p ∈ m, p.2 ≠ Memory.unlisted w

/-- Every listed address lies below `size`. -/
abbrev Memory.below {w : Nat} (size : Nat) (m : Memory w) : Prop := ∀ p ∈ m, p.1 < size

/-- `ENG.phase` (10_state.md R54); STATUS.BUSY mirrors it. -/
inductive Phase where
  | idle
  | busy
deriving DecidableEq, Repr

/-- The status codes (30_encoding.md R115). Any other value is never produced. -/
inductive Code where
  | ok
  | incomplete
  | malformed
  | rejectedSemantic
  | noValidSection
  | unsupportedMethod
  | fragmentTooSmall
  | outOfBuffers
  | configError
  | contractViolation
  | addressError
  | illegalCommand
  | notConfigured
deriving DecidableEq, Repr

/-- A compressor strategy (43_control.md R253). -/
inductive Tier where
  | baseline
  | tier1
  | tier2
deriving DecidableEq, Repr

/-- Eight 32-bit registers: ARG0 .. ARG7 (10_state.md R42) or RES0 .. RES7 (R43). -/
structure Bank where
  r0 : Word
  r1 : Word
  r2 : Word
  r3 : Word
  r4 : Word
  r5 : Word
  r6 : Word
  r7 : Word
deriving DecidableEq, Repr

/-- All eight registers 0. -/
def Bank.zero : Bank := ⟨0#32, 0#32, 0#32, 0#32, 0#32, 0#32, 0#32, 0#32⟩

/-- The configuration registers, the named bits of each (10_state.md R44 to R49): bits outside them
read 0 and ignore writes (R33), so they have no storage. -/
structure CfgRegs where
  /-- CFG_COMP: METHOD 3:0, BW 8:4, DYN 9. -/
  comp : BitVec 10
  /-- CFG_HDR: DEC_DIR 0, ENC_DIR 1, VERSION 4:2, ENC_FILTER 8:5, MU 11:9, SYMS 18:12. -/
  hdr : BitVec 19
  /-- CFG_PRB: NOF_PRB. -/
  prb : BitVec 11
  /-- CFG_MAXSEC: MAXSEC. -/
  maxsec : BitVec 16
  /-- CFG_SCALE: IQ_SCALING, a binary32 pattern. -/
  scale : Word
  /-- CFG_STRAT: PIN. -/
  strat : BitVec 3
deriving DecidableEq, Repr

/-- The configuration registers after a reset (70_reset_and_hazards.md R380). -/
def CfgRegs.reset : CfgRegs :=
  { comp := 0x091#10, hdr := 0x0E205#19, prb := 0x111#11, maxsec := 0x0010#16,
    scale := 0x3F800000#32, strat := 0#3 }

/-- The active configuration `CFG` (10_state.md R53). -/
structure ActiveCfg where
  method : BitVec 4
  bw : BitVec 5
  dyn : Bool
  decDir : Bool
  encDir : Bool
  version : BitVec 3
  encFilter : BitVec 4
  mu : BitVec 3
  syms : BitVec 7
  nofPrb : BitVec 11
  maxSec : BitVec 16
  scale : Word
  tier : Tier
deriving DecidableEq, Repr

/-- `CFG` after a reset. DESIGN CHOICE (log 4): the spec leaves it unspecified and never reads it while
CFG_OK = 0 (70_reset_and_hazards.md R380). -/
def ActiveCfg.reset : ActiveCfg :=
  { method := 0#4, bw := 0#5, dyn := false, decDir := false, encDir := false, version := 0#3,
    encFilter := 0#4, mu := 0#3, syms := 0#7, nofPrb := 0#11, maxSec := 0#16, scale := 0#32,
    tier := .baseline }

/-- The two memories the engine reaches (20_memory.md R80). -/
inductive MemId where
  /-- BMEM: bytes. -/
  | b
  /-- WMEM: 16-bit words. -/
  | w
deriving DecidableEq, Repr

/-- The contents of both memories at one moment. -/
structure View where
  bmem : Memory 8
  wmem : Memory 16
deriving DecidableEq, Repr

/-- The width of a host register access; only `word` is supported (10_state.md R33). -/
inductive AccessWidth where
  | byte
  | half
  | word
deriving DecidableEq, Repr

/-- What the host may do to the block: register accesses (10_state.md R33) and accesses to BMEM by
byte and WMEM by word (20_memory.md R83). -/
inductive HostAccess where
  | readReg (width : AccessWidth) (offset : Word)
  | writeReg (width : AccessWidth) (offset data : Word)
  | readByte (addr : Word)
  | writeByte (addr : Word) (data : Byte)
  | readWord (addr : Word)
  | writeWord (addr : Word) (data : Sample)
deriving DecidableEq, Repr

/-- One input of the block: a host access, the engine's turn to run the accepted command, or a
hardware reset (70_reset_and_hazards.md R380). The order of these events is the one total order of
20_memory.md R96 (log 6). -/
inductive Event where
  | host (a : HostAccess)
  | engine
  | hardReset
deriving DecidableEq, Repr

/-- Why the machine stops. -/
inductive Fault where
  /-- Raised by a host access to an address past the end of BMEM or WMEM, which does not exist
  (20_memory.md R81, R82). Safe: the spec says nothing of such an access (log 12). No instruction
  raises it. -/
  | hostAddress (mem : MemId) (addr : Word)
deriving DecidableEq, Repr

/-- Why an instruction has no meaning. -/
inductive Refusal where
  /-- Raised by `exec` alone, for an instruction that is not modelled. Safe. No instruction of this
  model is left so. -/
  | notModelled (mnemonic : String)
deriving DecidableEq, Repr

/-- One unit of the block. -/
structure State where
  /-- The instance's parameters (00_scope.md R8); no step changes them. -/
  params : Params
  /-- CTRL.IRQ_EN (10_state.md R38). -/
  irqEn : Bool
  /-- STATUS.DONE (10_state.md R39). -/
  done : Bool
  /-- STATUS.ERR. -/
  err : Bool
  /-- STATUS.CFG_OK. -/
  cfgOk : Bool
  /-- STATUS.OVR. -/
  ovr : Bool
  /-- STATUS.CODE. -/
  code : Code
  /-- STATUS.SEL_TIER. -/
  selTier : Tier
  /-- CMD: the last accepted command word (10_state.md R41). -/
  cmd : Word
  /-- ARG0 .. ARG7 (10_state.md R42). -/
  arg : Bank
  /-- RES0 .. RES7 (10_state.md R43). -/
  res : Bank
  /-- The configuration registers (10_state.md R44 to R49). -/
  cfgRegs : CfgRegs
  /-- SECID (10_state.md R50). -/
  secId : BitVec 12
  /-- The active configuration (10_state.md R53). -/
  cfg : ActiveCfg
  /-- ENG.phase (10_state.md R54), which is STATUS.BUSY. -/
  phase : Phase
  /-- ENG.cmd (10_state.md R54). -/
  engCmd : Word
  /-- ENG.arg[0..7] (10_state.md R54). -/
  engArg : Bank
  /-- The configuration registers when the running command was accepted: a later write never affects
  it (10_state.md R51, 20_memory.md R99). DEDUCED (log 5). -/
  engCfgRegs : CfgRegs
  /-- The MODEL's own: the memories as the running command found them, once the host has written into
  a region the command owns (20_memory.md R94, R95; log 14). -/
  engView : Option View
  /-- BMEM (20_memory.md R81). -/
  bmem : Memory 8
  /-- WMEM (20_memory.md R82). -/
  wmem : Memory 16
  /-- The MODEL's own: the inputs still to come, the next one first (log 6). -/
  inputs : List Event
  /-- The MODEL's own: what the host's last read returned (log 8). -/
  readData : Word
  /-- The MODEL's own: how many free values have been used (log 9). -/
  freeCtr : Nat
deriving DecidableEq, Repr

/-- The machine right after a hardware reset (70_reset_and_hazards.md R380), with no input pending. -/
def State.reset : State :=
  { params := Params.default
    irqEn := false
    done := false
    err := false
    cfgOk := false
    ovr := false
    code := .ok
    selTier := .baseline
    cmd := 0#32
    arg := Bank.zero
    res := Bank.zero
    cfgRegs := CfgRegs.reset
    secId := 0#12
    cfg := ActiveCfg.reset
    phase := .idle
    engCmd := 0#32
    engArg := Bank.zero
    engCfgRegs := CfgRegs.reset
    engView := none
    bmem := []
    wmem := []
    inputs := []
    readData := 0#32
    freeCtr := 0 }

end Sys2Proof.Machine
end

