-- ==== Sys2Proof/Machine/Flags.lean ====
section
/-!
DEFINITION. The STATUS register (10_state.md R39): its flags at acceptance and completion, its
write-one-to-clear bits, its value as a word; and the interrupt level (R58).
-/

namespace Sys2Proof.Machine

/-- The value of a status code (30_encoding.md R115). -/
def Code.bits : Code → BitVec 8
  | .ok => 0x00#8
  | .incomplete => 0x01#8
  | .malformed => 0x02#8
  | .rejectedSemantic => 0x03#8
  | .noValidSection => 0x04#8
  | .unsupportedMethod => 0x05#8
  | .fragmentTooSmall => 0x08#8
  | .outOfBuffers => 0x09#8
  | .configError => 0x10#8
  | .contractViolation => 0x11#8
  | .addressError => 0x12#8
  | .illegalCommand => 0x13#8
  | .notConfigured => 0x14#8

/-- The value of SEL_TIER (10_state.md R39). -/
def Tier.bits : Tier → BitVec 2
  | .baseline => 0#2
  | .tier1 => 1#2
  | .tier2 => 2#2

/-- STATUS as the host reads it: BUSY 0, DONE 1, ERR 2, CFG_OK 3, OVR 4, CODE 15:8, SEL_TIER 17:16,
every other bit 0 (10_state.md R39, R33). -/
def statusWord (s : State) : Word :=
  0#14 ++ s.selTier.bits ++ s.code.bits ++ 0#3 ++ BitVec.ofBool s.ovr ++ BitVec.ofBool s.cfgOk ++
    BitVec.ofBool s.err ++ BitVec.ofBool s.done ++ BitVec.ofBool (s.phase == .busy)

/-- A host write to STATUS clears each of DONE, ERR and OVR whose bit is 1 in the written value, and
nothing else (10_state.md R40). -/
def clearStatus (v : Word) (s : State) : State :=
  { s with
    done := s.done && !v.getLsbD 1
    err := s.err && !v.getLsbD 2
    ovr := s.ovr && !v.getLsbD 4 }

/-- The interrupt output, a level (10_state.md R58, 60_exceptions.md R356). -/
def irq (s : State) : Bool := s.irqEn && s.done

end Sys2Proof.Machine
end

