-- ==== Sys2Proof/Machine/Operands.lean ====
section
/-!
DEFINITION. Operands: the argument and result registers by number, the fields of the configuration
registers (10_state.md R44 to R49), and the operand regions of each command (30_encoding.md R121, the
"Regions" of each command's rule).
-/

namespace Sys2Proof.Machine

/-- Register k of a bank, k in 0 .. 7. -/
def Bank.get (b : Bank) (k : Fin 8) : Word :=
  match k with
  | 0 => b.r0
  | 1 => b.r1
  | 2 => b.r2
  | 3 => b.r3
  | 4 => b.r4
  | 5 => b.r5
  | 6 => b.r6
  | 7 => b.r7

/-- A bank with register k set. -/
def Bank.set (b : Bank) (k : Fin 8) (v : Word) : Bank :=
  match k with
  | 0 => { b with r0 := v }
  | 1 => { b with r1 := v }
  | 2 => { b with r2 := v }
  | 3 => { b with r3 := v }
  | 4 => { b with r4 := v }
  | 5 => { b with r5 := v }
  | 6 => { b with r6 := v }
  | 7 => { b with r7 := v }

/-- CFG_COMP.METHOD (10_state.md R44). -/
def CfgRegs.method (r : CfgRegs) : BitVec 4 := r.comp.extractLsb' 0 4

/-- CFG_COMP.BW (10_state.md R44). -/
def CfgRegs.bw (r : CfgRegs) : BitVec 5 := r.comp.extractLsb' 4 5

/-- CFG_COMP.DYN (10_state.md R44). -/
def CfgRegs.dyn (r : CfgRegs) : Bool := r.comp.getLsbD 9

/-- CFG_HDR.DEC_DIR (10_state.md R45). -/
def CfgRegs.decDir (r : CfgRegs) : Bool := r.hdr.getLsbD 0

/-- CFG_HDR.ENC_DIR (10_state.md R45). -/
def CfgRegs.encDir (r : CfgRegs) : Bool := r.hdr.getLsbD 1

/-- CFG_HDR.VERSION (10_state.md R45). -/
def CfgRegs.version (r : CfgRegs) : BitVec 3 := r.hdr.extractLsb' 2 3

/-- CFG_HDR.ENC_FILTER (10_state.md R45). -/
def CfgRegs.encFilter (r : CfgRegs) : BitVec 4 := r.hdr.extractLsb' 5 4

/-- CFG_HDR.MU (10_state.md R45). -/
def CfgRegs.mu (r : CfgRegs) : BitVec 3 := r.hdr.extractLsb' 9 3

/-- CFG_HDR.SYMS (10_state.md R45). -/
def CfgRegs.syms (r : CfgRegs) : BitVec 7 := r.hdr.extractLsb' 12 7

/-- An operand region: a memory, a base address and a length, as mathematical integers
(20_memory.md R87). -/
structure Region where
  mem : MemId
  base : Nat
  len : Nat
deriving DecidableEq, Repr

/-- The size of a memory of the instance. -/
def Params.sizeOf (p : Params) : MemId → Nat
  | .b => p.bmemSize
  | .w => p.wmemSize

/-- In range: empty, or ending inside the memory (20_memory.md R87). -/
def Region.inRange (p : Params) (r : Region) : Bool :=
  r.len == 0 || decide (r.base + r.len ≤ Params.sizeOf p r.mem)

/-- Overlap: same memory, both non-empty, intervals that intersect (20_memory.md R88). -/
def Region.overlaps (a b : Region) : Bool :=
  a.mem == b.mem && a.len != 0 && b.len != 0 &&
    decide (a.base < b.base + b.len) && decide (b.base < a.base + a.len)

/-- An address lies in a region. -/
def Region.holds (r : Region) (m : MemId) (a : Nat) : Bool :=
  r.mem == m && decide (r.base ≤ a) && decide (a < r.base + r.len)

/-- The operand regions of a command. `inPlace`: the source may be the destination (QUANT and DEQUANT,
20_memory.md R88). -/
structure Regions where
  ins : List Region
  outs : List Region
  inPlace : Bool
deriving DecidableEq, Repr

/-- No operand region. -/
def Regions.none : Regions := { ins := [], outs := [], inPlace := false }

/-- Every region is in range. -/
def Regions.inRange (p : Params) (rs : Regions) : Bool :=
  rs.ins.all (Region.inRange p) && rs.outs.all (Region.inRange p)

/-- Two regions of a list overlap. -/
def anyOverlap : List Region → Bool
  | [] => false
  | r :: rest => rest.any (Region.overlaps r) || anyOverlap rest

/-- A forbidden overlap: an input with an output, but for the identical regions of an in-place
command, or two outputs (20_memory.md R88). -/
def Regions.clash (rs : Regions) : Bool :=
  rs.ins.any (fun i => rs.outs.any (fun o => !(rs.inPlace && i == o) && Region.overlaps i o)) ||
    anyOverlap rs.outs

/-- QUANT and DEQUANT: source and destination of N words, identical or disjoint (40_quantizer.md
R167, R168). -/
def convertRegions (a : Bank) : Regions :=
  { ins := [⟨.w, a.r0.toNat, a.r2.toNat⟩], outs := [⟨.w, a.r1.toNat, a.r2.toNat⟩], inPlace := true }

/-- PACK: source of N words, destination of `cap` bytes (41_bitpack.md R193). -/
def packRegions (a : Bank) : Regions :=
  { ins := [⟨.w, a.r0.toNat, a.r2.toNat⟩], outs := [⟨.b, a.r1.toNat, a.r3.toNat⟩],
    inPlace := false }

/-- UNPACK: source of `len` bytes, destination of N words (41_bitpack.md R194). -/
def unpackRegions (a : Bank) : Regions :=
  { ins := [⟨.b, a.r0.toNat, a.r3.toNat⟩], outs := [⟨.w, a.r1.toNat, a.r2.toNat⟩],
    inPlace := false }

/-- BFPX: source of 24·R words, destination of R words (42_bfp.md R218). -/
def bfpxRegions (a : Bank) : Regions :=
  { ins := [⟨.w, a.r0.toNat, 24 * a.r2.toNat⟩], outs := [⟨.w, a.r1.toNat, a.r2.toNat⟩],
    inPlace := false }

/-- BFPC_I and BFPC_F: source of 24·R words, destination of `cap` bytes (42_bfp.md R219, R220). -/
def bfpcRegions (a : Bank) : Regions :=
  { ins := [⟨.w, a.r0.toNat, 24 * a.r2.toNat⟩], outs := [⟨.b, a.r1.toNat, a.r3.toNat⟩],
    inPlace := false }

/-- BFPD_F and BFPD_RAW: source of `len` bytes, destination of `per` words for each of R resource
blocks, 24 or 25 (42_bfp.md R221, R222). -/
def bfpdRegions (per : Nat) (a : Bank) : Regions :=
  { ins := [⟨.b, a.r0.toNat, a.r3.toNat⟩], outs := [⟨.w, a.r1.toNat, per * a.r2.toNat⟩],
    inPlace := false }

/-- MSG_DEC: the message, the descriptor table of 8·MAXSEC words, the sample area (44_decoder.md
R270). -/
def msgDecRegions (a : Bank) (maxSec : Nat) : Regions :=
  { ins := [⟨.b, a.r0.toNat, a.r1.toNat⟩],
    outs := [⟨.w, a.r2.toNat, 8 * maxSec⟩, ⟨.w, a.r3.toNat, a.r4.toNat⟩], inPlace := false }

/-- MSG_ENC: the source of 24·NOF_PRB words, the output of K·S bytes, the length table of K words
(45_encoder.md R320). -/
def msgEncRegions (a : Bank) (nofPrb : Nat) : Regions :=
  { ins := [⟨.w, a.r0.toNat, 24 * nofPrb⟩],
    outs := [⟨.b, a.r1.toNat, a.r3.toNat * a.r2.toNat⟩, ⟨.w, a.r5.toNat, a.r3.toNat⟩],
    inPlace := false }

/-- The operand regions of each command with the latched arguments `a`, under a configuration whose
MAXSEC and NOF_PRB are given. NOP, INIT and PRB_SIZE reach no memory. -/
def regionsOf (i : Instr) (a : Bank) (maxSec nofPrb : Nat) : Regions :=
  match i with
  | .nop => Regions.none
  | .init => Regions.none
  | .quant => convertRegions a
  | .dequant _ => convertRegions a
  | .pack _ => packRegions a
  | .unpack _ => unpackRegions a
  | .bfpx _ => bfpxRegions a
  | .bfpcI _ => bfpcRegions a
  | .bfpcF _ => bfpcRegions a
  | .bfpdF _ => bfpdRegions 24 a
  | .bfpdRaw _ => bfpdRegions 25 a
  | .prbSize _ _ => Regions.none
  | .msgDec => msgDecRegions a maxSec
  | .msgEnc _ _ => msgEncRegions a nofPrb

end Sys2Proof.Machine
end

