-- ==== Sys2Proof/Machine/Ops.lean ====
section
/-!
DEFINITION. The operations every command shares: the integer and memory primitives (00_scope.md R13,
R15), acceptance of a command (10_state.md R41), completion with a status code, which is what this
block has for an exception (60_exceptions.md R352), and the checks before a command (R351).
-/

namespace Sys2Proof.Machine

/-- What a meaning answers. -/
abbrev Result := Host.Outcome State Fault Refusal

/-! ### Integer primitives (00_scope.md R12, R13) -/

/-- `asr(x, e) = floor(x / 2^e)`. -/
def asr (x : Int) (e : Nat) : Int := x / (2 ^ e : Nat)

/-- The number of binary digits of `m`; 0 for 0. -/
def bitlen (m : Nat) : Nat := if m = 0 then 0 else Nat.log2 m + 1

/-- `ceil(a / b)`. -/
def ceilDiv (a b : Nat) : Nat := (a + b - 1) / b

/-- The sign extension of a field of `w` bits whose unsigned value is `u`. -/
def sext (w u : Nat) : Int := if u.testBit (w - 1) then (u : Int) - (2 ^ w : Nat) else (u : Int)

/-- The 16-bit two's-complement pattern of `x`. -/
def tc16 (x : Int) : Sample := BitVec.ofInt 16 x

/-- A 32-bit register value from a count. -/
def word (n : Nat) : Word := BitVec.ofNat 32 n

/-! ### Memory primitives (00_scope.md R15) -/

/-- The contents of address `a`. -/
def Memory.read {w : Nat} (m : Memory w) (a : Nat) : BitVec w :=
  match m with
  | [] => Memory.unlisted w
  | (b, v) :: rest => if b = a then v else Memory.read rest a

/-- A memory with `v` at address `a`; an entry equal to what an unlisted address reads as is left
out, so that equal memories are equal lists. -/
def Memory.write {w : Nat} (m : Memory w) (a : Nat) (v : BitVec w) : Memory w :=
  match m with
  | [] => if v = Memory.unlisted w then [] else [(a, v)]
  | (b, x) :: rest =>
    if a < b then (if v = Memory.unlisted w then (b, x) :: rest else (a, v) :: (b, x) :: rest)
    else if a = b then (if v = Memory.unlisted w then rest else (a, v) :: rest)
    else (b, x) :: Memory.write rest a v

/-- The contents of the `n` addresses from `a` on, lowest first. -/
def Memory.readRange {w : Nat} (m : Memory w) (a n : Nat) : List (BitVec w) :=
  (List.range n).map (fun k => Memory.read m (a + k))

/-- A memory with a list of contents written at `a`, `a + 1`, and so on. -/
def Memory.writeRange {w : Nat} (m : Memory w) (a : Nat) (vs : List (BitVec w)) : Memory w :=
  match vs with
  | [] => m
  | v :: rest => Memory.writeRange (Memory.write m a v) (a + 1) rest

/-- A big-endian number of bytes, the first byte most significant (20_memory.md R84). -/
def bigEndian (bs : List Byte) : Nat := bs.foldl (fun u b => 256 * u + b.toNat) 0

/-- `MemRead(a, n)`: n bytes of BMEM as one big-endian number (20_memory.md R84). -/
def memRead (m : Memory 8) (a n : Nat) : Nat := bigEndian (Memory.readRange m a n)

/-- n words of WMEM as fixed samples, sign-extended (00_scope.md R18). -/
def fixedSamples (m : Memory 16) (a n : Nat) : List Int :=
  (Memory.readRange m a n).map BitVec.toInt

/-! ### The life of a command -/

/-- Acceptance of the command word `c` (10_state.md R41): the engine latches the word, the argument
registers and, DEDUCED (log 5), the configuration registers; RES, CODE, DONE and ERR are cleared and
BUSY is set. -/
def accept (c : Word) (s : State) : State :=
  { s with
    cmd := c
    engCmd := c
    engArg := s.arg
    engCfgRegs := s.cfgRegs
    engView := none
    res := Bank.zero
    code := .ok
    done := false
    err := false
    phase := .busy }

/-- Completion of the running command with code `c` (60_exceptions.md R352). The block has no trap: it
saves nothing, changes no mode and transfers no control (R358). The engine gives its regions back, so
no memories are kept for it (20_memory.md R95). -/
def complete (c : Code) (s : State) : State :=
  { s with
    code := c
    err := c != .ok
    done := true
    phase := .idle
    engView := none }

/-- The operand regions of the command `i` as the engine is about to run it. -/
def commandRegions (i : Instr) (s : State) : Regions :=
  regionsOf i s.engArg s.cfg.maxSec.toNat s.cfg.nofPrb.toNat

/-- The checks before a data command, in the order of 60_exceptions.md R351; the first that fails
gives the code. A command whose fields are not legal completes with ILLEGAL_COMMAND here too, though
`decode` never gives one (30_encoding.md R114; log 17). -/
def precheck (i : Instr) (s : State) : Option Code :=
  if !i.wf then some .illegalCommand
  else if !s.cfgOk then some .notConfigured
  else if !(commandRegions i s).inRange s.params then some .addressError
  else if (commandRegions i s).clash then some .contractViolation
  else none

/-- A data command: the checks of 60_exceptions.md R351, then `run`. A failing check ends the command
before any memory is read or written. -/
def guarded (i : Instr) (s : State) (run : State → State) : Result :=
  match precheck i s with
  | some c => .next (complete c s)
  | none => .next (run s)

end Sys2Proof.Machine
end

