-- ==== Sys2Proof/Machine/BitPack.lean ====
section
/-!
DEFINITION. The bit packer and unpacker (41_bitpack.md): the stream mapping (R191, R192) and the
commands PACK (R193) and UNPACK (R194).
-/

namespace Sys2Proof.Machine

/-- `fits(v, w)`: v is representable in w signed bits (41_bitpack.md R190). -/
def fits (v : Int) (w : Nat) : Bool :=
  decide (-(2 ^ (w - 1) : Nat) ≤ v) && decide (v ≤ (2 ^ (w - 1) : Nat) - 1)

/-- The w stream bits of a value, the most significant of `v mod 2^w` first (41_bitpack.md R191). -/
def valueBits (w : Nat) (v : Int) : List Bool :=
  (List.range w).map (fun j => (v % (2 ^ w : Nat)).toNat.testBit (w - 1 - j))

/-- The number a list of bits spells, the first bit most significant (41_bitpack.md R192). -/
def bitsToNat (bits : List Bool) : Nat := bits.foldl (fun u b => 2 * u + b.toNat) 0

/-- The byte of the next 8 stream bits, the first one its bit 7; a stream that ends inside the byte
is padded with 0 (41_bitpack.md R191). -/
def nextByte (bits : List Bool) : Byte :=
  BitVec.ofNat 8 (bitsToNat ((bits ++ List.replicate 8 false).take 8))

/-- The first `nb` bytes of a bit stream. -/
def bytesOfBits : Nat → List Bool → List Byte
  | 0, _ => []
  | nb + 1, bits => nextByte bits :: bytesOfBits nb (bits.drop 8)

/-- The number of bytes N values of w bits take, `ceil_div(N·w, 8)` (30_encoding.md R135). -/
def packedBytes (n w : Nat) : Nat := ceilDiv (n * w) 8

/-- `pack_bits` (41_bitpack.md R191). -/
def packBits (w : Nat) (v : List Int) : List Byte :=
  bytesOfBits (packedBytes v.length w) (v.flatMap (valueBits w))

/-- The 8 stream bits of a byte, bit 7 first (20_memory.md R85). -/
def byteBits (b : Byte) : List Bool := (List.range 8).map (fun j => b.getLsbD (7 - j))

/-- The first n fields of w bits of a stream, each sign-extended (41_bitpack.md R192). -/
def readFields (w : Nat) : Nat → List Bool → List Int
  | 0, _ => []
  | n + 1, bits => sext w (bitsToNat (bits.take w)) :: readFields w n (bits.drop w)

/-- `unpack_bits` (41_bitpack.md R192). -/
def unpackBits (w n : Nat) (bytes : List Byte) : List Int := readFields w n (bytes.flatMap byteBits)

/-- PACK after the checks of 60_exceptions.md R351 that do not read memory (41_bitpack.md R193). -/
def packRun (w : BitVec 5) (s : State) : State :=
  let n := s.engArg.r2.toNat
  let nb := packedBytes n w.toNat
  let v := fixedSamples s.wmem s.engArg.r0.toNat n
  if s.engArg.r3.toNat < nb then complete .contractViolation s
  else if v.any (fun x => !fits x w.toNat) then complete .contractViolation s
  else complete .ok
    { s with
      bmem := Memory.writeRange s.bmem s.engArg.r1.toNat (packBits w.toNat v)
      res := { s.res with r0 := word nb } }

/-- UNPACK after the checks of 60_exceptions.md R351 (41_bitpack.md R194). -/
def unpackRun (w : BitVec 5) (s : State) : State :=
  let n := s.engArg.r2.toNat
  let nb := packedBytes n w.toNat
  if s.engArg.r3.toNat < nb then complete .contractViolation s
  else
    let v := unpackBits w.toNat n (Memory.readRange s.bmem s.engArg.r0.toNat nb)
    complete .ok
      { s with
        wmem := Memory.writeRange s.wmem s.engArg.r1.toNat (v.map tc16)
        res := { s.res with r0 := word nb } }

/-- PACK (41_bitpack.md R193). -/
def execPack (w : BitVec 5) (s : State) : Result := guarded (.pack w) s (packRun w)

/-- UNPACK (41_bitpack.md R194). -/
def execUnpack (w : BitVec 5) (s : State) : Result := guarded (.unpack w) s (unpackRun w)

end Sys2Proof.Machine
end

