-- ==== Sys2Proof/Machine/Quantizer.lean ====
section
/-!
DEFINITION. The quantizer (40_quantizer.md): the number formats (R160 to R163), `to_fixed` (R165),
`to_float` (R166), and the commands QUANT (R167) and DEQUANT (R168). All arithmetic is exact and
rounded once (R164).
-/

namespace Sys2Proof.Machine

/-- The width of a format's exponent field (40_quantizer.md R160). -/
def expBits : FloatFmt → Nat
  | .bf16 => 8
  | .fp16 => 5

/-- The width of a format's fraction field (40_quantizer.md R160). -/
def fracBits : FloatFmt → Nat
  | .bf16 => 7
  | .fp16 => 10

/-- A format's bias (40_quantizer.md R160). -/
def expBias : FloatFmt → Nat
  | .bf16 => 127
  | .fp16 => 15

/-- A decoded float: NaN, an infinity with its sign, or the exact real `num · 2^exp`. -/
inductive FloatVal where
  | nan
  | inf (negative : Bool)
  | finite (num : Int) (exp : Int)
deriving DecidableEq, Repr

/-- `fdec` for a format of `eb` exponent bits, bias `bias` and `fb` fraction bits
(40_quantizer.md R161). -/
def fdec (eb bias fb bits : Nat) : FloatVal :=
  let s := bits.testBit (eb + fb)
  let e := bits / 2 ^ fb % 2 ^ eb
  let f := bits % 2 ^ fb
  let sign : Int := if s then -1 else 1
  if e = 2 ^ eb - 1 then (if f = 0 then .inf s else .nan)
  else if e = 0 then .finite (sign * f) (1 - bias - fb)
  else .finite (sign * (2 ^ fb + f : Nat)) (e - bias - fb)

/-- A float sample of the instance's format, decoded. -/
def fdecSample (fmt : FloatFmt) (x : Sample) : FloatVal :=
  fdec (expBits fmt) (expBias fmt) (fracBits fmt) x.toNat

/-- A binary32 pattern, decoded (40_quantizer.md R160, R161). -/
def fdecScale (x : Word) : FloatVal := fdec 8 127 23 x.toNat

/-- `round_q` of the real `num / den`, den > 0: the nearest integer, a half away from zero
(40_quantizer.md R163). -/
def roundQ (num : Int) (den : Nat) : Int :=
  if num < 0 then -(((2 * num.natAbs + den) / (2 * den) : Nat) : Int)
  else (((2 * num.natAbs + den) / (2 * den) : Nat) : Int)

/-- The real `num · 2^exp`, clamped to [−32768, 32767] and then rounded (40_quantizer.md R165). -/
def clampRound (num exp : Int) : Int :=
  let den : Nat := 2 ^ (-exp).toNat
  let scaled : Int := num * (2 ^ exp.toNat : Nat)
  roundQ (min (32767 * den) (max (-32768 * den) scaled)) den

/-- `to_fixed` (40_quantizer.md R165) of a decoded sample under a decoded scale. INIT accepts only a
finite scale (43_control.md R251); for any other, which no run reaches, the result is free (log
16). -/
def toFixed (x scale : FloatVal) : Int :=
  match scale with
  | .finite cn ce =>
    match x with
    | .nan => 0
    | .inf negative =>
      if cn = 0 then 0 else if negative = decide (cn < 0) then 32767 else -32768
    | .finite xn xe => clampRound (xn * cn * 32767) (xe + ce)
  | _ => Config.freeFixed.toInt

/-- `floor(log2(a / d))` for positive `a` and `d`. -/
def floorLog2 (a d : Nat) : Int :=
  let e : Int := (Nat.log2 a : Int) - Nat.log2 d
  if d * 2 ^ e.toNat ≤ a * 2 ^ (-e).toNat then e else e - 1

/-- The nearest integer to `n / d`, ties to the even integer. -/
def nearestEven (n d : Nat) : Nat :=
  let q := n / d
  let r := n % d
  if 2 * r > d ∨ (2 * r = d ∧ q % 2 = 1) then q + 1 else q

/-- A float pattern from its sign, exponent field and fraction. -/
def packFloat (fmt : FloatFmt) (negative : Bool) (e f : Nat) : Sample :=
  BitVec.ofNat 16 ((if negative then 2 ^ 15 else 0) + e * 2 ^ fracBits fmt + f)

/-- The end of `RNE`: the pattern of a magnitude `m · 2^(e − fb)`, renormalised where rounding has
carried out of the significand, ±inf above the range, subnormal below `2^fb` (40_quantizer.md
R162). -/
def rneFinish (fmt : FloatFmt) (negative : Bool) (m : Nat) (e : Int) : Sample :=
  let fb := fracBits fmt
  let bias := expBias fmt
  let m' := if m = 2 ^ (fb + 1) then 2 ^ fb else m
  let e' := if m = 2 ^ (fb + 1) then e + 1 else e
  if e' > bias then packFloat fmt negative (2 ^ expBits fmt - 1) 0
  else if m' < 2 ^ fb then packFloat fmt negative 0 m'
  else packFloat fmt negative (e' + bias).toNat (m' - 2 ^ fb)

/-- `RNE` of the exact real `num / den`, den > 0 (40_quantizer.md R162). -/
def rne (fmt : FloatFmt) (num : Int) (den : Nat) : Sample :=
  if num = 0 then 0#16
  else
    let a := num.natAbs
    let e := max (floorLog2 a den) (1 - (expBias fmt : Int))
    let shift := e - fracBits fmt
    rneFinish fmt (decide (num < 0)) (nearestEven (a * 2 ^ (-shift).toNat) (den * 2 ^ shift.toNat)) e

/-- `to_float(q, e) = RNE(q · 2^e / 32767)` (40_quantizer.md R166). -/
def toFloat (fmt : FloatFmt) (q : Int) (e : Nat) : Sample := rne fmt (q * (2 ^ e : Nat)) 32767

/-- `to_fixed` of a float sample under the active configuration. -/
def quantize (s : State) (x : Sample) : Int :=
  toFixed (fdecSample s.params.floatFmt x) (fdecScale s.cfg.scale)

/-- QUANT after its checks (40_quantizer.md R167). -/
def quantRun (s : State) : State :=
  let out := (Memory.readRange s.wmem s.engArg.r0.toNat s.engArg.r2.toNat).map
    (fun x => tc16 (quantize s x))
  complete .ok
    { s with
      wmem := Memory.writeRange s.wmem s.engArg.r1.toNat out
      res := { s.res with r0 := s.engArg.r2 } }

/-- DEQUANT after its checks (40_quantizer.md R168). -/
def dequantRun (e8 : BitVec 8) (s : State) : State :=
  let out := (fixedSamples s.wmem s.engArg.r0.toNat s.engArg.r2.toNat).map
    (fun q => toFloat s.params.floatFmt q e8.toNat)
  complete .ok
    { s with
      wmem := Memory.writeRange s.wmem s.engArg.r1.toNat out
      res := { s.res with r0 := s.engArg.r2 } }

/-- QUANT (40_quantizer.md R167). -/
def execQuant (s : State) : Result := guarded .quant s quantRun

/-- DEQUANT (40_quantizer.md R168). -/
def execDequant (e8 : BitVec 8) (s : State) : Result := guarded (.dequant e8) s (dequantRun e8)

end Sys2Proof.Machine
end

