-- ==== Sys2Proof/Machine/Bfp.lean ====
section
/-!
DEFINITION. The BFP compression engine (42_bfp.md): the exponent search (R210 to R212), one resource
block (R213 to R215), and the commands BFPX (R218), BFPC_I (R219), BFPC_F (R220), BFPD_F (R221) and
BFPD_RAW (R222). Every strategy gives these results (R236), so the tier is no input here.
-/

namespace Sys2Proof.Machine

/-- The values a resource block holds: 12 resource elements of two (00_scope.md R8, R18). -/
def rbValues : Nat := 24

/-- The largest `x ≥ 0 ? x : −1 − x` of a block (42_bfp.md R210). -/
def maxSignedMagnitude (x : List Int) : Nat :=
  x.foldl (fun m v => max m (if 0 ≤ v then v.toNat else (-1 - v).toNat)) 0

/-- The largest `|x|` of a block (42_bfp.md R211). -/
def maxMagnitude (x : List Int) : Nat := x.foldl (fun m v => max m v.natAbs) 0

/-- `exponent_signed` (42_bfp.md R210). -/
def exponentSigned (x : List Int) (w : Nat) : Nat := bitlen (maxSignedMagnitude x) - (w - 1)

/-- `exponent_magnitude` (42_bfp.md R211). -/
def exponentMagnitude (x : List Int) (w : Nat) : Nat :=
  min (16 - w) (bitlen (maxMagnitude x) - (w - 1))

/-- `exponent` under the instance's rule (42_bfp.md R212). -/
def exponent (rule : ExpRule) (x : List Int) (w : Nat) : Nat :=
  match rule with
  | .signed => exponentSigned x w
  | .magnitude => exponentMagnitude x w

/-- `compress_rb` (42_bfp.md R213): the exponent byte, then the shifted values packed. -/
def compressRb (rule : ExpRule) (x : List Int) (w : Nat) : List Byte :=
  BitVec.ofNat 8 (exponent rule x w) :: packBits w (x.map (fun v => asr v (exponent rule x w)))

/-- The exponent of a compressed block: all 8 bits of its first byte (42_bfp.md R214). -/
def rbExponent (b : List Byte) : Nat := (b.headD 0#8).toNat

/-- The 24 mantissas of a compressed block (42_bfp.md R214). -/
def rbMantissas (b : List Byte) (w : Nat) : List Int := unpackBits w rbValues b.tail

/-- `decompress_rb_float` (42_bfp.md R215). -/
def decompressRbFloat (fmt : FloatFmt) (b : List Byte) (w : Nat) : List Sample :=
  (rbMantissas b w).map (fun m => toFloat fmt m (rbExponent b))

/-- The record BFPD_RAW writes for one block (30_encoding.md R142). -/
def rawRecord (b : List Byte) (w : Nat) : List Sample :=
  BitVec.ofNat 16 (rbExponent b) :: (rbMantissas b w).map tc16

/-- The bytes of one compressed block, `1 + 3·w` (42_bfp.md R213). -/
def rbBytes (w : Nat) : Nat := 1 + 3 * w

/-- `bfp_bytes(R, W)` (42_bfp.md R217). -/
def bfpBytes (r w : Nat) : Nat := r * rbBytes w

/-- The fixed samples of block r of a source at `src`. -/
def fixedRb (m : Memory 16) (src r : Nat) : List Int := fixedSamples m (src + rbValues * r) rbValues

/-- The float samples of block r of a source at `src`, quantized (42_bfp.md R220). -/
def quantizedRb (s : State) (src r : Nat) : List Int :=
  (Memory.readRange s.wmem (src + rbValues * r) rbValues).map (quantize s)

/-- The bytes of compressed block r of a source at `src`. -/
def compressedRb (m : Memory 8) (src w r : Nat) : List Byte :=
  Memory.readRange m (src + r * rbBytes w) (rbBytes w)

/-- BFPX after its checks (42_bfp.md R218). -/
def bfpxRun (w : BitVec 5) (s : State) : State :=
  let out := (List.range s.engArg.r2.toNat).map (fun r =>
    BitVec.ofNat 16 (exponent s.params.expRule (fixedRb s.wmem s.engArg.r0.toNat r) w.toNat))
  complete .ok
    { s with
      wmem := Memory.writeRange s.wmem s.engArg.r1.toNat out
      res := { s.res with r0 := s.engArg.r2 } }

/-- BFPC_I and BFPC_F after the checks of 60_exceptions.md R351: the capacity, then the compressed
blocks; `rb r` gives the 24 int16 values of block r. -/
def compressRun (w : BitVec 5) (rb : Nat → List Int) (s : State) : State :=
  let r := s.engArg.r2.toNat
  let nb := bfpBytes r w.toNat
  if s.engArg.r3.toNat < nb then complete .contractViolation s
  else complete .ok
    { s with
      bmem := Memory.writeRange s.bmem s.engArg.r1.toNat
        ((List.range r).flatMap (fun k => compressRb s.params.expRule (rb k) w.toNat))
      res := { s.res with r0 := word nb } }

/-- BFPD_F and BFPD_RAW after the checks of 60_exceptions.md R351: the length, then the blocks;
`words` gives the WMEM words of one compressed block. -/
def decompressRun (w : BitVec 5) (words : List Byte → List Sample) (s : State) : State :=
  let r := s.engArg.r2.toNat
  let nb := bfpBytes r w.toNat
  if s.engArg.r3.toNat < nb then complete .contractViolation s
  else complete .ok
    { s with
      wmem := Memory.writeRange s.wmem s.engArg.r1.toNat
        ((List.range r).flatMap (fun k =>
          words (compressedRb s.bmem s.engArg.r0.toNat w.toNat k)))
      res := { s.res with r0 := word nb } }

/-- BFPX (42_bfp.md R218). -/
def execBfpx (w : BitVec 5) (s : State) : Result := guarded (.bfpx w) s (bfpxRun w)

/-- BFPC_I (42_bfp.md R219). -/
def execBfpcI (w : BitVec 5) (s : State) : Result :=
  guarded (.bfpcI w) s (compressRun w (fixedRb s.wmem s.engArg.r0.toNat))

/-- BFPC_F (42_bfp.md R220). -/
def execBfpcF (w : BitVec 5) (s : State) : Result :=
  guarded (.bfpcF w) s (compressRun w (quantizedRb s s.engArg.r0.toNat))

/-- BFPD_F (42_bfp.md R221). -/
def execBfpdF (w : BitVec 5) (s : State) : Result :=
  guarded (.bfpdF w) s
    (decompressRun w (fun b => decompressRbFloat s.params.floatFmt b w.toNat))

/-- BFPD_RAW (42_bfp.md R222). -/
def execBfpdRaw (w : BitVec 5) (s : State) : Result :=
  guarded (.bfpdRaw w) s (decompressRun w (fun b => rawRecord b w.toNat))

end Sys2Proof.Machine
end

