-- ==== Sys2Proof/Machine/Control.lean ====
section
/-!
DEFINITION. The control commands and the strategy selector (43_control.md): NOP (R250), INIT (R251),
the selector (R253), latching (R252) and failure (R254).
-/

namespace Sys2Proof.Machine

/-- `select(PIN)` (43_control.md R253); none where the pin is unknown or names a tier the hardware
lacks. -/
def selectTier (p : Params) (pin : BitVec 3) : Option Tier :=
  match pin.toNat with
  | 0 => some (if p.hwTier2 then .tier2 else if p.hwTier1 then .tier1 else .baseline)
  | 1 => some .baseline
  | 2 => if p.hwTier1 then some .tier1 else none
  | 3 => if p.hwTier2 then some .tier2 else none
  | _ => none

/-- A binary32 pattern that is a NaN or an infinity: exponent field 255 (43_control.md R251). -/
def scaleNotFinite (x : Word) : Bool := x.extractLsb' 23 8 == 255#8

/-- The checks of INIT, bit 0 of the failure mask first; true where the check fails (43_control.md
R251). -/
def initChecks (p : Params) (r : CfgRegs) : List Bool :=
  [ decide (7 ≤ r.method.toNat),
    !legalWidth r.bw,
    r.encFilter == 15#4,
    decide (7 ≤ r.mu.toNat),
    !(decide (1 ≤ r.syms.toNat) && decide (r.syms.toNat ≤ 64)),
    !(decide (1 ≤ r.prb.toNat) && decide (r.prb.toNat ≤ 1024)),
    r.maxsec == 0#16,
    scaleNotFinite r.scale,
    (selectTier p r.strat).isNone ]

/-- The number whose bits are a list, bit 0 first. -/
def maskOf : List Bool → Nat
  | [] => 0
  | b :: rest => b.toNat + 2 * maskOf rest

/-- The failure mask of INIT (43_control.md R251). -/
def initMask (p : Params) (r : CfgRegs) : Word := word (maskOf (initChecks p r))

/-- The active configuration a successful INIT latches (10_state.md R53, 43_control.md R252). -/
def latchCfg (r : CfgRegs) (t : Tier) : ActiveCfg :=
  { method := r.method, bw := r.bw, dyn := r.dyn, decDir := r.decDir, encDir := r.encDir,
    version := r.version, encFilter := r.encFilter, mu := r.mu, syms := r.syms, nofPrb := r.prb,
    maxSec := r.maxsec, scale := r.scale, tier := t }

/-- A failed INIT (43_control.md R251, R254): CFG keeps whatever it held. -/
def initFail (mask : Word) (s : State) : State :=
  complete .configError
    { s with cfgOk := false, selTier := .baseline, res := { s.res with r0 := mask } }

/-- A successful INIT with the selected tier (43_control.md R251, R252). -/
def initOk (t : Tier) (s : State) : State :=
  complete .ok
    { s with
      cfg := latchCfg s.engCfgRegs t
      cfgOk := true
      selTier := t
      res := { s.res with r0 := 0#32, r1 := (Tier.bits t).setWidth 32 } }

/-- NOP (43_control.md R250). -/
def execNop (s : State) : Result := .next (complete .ok s)

/-- INIT (43_control.md R251), on the configuration registers as they stood at acceptance. -/
def execInit (s : State) : Result :=
  if initMask s.params s.engCfgRegs != 0#32 then
    .next (initFail (initMask s.params s.engCfgRegs) s)
  else match selectTier s.params s.engCfgRegs.strat with
    | some t => .next (initOk t s)
    | none => .next (initFail (initMask s.params s.engCfgRegs) s)

end Sys2Proof.Machine
end

