-- ==== Sys2Proof/Machine/Wire.lean ====
section
/-!
DEFINITION. The wire formats (30_encoding.md R124 to R136): message header, section header,
compression header, sizes; and the layouts of results (R140, R141, R143).
-/

namespace Sys2Proof.Machine

/-- The fields of a message header (30_encoding.md R125). -/
structure MsgHeader where
  direction : Bool
  version : BitVec 3
  filter : BitVec 4
  frame : BitVec 8
  subframe : BitVec 4
  slot : BitVec 6
  symbol : BitVec 6
deriving DecidableEq, Repr

/-- Header field extraction (30_encoding.md R126). -/
def parseHeader (b0 b1 b2 b3 : Byte) : MsgHeader :=
  { direction := b0.getLsbD 7
    version := b0.extractLsb' 4 3
    filter := b0.extractLsb' 0 4
    frame := b1
    subframe := b2.extractLsb' 4 4
    slot := b2.extractLsb' 0 4 ++ b3.extractLsb' 6 2
    symbol := b3.extractLsb' 0 6 }

/-- Building a header, the inverse of `parseHeader` (30_encoding.md R126). -/
def buildHeader (h : MsgHeader) : List Byte :=
  [ BitVec.ofBool h.direction ++ h.version ++ h.filter,
    h.frame,
    h.subframe ++ h.slot.extractLsb' 2 4,
    h.slot.extractLsb' 0 2 ++ h.symbol ]

/-- The decoded header as MSG_DEC reports it in RES1 (30_encoding.md R140). -/
def headerWord (h : MsgHeader) : Word :=
  h.symbol ++ h.slot ++ h.subframe ++ h.frame ++ h.filter ++ h.version ++ BitVec.ofBool h.direction

/-- The fields of a section header on the wire (30_encoding.md R127). -/
structure SecHeader where
  sectionId : BitVec 12
  rb : Bool
  symInc : Bool
  startPrb : BitVec 10
  nofPrb : BitVec 8
deriving DecidableEq, Repr

/-- Section header field extraction, before the substitution of `nof_prb = 0` (30_encoding.md
R128). -/
def parseSecHeader (c0 c1 c2 c3 : Byte) : SecHeader :=
  { sectionId := c0 ++ c1.extractLsb' 4 4
    rb := c1.getLsbD 3
    symInc := c1.getLsbD 2
    startPrb := c1.extractLsb' 0 2 ++ c2
    nofPrb := c3 }

/-- A section header as bytes (30_encoding.md R127). -/
def buildSecHeader (h : SecHeader) : List Byte :=
  [ h.sectionId.extractLsb' 4 8,
    h.sectionId.extractLsb' 0 4 ++ BitVec.ofBool h.rb ++ BitVec.ofBool h.symInc ++
      h.startPrb.extractLsb' 8 2,
    h.startPrb.extractLsb' 0 8,
    h.nofPrb ]

/-- The number of PRBs of a section: `nof_prb = 0` stands for all configured PRBs (30_encoding.md
R128). -/
def SecHeader.prbCount (h : SecHeader) (configured : Nat) : Nat :=
  if h.nofPrb = 0#8 then configured else h.nofPrb.toNat

/-- The first PRB of a section: 0 where `nof_prb = 0` (30_encoding.md R128). -/
def SecHeader.firstPrb (h : SecHeader) : Nat := if h.nofPrb = 0#8 then 0 else h.startPrb.toNat

/-- The bit width a 4-bit code means: 0 is 16 (30_encoding.md R130). -/
def widthOfCode (k : BitVec 4) : Nat := if k = 0#4 then 16 else k.toNat

/-- The code of a bit width, `w mod 16` (30_encoding.md R130). -/
def codeOfWidth (w : Nat) : BitVec 4 := BitVec.ofNat 4 (w % 16)

/-- Methods with an exponent byte in each RB: 1 and 5 (30_encoding.md R131). -/
def hasExponentByte (method : Nat) : Bool := method == 1 || method == 5

/-- Methods with a length field: 5 and 6 (30_encoding.md R131, R132). -/
def hasLengthField (method : Nat) : Bool := method == 5 || method == 6

/-- `prb_size(method, w)` (30_encoding.md R134). -/
def prbSize (method w : Nat) : Nat := ceilDiv (24 * w) 8 + if hasExponentByte method then 1 else 0

/-- The compression header of the encoder, byte 1 zero (30_encoding.md R129, 45_encoder.md R327). -/
def buildCompHeader (method : BitVec 4) (w : Nat) : List Byte := [codeOfWidth w ++ method, 0#8]

/-- A decoded section: the fields of its descriptor and its samples (30_encoding.md R141). -/
structure Section where
  sectionId : BitVec 12
  everyRbUsed : Bool
  currentSymbol : Bool
  lengthPresent : Bool
  allPrb : Bool
  startPrb : Nat
  nofPrb : Nat
  method : Nat
  width : Nat
  lengthField : Nat
  offset : Nat
  samples : List Sample
deriving DecidableEq, Repr

/-- The 8 words of a section descriptor (30_encoding.md R141). -/
def descriptorWords (d : Section) : List Sample :=
  [ d.sectionId.setWidth 16,
    BitVec.setWidth 16 (BitVec.ofBool d.allPrb ++ BitVec.ofBool d.lengthPresent ++
      BitVec.ofBool d.currentSymbol ++ BitVec.ofBool d.everyRbUsed),
    BitVec.ofNat 16 d.startPrb,
    BitVec.ofNat 16 d.nofPrb,
    BitVec.ofNat 16 (d.method + 16 * d.width),
    BitVec.ofNat 16 d.lengthField,
    BitVec.ofNat 16 (d.offset % 2 ^ 16),
    BitVec.ofNat 16 (d.offset / 2 ^ 16) ]

end Sys2Proof.Machine
end

