-- ==== Sys2Proof/Machine/MsgDecoder.lean ====
section
/-!
DEFINITION. The user-plane message decoder (44_decoder.md): MSG_DEC (R270 to R296) as its parse state
machine (10_state.md R55), and PRB_SIZE (R299).
-/

namespace Sys2Proof.Machine

/-- The states of the decoder (10_state.md R55); a rejection carries its code and offset. -/
inductive ParseState where
  | parseHeader
  | parseSections
  | finished
  | rejected (code : Code) (offset : Nat)
deriving DecidableEq, Repr

/-- The decoder's working state, alive only while a MSG_DEC command runs (10_state.md R55), with the
sections decoded so far, which wait for the commit (44_decoder.md R272). -/
structure DecWork where
  state : ParseState
  cur : Nat
  nsect : Nat
  nsamp : Nat
  trunc : Bool
  sections : List Section
deriving DecidableEq, Repr

/-- What one MSG_DEC command reads: the memory and the message in it, the sample capacity, the active
configuration and the float format (44_decoder.md R296). -/
structure DecEnv where
  mem : Memory 8
  base : Nat
  len : Nat
  cap : Nat
  cfg : ActiveCfg
  fmt : FloatFmt
deriving DecidableEq, Repr

/-- The byte at an offset of the message. -/
def DecEnv.byte (e : DecEnv) (off : Nat) : Byte := Memory.read e.mem (e.base + off)

/-- The header of the message (44_decoder.md R273). -/
def DecEnv.header (e : DecEnv) : MsgHeader := parseHeader (e.byte 0) (e.byte 1) (e.byte 2) (e.byte 3)

/-- The header checks in order; the code and the offset of the first that fails (44_decoder.md R274,
R275). -/
def headerReject (cfg : ActiveCfg) (h : MsgHeader) : Option (Code × Nat) :=
  if h.direction ≠ cfg.decDir then some (.malformed, 0)
  else if h.version ≠ cfg.version then some (.malformed, 0)
  else if h.filter = 15#4 then some (.malformed, 0)
  else if 10 ≤ h.subframe.toNat then some (.rejectedSemantic, 2)
  else if 2 ^ cfg.mu.toNat ≤ h.slot.toNat then some (.rejectedSemantic, 2)
  else if cfg.syms.toNat ≤ h.symbol.toNat then some (.rejectedSemantic, 3)
  else none

/-- What one attempt at a section gives: too few bytes, a rejection, or a section and the cursor after
it. -/
inductive SectionOutcome where
  | truncated
  | rejected (code : Code) (offset : Nat)
  | decoded (d : Section) (next : Nat)
deriving DecidableEq, Repr

/-- The compression parameters of a section and the cursor after them. -/
inductive ParamOutcome where
  | short
  | reserved
  | params (method width next : Nat)
deriving DecidableEq, Repr

/-- The compression parameters at `cur`: read from the wire in dynamic mode (44_decoder.md R278), the
configured ones in static mode (R279). -/
def sectionParams (e : DecEnv) (cur : Nat) : ParamOutcome :=
  if e.cfg.dyn then
    if e.len - cur < 2 then .short
    else
      let method := ((e.byte cur).extractLsb' 0 4).toNat
      if 7 ≤ method then .reserved
      else .params method (widthOfCode ((e.byte cur).extractLsb' 4 4)) (cur + 2)
  else .params e.cfg.method.toNat e.cfg.bw.toNat cur

/-- The samples of the RB whose payload is `bytes` (44_decoder.md R285). -/
def rbSamples (fmt : FloatFmt) (method w : Nat) (bytes : List Byte) : List Sample :=
  if method = 1 then decompressRbFloat fmt bytes w
  else (unpackBits w rbValues bytes).map (fun m => toFloat fmt m 0)

/-- The samples of `n` RBs of P bytes each from offset `cur` on (44_decoder.md R285). -/
def sectionSamples (e : DecEnv) (method w cur n : Nat) : List Sample :=
  (List.range n).flatMap (fun k =>
    rbSamples e.fmt method w
      (Memory.readRange e.mem (e.base + (cur + k * prbSize method w)) (prbSize method w)))

/-- The rest of a section once its compression parameters are known and its payload starts at `cur`:
size, method, capacity, decompression, section bound (44_decoder.md R281 to R287). -/
def sectionPayload (e : DecEnv) (wk : DecWork) (h : SecHeader) (method w lf cur : Nat) :
    SectionOutcome :=
  let n := h.prbCount e.cfg.nofPrb.toNat
  if e.len - cur < n * prbSize method w then .truncated
  else if !(method == 0 || method == 1) then .rejected .unsupportedMethod wk.cur
  else if e.cap < wk.nsamp + 24 * n then .rejected .contractViolation wk.cur
  else if wk.nsect = e.cfg.maxSec.toNat then .rejected .rejectedSemantic wk.cur
  else .decoded
    { sectionId := h.sectionId
      everyRbUsed := !h.rb
      currentSymbol := !h.symInc
      lengthPresent := hasLengthField method
      allPrb := h.nofPrb == 0#8
      startPrb := h.firstPrb
      nofPrb := n
      method := method
      width := w
      lengthField := lf
      offset := wk.nsamp
      samples := sectionSamples e method w cur n }
    (cur + n * prbSize method w)

/-- A section once its compression parameters are known: the length field (44_decoder.md R280), then
the payload. -/
def sectionLength (e : DecEnv) (wk : DecWork) (h : SecHeader) (method w cur : Nat) :
    SectionOutcome :=
  if hasLengthField method then
    if e.len - cur < 2 then .truncated
    else sectionPayload e wk h method w (memRead e.mem (e.base + cur) 2) (cur + 2)
  else sectionPayload e wk h method w 0 cur

/-- One section at the cursor, the checks in the order of 44_decoder.md R290. -/
def parseSection (e : DecEnv) (wk : DecWork) : SectionOutcome :=
  if e.len - wk.cur < 4 then .truncated
  else
    let h := parseSecHeader (e.byte wk.cur) (e.byte (wk.cur + 1)) (e.byte (wk.cur + 2))
      (e.byte (wk.cur + 3))
    match sectionParams e (wk.cur + 4) with
    | .short => .truncated
    | .reserved => .rejected .malformed (wk.cur + 4)
    | .params method w next => sectionLength e wk h method w next

/-- The working state after one section (44_decoder.md R283, R287). -/
def afterSection (wk : DecWork) : SectionOutcome → DecWork
  | .truncated => { wk with state := .finished, trunc := true }
  | .rejected c off => { wk with state := .rejected c off }
  | .decoded d next =>
    { wk with
      cur := next
      nsect := wk.nsect + 1
      nsamp := wk.nsamp + 24 * d.nofPrb
      sections := wk.sections ++ [d] }

/-- The section loop (44_decoder.md R276), for at most `fuel` sections; each consumes at least 4
bytes, so a fuel of the message length is enough (R296). -/
def decLoop : Nat → DecEnv → DecWork → DecWork
  | 0, _, wk => { wk with state := .finished }
  | fuel + 1, e, wk =>
    if wk.cur < e.len then
      if (afterSection wk (parseSection e wk)).state = .parseSections then
        decLoop fuel e (afterSection wk (parseSection e wk))
      else afterSection wk (parseSection e wk)
    else { wk with state := .finished }

/-- The decoder as it enters ParseSections (44_decoder.md R273). -/
def DecWork.start : DecWork :=
  { state := .parseSections, cur := 4, nsect := 0, nsamp := 0, trunc := false, sections := [] }

/-- ParseHeader, then the section loop (44_decoder.md R273 to R291); `L ≥ 4` is known. -/
def decodeMessage (e : DecEnv) : DecWork :=
  match headerReject e.cfg e.header with
  | some (c, off) => { DecWork.start with state := .rejected c off }
  | none => decLoop e.len e DecWork.start

/-- The commit of the decoded sections: descriptors at `dt + 8·j` from `j` on, samples at `sa` plus
each section's offset (44_decoder.md R293). -/
def commitSections (dt sa : Nat) : Nat → List Section → Memory 16 → Memory 16
  | _, [], m => m
  | j, d :: rest, m =>
    commitSections dt sa (j + 1) rest
      (Memory.writeRange (Memory.writeRange m (dt + 8 * j) (descriptorWords d)) (sa + d.offset)
        d.samples)

/-- What the running MSG_DEC reads (44_decoder.md R270). -/
def decEnv (s : State) : DecEnv :=
  { mem := s.bmem, base := s.engArg.r0.toNat, len := s.engArg.r1.toNat, cap := s.engArg.r4.toNat,
    cfg := s.cfg, fmt := s.params.floatFmt }

/-- The end of MSG_DEC: result registers, commit and completion for each outcome (44_decoder.md R291
to R294). -/
def finishDecode (s : State) (wk : DecWork) : State :=
  let hdr := headerWord (decEnv s).header
  match wk.state with
  | .rejected c off => complete c { s with res := { s.res with r1 := hdr, r3 := word off } }
  | _ =>
    if wk.nsect = 0 then
      if wk.trunc then
        complete .incomplete
          { s with res := { s.res with r1 := hdr, r3 := word wk.cur, r4 := 1#32, r5 := 4#32 } }
      else
        complete .noValidSection
          { s with res := { s.res with r1 := hdr, r3 := s.engArg.r1, r5 := 4#32 } }
    else
      complete .ok
        { s with
          wmem := commitSections s.engArg.r2.toNat s.engArg.r3.toNat 0 wk.sections s.wmem
          res :=
            { s.res with
              r0 := word wk.nsect
              r1 := hdr
              r2 := word wk.nsamp
              r3 := if wk.trunc then word wk.cur else 0#32
              r4 := if wk.trunc then 1#32 else 0#32
              r5 := word wk.cur } }

/-- MSG_DEC after the checks of 60_exceptions.md R351 (44_decoder.md R294). -/
def msgDecRun (s : State) : State :=
  if s.engArg.r1.toNat < 4 then
    complete .malformed { s with res := { s.res with r1 := 0#32, r3 := 0#32 } }
  else finishDecode s (decodeMessage (decEnv s))

/-- The bytes of a section before its payload (44_decoder.md R299). -/
def sectionOverhead (cfg : ActiveCfg) (method : Nat) : Nat :=
  4 + (if cfg.dyn then 2 else 0) + if hasLengthField method then 2 else 0

/-- PRB_SIZE after its checks (44_decoder.md R299). -/
def prbSizeRun (w : BitVec 5) (meth : BitVec 4) (s : State) : State :=
  complete .ok
    { s with
      res :=
        { s.res with
          r0 := word (prbSize meth.toNat w.toNat)
          r1 := if hasExponentByte meth.toNat then 1#32 else 0#32
          r2 := word (sectionOverhead s.cfg meth.toNat) } }

/-- MSG_DEC (44_decoder.md R270). -/
def execMsgDec (s : State) : Result := guarded .msgDec s msgDecRun

/-- PRB_SIZE (44_decoder.md R299). -/
def execPrbSize (w : BitVec 5) (meth : BitVec 4) (s : State) : Result :=
  guarded (.prbSize w meth) s (prbSizeRun w meth)

end Sys2Proof.Machine
end

