-- ==== Sys2Proof/Machine/MsgEncoder.lean ====
section
/-!
DEFINITION. The user-plane message encoder (45_encoder.md): MSG_ENC with its contract (R322), its
sizes (R324), its greedy fragmentation loop (R326 to R331) and its results (R332).
-/

namespace Sys2Proof.Machine

/-- The message header MSG_ENC writes: configured direction, version and filter, and the context of
ARG4 (45_encoder.md R321, R327; 30_encoding.md R143). -/
def contextHeader (cfg : ActiveCfg) (a4 : Word) : MsgHeader :=
  { direction := cfg.encDir
    version := cfg.version
    filter := cfg.encFilter
    frame := a4.extractLsb' 0 8
    subframe := a4.extractLsb' 8 4
    slot := a4.extractLsb' 12 6
    symbol := a4.extractLsb' 18 6 }

/-- A context that would build a header MSG_DEC rejects (45_encoder.md R322, check 2). -/
def badContext (cfg : ActiveCfg) (a4 : Word) : Bool :=
  let h := contextHeader cfg a4
  a4.extractLsb' 24 8 != 0#8 || decide (10 ≤ h.subframe.toNat) ||
    decide (2 ^ cfg.mu.toNat ≤ h.slot.toNat) || decide (cfg.syms.toNat ≤ h.symbol.toNat)

/-- The contract checks of MSG_ENC after the overlap check (45_encoder.md R322, checks 2 to 4). -/
def encContract (w : BitVec 5) (meth : BitVec 4) (s : State) : Bool :=
  badContext s.cfg s.engArg.r4 || decide (65535 < s.engArg.r2.toNat) ||
    (!s.cfg.dyn && !(meth == s.cfg.method && w == s.cfg.bw))

/-- The parameters MSG_ENC encodes: BFP at every width, none at 16 bits (45_encoder.md R323). -/
def encSupported (w : BitVec 5) (meth : BitVec 4) : Bool :=
  meth == 1#4 || (meth == 0#4 && w == 16#5)

/-- `H`, the bytes of a message before its payload (45_encoder.md R324). -/
def encOverhead (cfg : ActiveCfg) : Nat := 8 + if cfg.dyn then 2 else 0

/-- The PRBs one message carries at most (45_encoder.md R324). -/
def encCapacity (cfg : ActiveCfg) (slotSize method w : Nat) : Nat :=
  min 255 ((slotSize - encOverhead cfg) / prbSize method w)

/-- The payload of one RB of quantized values (45_encoder.md R328). -/
def encRb (rule : ExpRule) (method w : Nat) (q : List Int) : List Byte :=
  if method = 1 then compressRb rule q w else packBits 16 q

/-- The bytes of a message that covers `n` PRBs from `p` on with section id `sid` (45_encoder.md
R327); `rb r` gives the 24 quantized values of PRB r. -/
def messageBytes (cfg : ActiveCfg) (rule : ExpRule) (a4 : Word) (w : BitVec 5) (meth : BitVec 4)
    (rb : Nat → List Int) (sid : BitVec 12) (p n : Nat) : List Byte :=
  buildHeader (contextHeader cfg a4) ++
  buildSecHeader
    { sectionId := sid, rb := false, symInc := false, startPrb := BitVec.ofNat 10 p,
      nofPrb := BitVec.ofNat 8 n } ++
  (if cfg.dyn then buildCompHeader meth w.toNat else []) ++
  (List.range n).flatMap (fun k => encRb rule meth.toNat w.toNat (rb (p + k)))

/-- The encoder's working state, alive only while a MSG_ENC command runs (10_state.md R56), with the
memories and SECID as written so far. -/
structure EncWork where
  prb : Nat
  count : Nat
  total : Nat
  secId : BitVec 12
  bmem : Memory 8
  wmem : Memory 16
deriving DecidableEq, Repr

/-- What one MSG_ENC command reads: its arguments and fields, the configuration, and the quantized
source as it stood at acceptance (45_encoder.md R320, 20_memory.md R94). -/
structure EncEnv where
  cfg : ActiveCfg
  rule : ExpRule
  w : BitVec 5
  meth : BitVec 4
  out : Nat
  slotSize : Nat
  slots : Nat
  ctx : Word
  table : Nat
  rb : Nat → List Int

/-- The PRBs of the next message (45_encoder.md R326). -/
def EncEnv.take (e : EncEnv) (wk : EncWork) : Nat :=
  min (encCapacity e.cfg e.slotSize e.meth.toNat e.w.toNat) (e.cfg.nofPrb.toNat - wk.prb)

/-- The bytes of the next message (45_encoder.md R327). -/
def EncEnv.message (e : EncEnv) (wk : EncWork) : List Byte :=
  messageBytes e.cfg e.rule e.ctx e.w e.meth e.rb wk.secId wk.prb (e.take wk)

/-- The length of the next message, `H + n·P` (45_encoder.md R327). -/
def EncEnv.messageLen (e : EncEnv) (wk : EncWork) : Nat :=
  encOverhead e.cfg + e.take wk * prbSize e.meth.toNat e.w.toNat

/-- One message: its bytes, its length-table word, the advance of SECID (45_encoder.md R327 to
R330). -/
def encMessage (e : EncEnv) (wk : EncWork) : EncWork :=
  { prb := wk.prb + e.take wk
    count := wk.count + 1
    total := wk.total + e.messageLen wk
    secId := wk.secId + 1#12
    bmem := Memory.writeRange wk.bmem (e.out + wk.count * e.slotSize) (e.message wk)
    wmem := Memory.write wk.wmem (e.table + wk.count) (BitVec.ofNat 16 (e.messageLen wk)) }

/-- The fragmentation loop (45_encoder.md R326, R333), for at most `fuel` messages; a message covers
at least one PRB, so NOF_PRB of them are enough. The code is OK, or OUT_OF_BUFFERS (R331). -/
def encLoop : Nat → EncEnv → EncWork → Code × EncWork
  | 0, _, wk => (.ok, wk)
  | fuel + 1, e, wk =>
    if wk.prb < e.cfg.nofPrb.toNat then
      if wk.count = e.slots then (.outOfBuffers, wk) else encLoop fuel e (encMessage e wk)
    else (.ok, wk)

/-- What the running MSG_ENC reads. -/
def encEnv (w : BitVec 5) (meth : BitVec 4) (s : State) : EncEnv :=
  { cfg := s.cfg, rule := s.params.expRule, w := w, meth := meth, out := s.engArg.r1.toNat,
    slotSize := s.engArg.r2.toNat, slots := s.engArg.r3.toNat, ctx := s.engArg.r4,
    table := s.engArg.r5.toNat, rb := quantizedRb s s.engArg.r0.toNat }

/-- The encoder's working state at the start of a command (45_encoder.md R333). -/
def encStart (s : State) : EncWork :=
  { prb := 0, count := 0, total := 0, secId := s.secId, bmem := s.bmem, wmem := s.wmem }

/-- The end of the loop: memories, SECID and result registers (45_encoder.md R331, R332). -/
def finishEncode (s : State) (r : Code × EncWork) : State :=
  complete r.1
    { s with
      bmem := r.2.bmem
      wmem := r.2.wmem
      secId := r.2.secId
      res :=
        { s.res with
          r0 := word r.2.count
          r1 := word r.2.total
          r2 := word r.2.prb
          r3 := s.secId.setWidth 32 } }

/-- MSG_ENC after the checks of 60_exceptions.md R351 (45_encoder.md R333). -/
def msgEncRun (w : BitVec 5) (meth : BitVec 4) (s : State) : State :=
  if encContract w meth s then complete .contractViolation s
  else if !encSupported w meth then complete .unsupportedMethod s
  else if s.engArg.r2.toNat < encOverhead s.cfg + prbSize meth.toNat w.toNat then
    complete .fragmentTooSmall s
  else finishEncode s (encLoop s.cfg.nofPrb.toNat (encEnv w meth s) (encStart s))

/-- MSG_ENC (45_encoder.md R320). -/
def execMsgEnc (w : BitVec 5) (meth : BitVec 4) (s : State) : Result :=
  guarded (.msgEnc w meth) s (msgEncRun w meth)

end Sys2Proof.Machine
end

