-- ==== Sys2Proof/Machine/Dispatch.lean ====
section
/-! DEFINITION. One arm for each command (30_encoding.md R116): the engine's run of an accepted command. -/

namespace Sys2Proof.Machine

def exec (i : Instr) (s : State) : Host.Outcome State Fault Refusal :=
  match i with
  | .nop => Sys2Proof.Machine.execNop s
  | .init => Sys2Proof.Machine.execInit s
  | .quant => Sys2Proof.Machine.execQuant s
  | .dequant e8 => Sys2Proof.Machine.execDequant e8 s
  | .pack w => Sys2Proof.Machine.execPack w s
  | .unpack w => Sys2Proof.Machine.execUnpack w s
  | .bfpx w => Sys2Proof.Machine.execBfpx w s
  | .bfpcI w => Sys2Proof.Machine.execBfpcI w s
  | .bfpcF w => Sys2Proof.Machine.execBfpcF w s
  | .bfpdF w => Sys2Proof.Machine.execBfpdF w s
  | .bfpdRaw w => Sys2Proof.Machine.execBfpdRaw w s
  | .prbSize w meth => Sys2Proof.Machine.execPrbSize w meth s
  | .msgDec => Sys2Proof.Machine.execMsgDec s
  | .msgEnc w meth => Sys2Proof.Machine.execMsgEnc w meth s

end Sys2Proof.Machine
end

