-- ==== Sys2Proof/Machine/Ownership.lean ====
section
/-!
DEFINITION. Ownership of the running command's regions (20_memory.md R95) and what the spec leaves
unspecified in its output regions (R95, 70_reset_and_hazards.md R381).
-/

namespace Sys2Proof.Machine

/-- The regions of the running command, from the latched word and arguments; none for an illegal word.
While CFG_OK = 0 the active configuration is not read (10_state.md R53): the regions whose length it
gives take the longest length an INIT can configure (log 10). -/
def runningRegions (s : State) : Regions :=
  match decode s.engCmd with
  | .error _ => Regions.none
  | .ok i =>
    regionsOf i s.engArg (if s.cfgOk then s.cfg.maxSec.toNat else 65535)
      (if s.cfgOk then s.cfg.nofPrb.toNat else 1024)

/-- The engine owns address `a` of memory `m`: a command is running and one of its regions holds the
address (20_memory.md R95). -/
def owns (s : State) (m : MemId) (a : Nat) : Bool :=
  s.phase == .busy &&
    ((runningRegions s).ins.any (fun r => r.holds m a) ||
      (runningRegions s).outs.any (fun r => r.holds m a))

/-- The addresses of a region that exist in its memory (log 11). -/
def presentLen (p : Params) (r : Region) : Nat := min r.len (Params.sizeOf p r.mem - r.base)

/-- Free values, from the counter's value on, in the existing addresses of a region. -/
def freeRegion (s : State) (r : Region) : State :=
  let n := presentLen s.params r
  match r.mem with
  | .b =>
    { s with
      bmem := Memory.writeRange s.bmem r.base
        ((List.range n).map (fun k => Config.freeByte (s.freeCtr + k)))
      freeCtr := s.freeCtr + n }
  | .w =>
    { s with
      wmem := Memory.writeRange s.wmem r.base
        ((List.range n).map (fun k => Config.freeSample (s.freeCtr + k)))
      freeCtr := s.freeCtr + n }

/-- Every output region of the running command unspecified (20_memory.md R95, 70_reset_and_hazards.md
R381). -/
def freeOutputs (s : State) : State := (runningRegions s).outs.foldl freeRegion s

/-- The host is about to write address `a` of `m`: if the engine owns it, the memories as the command
found them are kept, for its result is a function of those (20_memory.md R94; log 14). -/
def noteHostWrite (s : State) (m : MemId) (a : Nat) : State :=
  if owns s m a then { s with engView := some (s.engView.getD ⟨s.bmem, s.wmem⟩) } else s

end Sys2Proof.Machine
end

