-- ==== Sys2Proof/Machine/HostPort.lean ====
section
/-!
DEFINITION. The host's side of the block: the register map (10_state.md R32), register reads and writes
(R33 to R51), memory accesses (20_memory.md R83, R95), and the two resets (70_reset_and_hazards.md
R380, R381).
-/

namespace Sys2Proof.Machine

/-- The registers of 10_state.md R32. -/
inductive Reg where
  | id
  | cap
  | bmemLast
  | wmemLast
  | ctrl
  | status
  | cmd
  | arg (k : Fin 8)
  | res (k : Fin 8)
  | cfgComp
  | cfgHdr
  | cfgPrb
  | cfgMaxsec
  | cfgScale
  | cfgStrat
  | secId
deriving DecidableEq, Repr

/-- The register map (10_state.md R32); every other offset is unmapped. -/
def regMap : List (Nat × Reg) :=
  [ (0x000, .id), (0x004, .cap), (0x008, .bmemLast), (0x00C, .wmemLast),
    (0x010, .ctrl), (0x014, .status), (0x018, .cmd),
    (0x020, .arg 0), (0x024, .arg 1), (0x028, .arg 2), (0x02C, .arg 3),
    (0x030, .arg 4), (0x034, .arg 5), (0x038, .arg 6), (0x03C, .arg 7),
    (0x040, .res 0), (0x044, .res 1), (0x048, .res 2), (0x04C, .res 3),
    (0x050, .res 4), (0x054, .res 5), (0x058, .res 6), (0x05C, .res 7),
    (0x080, .cfgComp), (0x084, .cfgHdr), (0x088, .cfgPrb), (0x08C, .cfgMaxsec),
    (0x090, .cfgScale), (0x094, .cfgStrat), (0x098, .secId) ]

/-- The register an access reaches: only an aligned 32-bit access to a mapped offset reaches one
(10_state.md R33). -/
def regAt (width : AccessWidth) (offset : Word) : Option Reg :=
  if width = .word then (regMap.find? (fun p => p.1 == offset.toNat)).map Prod.snd else none

/-- CAP (10_state.md R35). -/
def capWord (p : Params) : Word :=
  0#21 ++ (match p.expRule with | .signed => 0#1 | .magnitude => 1#1) ++
    (match p.floatFmt with | .bf16 => 0#2 | .fp16 => 1#2) ++ 0#5 ++
    BitVec.ofBool p.hwTier2 ++ BitVec.ofBool p.hwTier1 ++ 1#1

/-- The value of a register (10_state.md R32 to R50): bits that are not named fields read 0. -/
def regValue (s : State) : Reg → Word
  | .id => 0x42465007#32
  | .cap => capWord s.params
  | .bmemLast => s.params.bmemLast
  | .wmemLast => s.params.wmemLast
  | .ctrl => (BitVec.ofBool s.irqEn).setWidth 32
  | .status => statusWord s
  | .cmd => s.cmd
  | .arg k => s.arg.get k
  | .res k => s.res.get k
  | .cfgComp => s.cfgRegs.comp.setWidth 32
  | .cfgHdr => s.cfgRegs.hdr.setWidth 32
  | .cfgPrb => s.cfgRegs.prb.setWidth 32
  | .cfgMaxsec => s.cfgRegs.maxsec.setWidth 32
  | .cfgScale => s.cfgRegs.scale
  | .cfgStrat => s.cfgRegs.strat.setWidth 32
  | .secId => s.secId.setWidth 32

/-- A host register read: 0 for an unmapped, sub-word or misaligned access, and no side effect
(10_state.md R33). -/
def readReg (s : State) (width : AccessWidth) (offset : Word) : Word :=
  match regAt width offset with
  | some r => regValue s r
  | none => 0#32

/-- A hardware reset (70_reset_and_hazards.md R380): every piece of the block's state, the memories
included, as `State.reset` has it; the instance, the inputs still to come and the model's own counter
stay (log 13). -/
def hardReset (s : State) : State :=
  { State.reset with
    params := s.params
    inputs := s.inputs
    readData := s.readData
    freeCtr := s.freeCtr }

/-- A soft reset (70_reset_and_hazards.md R381): as a hardware reset, but the memories keep their
contents; the output regions of a command it aborts become unspecified. -/
def softReset (s : State) : State :=
  let u := if s.phase = .busy then freeOutputs s else s
  { hardReset u with bmem := u.bmem, wmem := u.wmem }

/-- A host write to CTRL (10_state.md R38). -/
def writeCtrl (v : Word) (s : State) : State :=
  if v.getLsbD 1 then softReset s else { s with irqEn := v.getLsbD 0 }

/-- A host write to CMD: accepted when idle, dropped with OVR set when busy (10_state.md R41,
60_exceptions.md R354). -/
def writeCmd (v : Word) (s : State) : State :=
  if s.phase = .busy then { s with ovr := true } else accept v s

/-- A host write to SECID, ignored while BUSY (10_state.md R50). -/
def writeSecId (v : Word) (s : State) : State :=
  if s.phase = .busy then s else { s with secId := v.setWidth 12 }

/-- A host write to a register (10_state.md R32 to R51). A configuration register stores every value
of its fields (R51); a write to a read-only register is ignored (R33). -/
def writeRegister (r : Reg) (v : Word) (s : State) : State :=
  match r with
  | .id => s
  | .cap => s
  | .bmemLast => s
  | .wmemLast => s
  | .ctrl => writeCtrl v s
  | .status => clearStatus v s
  | .cmd => writeCmd v s
  | .arg k => { s with arg := s.arg.set k v }
  | .res _ => s
  | .cfgComp => { s with cfgRegs := { s.cfgRegs with comp := v.setWidth 10 } }
  | .cfgHdr => { s with cfgRegs := { s.cfgRegs with hdr := v.setWidth 19 } }
  | .cfgPrb => { s with cfgRegs := { s.cfgRegs with prb := v.setWidth 11 } }
  | .cfgMaxsec => { s with cfgRegs := { s.cfgRegs with maxsec := v.setWidth 16 } }
  | .cfgScale => { s with cfgRegs := { s.cfgRegs with scale := v } }
  | .cfgStrat => { s with cfgRegs := { s.cfgRegs with strat := v.setWidth 3 } }
  | .secId => writeSecId v s

/-- A host register write: ignored for an unmapped, sub-word or misaligned access (10_state.md R33). -/
def writeReg (width : AccessWidth) (offset v : Word) (s : State) : State :=
  match regAt width offset with
  | some r => writeRegister r v s
  | none => s

/-- A host read of BMEM: a free value where the engine owns the byte (20_memory.md R83, R95). -/
def readByte (a : Word) (s : State) : Result :=
  if s.params.bmemSize ≤ a.toNat then .fault (.hostAddress .b a)
  else if owns s .b a.toNat then
    .next { s with readData := (Config.freeByte s.freeCtr).setWidth 32, freeCtr := s.freeCtr + 1 }
  else .next { s with readData := (Memory.read s.bmem a.toNat).setWidth 32 }

/-- A host read of WMEM: a free value where the engine owns the word (20_memory.md R83, R95). -/
def readWord (a : Word) (s : State) : Result :=
  if s.params.wmemSize ≤ a.toNat then .fault (.hostAddress .w a)
  else if owns s .w a.toNat then
    .next { s with readData := (Config.freeSample s.freeCtr).setWidth 32, freeCtr := s.freeCtr + 1 }
  else .next { s with readData := (Memory.read s.wmem a.toNat).setWidth 32 }

/-- A host write to BMEM (20_memory.md R83, R95). -/
def writeByte (a : Word) (v : Byte) (s : State) : Result :=
  if s.params.bmemSize ≤ a.toNat then .fault (.hostAddress .b a)
  else .next { noteHostWrite s .b a.toNat with bmem := Memory.write s.bmem a.toNat v }

/-- A host write to WMEM (20_memory.md R83, R95). -/
def writeWord (a : Word) (v : Sample) (s : State) : Result :=
  if s.params.wmemSize ≤ a.toNat then .fault (.hostAddress .w a)
  else .next { noteHostWrite s .w a.toNat with wmem := Memory.write s.wmem a.toNat v }

/-- One access of the host. -/
def hostAccess (h : HostAccess) (s : State) : Result :=
  match h with
  | .readReg width offset => .next { s with readData := readReg s width offset }
  | .writeReg width offset v => .next (writeReg width offset v s)
  | .readByte a => readByte a s
  | .writeByte a v => writeByte a v s
  | .readWord a => readWord a s
  | .writeWord a v => writeWord a v s

end Sys2Proof.Machine
end

