-- ==== Sys2Proof/Machine/Engine.lean ====
section
/-!
DEFINITION. The engine's turn: the accepted command word is read from ENG.cmd, decoded and run to its
completion in one step (10_state.md R54, 70_reset_and_hazards.md R391).
-/

namespace Sys2Proof.Machine

/-- The result `t` of a command into whose regions the host has written since its acceptance: the
status and the registers are those of the memories at acceptance, the memories are the host's with
every output region of the command unspecified (20_memory.md R94, R95; log 14). -/
def violatedResult (s t : State) : State :=
  let u := freeOutputs s
  { t with bmem := u.bmem, wmem := u.wmem, freeCtr := u.freeCtr }

/-- A command on the memories as it found them. -/
def runCommand (i : Instr) (s : State) : Result :=
  match s.engView with
  | none => exec i s
  | some v =>
    match exec i { s with bmem := v.bmem, wmem := v.wmem } with
    | .next t => .next (violatedResult s t)
    | .fault f => .fault f
    | .refused r => .refused r

/-- The running command to its completion; a word that is no command completes with ILLEGAL_COMMAND
(30_encoding.md R114). -/
def runEngine (s : State) : Result :=
  match decode s.engCmd with
  | .error _ => .next (complete .illegalCommand s)
  | .ok i => runCommand i s

/-- The engine's turn; it does nothing when no command is running (60_exceptions.md R366). -/
def engineTurn (s : State) : Result := if s.phase = .busy then runEngine s else .next s

/-- One input of the block. -/
def handle (e : Event) (s : State) : Result :=
  match e with
  | .host a => hostAccess a s
  | .engine => engineTurn s
  | .hardReset => .next (hardReset s)

/-- Acceptance of the word of `nbits` bits `w`, every bit from `nbits` on 0, with the engine's turn
next (log 6). -/
def acceptWord (nbits w : Nat) (s : State) : State :=
  { accept (BitVec.ofNat 32 (w % 2 ^ nbits)) s with inputs := .engine :: s.inputs }

end Sys2Proof.Machine
end

