-- ==== Sys2Proof/Machine/Step.lean ====
section
/-!
DEFINITION. One step of the block: the next input, or, with no input left, the engine's turn (log 6,
log 7).
-/

namespace Sys2Proof.Machine

def step (s : State) : Host.Outcome State Fault Refusal :=
  match s.inputs with
  | [] => engineTurn s
  | e :: rest => handle e { s with inputs := rest }

/-- `s` with a command word where the engine fetches its next command: latched in ENG.cmd by an
acceptance (10_state.md R41), the engine's turn next. The block has no program counter (R31); a
program is the host's list of accesses (log 6). -/
def State.withFetchWord (s : State) (nbits w : Nat) : State := acceptWord nbits w s

end Sys2Proof.Machine
end

