-- ==== Sys2Proof/Machine/Assembler.lean ====
section
/-!
DEFINITION. The assembly syntax and the pseudo-instructions (30_encoding.md R122, R123), as the host
accesses a line assembles to. The block itself never reads text; a program is what the host does, and
this file turns one into `State.inputs` (log 18).
-/

namespace Sys2Proof.Machine

/-- One command line (30_encoding.md R122): the mnemonic's opcode, the fields it gives (0 where it
gives none), and the values of ARG0, ARG1, … that it gives. The word may be illegal. -/
structure AsmCommand where
  opc : Byte
  w : BitVec 5
  meth : BitVec 4
  e8 : BitVec 8
  operands : List Word
deriving DecidableEq, Repr

/-- A pseudo-instruction (30_encoding.md R123). -/
inductive Pseudo where
  | wait
  | ack
  | run (c : AsmCommand)
  | set (r : Reg) (v : Word)
  | expect (code : Byte)
deriving DecidableEq, Repr

/-- One line of a program. -/
inductive AsmLine where
  | command (c : AsmCommand)
  | pseudo (p : Pseudo)
deriving DecidableEq, Repr

/-- The offset of a register (10_state.md R32). -/
def regOffset (r : Reg) : Word :=
  match regMap.find? (fun p => p.2 == r) with
  | some p => word p.1
  | none => 0#32

/-- A host write of a register by name. -/
def setEvent (r : Reg) (v : Word) : Event := .host (.writeReg .word (regOffset r) v)

/-- A host read of STATUS. -/
def pollEvent : Event := .host (.readReg .word (regOffset .status))

/-- `ARG[k] <- ak` for each operand given, in order of k from `k` on. -/
def operandEvents : Nat → List Word → List Event
  | _, [] => []
  | k, v :: rest => setEvent (.arg (Fin.ofNat 8 k)) v :: operandEvents (k + 1) rest

/-- What a command line assembles to: the arguments in order, then CMD (30_encoding.md R122). -/
def AsmCommand.events (c : AsmCommand) : List Event :=
  operandEvents 0 c.operands ++ [setEvent .cmd (commandWord c.opc c.w c.meth c.e8)]

/-- WAIT as it runs: `polls` reads of STATUS while the command still runs, the engine's turn, and the
read that finds BUSY clear (30_encoding.md R123). How many polls a command lasts is unspecified
(70_reset_and_hazards.md R391). -/
def waitEvents (polls : Nat) : List Event := List.replicate polls pollEvent ++ [.engine, pollEvent]

/-- The host accesses of a pseudo-instruction (30_encoding.md R123). -/
def Pseudo.events (polls : Nat) : Pseudo → List Event
  | .wait => waitEvents polls
  | .ack => [setEvent .status 0x00000016#32]
  | .run c => AsmCommand.events c ++ waitEvents polls
  | .set r v => [setEvent r v]
  | .expect _ => [pollEvent]

/-- EXPECT holds: the STATUS just read carries the code (30_encoding.md R123). -/
def expectHolds (code : Byte) (s : State) : Bool := s.readData.extractLsb' 8 8 == code

/-- The host accesses of a line. -/
def AsmLine.events (polls : Nat) : AsmLine → List Event
  | .command c => AsmCommand.events c
  | .pseudo p => Pseudo.events polls p

/-- The host accesses of a program. -/
def programEvents (polls : Nat) (lines : List AsmLine) : List Event :=
  lines.flatMap (AsmLine.events polls)

/-! ### Text -/

/-- The value of a digit below `base`. -/
def digitValue (base : Nat) (c : Char) : Option Nat :=
  let n := c.toNat
  let v := if 48 ≤ n ∧ n ≤ 57 then n - 48
    else if 65 ≤ n ∧ n ≤ 70 then n - 55
    else if 97 ≤ n ∧ n ≤ 102 then n - 87
    else base
  if v < base then some v else none

/-- A number in a base, most significant digit first. -/
def digits (base : Nat) : Nat → List Char → Option Nat
  | acc, [] => some acc
  | acc, c :: rest =>
    match digitValue base c with
    | some v => digits base (base * acc + v) rest
    | none => none

/-- A decimal or `0x` hexadecimal number (30_encoding.md R122). -/
def parseNumber (cs : List Char) : Option Nat :=
  match cs with
  | [] => none
  | ['0', 'x'] => none
  | '0' :: 'x' :: rest => digits 16 0 rest
  | _ => digits 10 0 cs

/-- A number of at most `n` bits. -/
def parseBits (n : Nat) (cs : List Char) : Option (BitVec n) :=
  match parseNumber cs with
  | some v => if v < 2 ^ n then some (BitVec.ofNat n v) else none
  | none => none

/-- The opcode of a mnemonic (30_encoding.md R116). -/
def opcodeNames : List (String × Byte) :=
  [ ("NOP", 0x00#8), ("INIT", 0x01#8), ("QUANT", 0x10#8), ("DEQUANT", 0x11#8), ("PACK", 0x20#8),
    ("UNPACK", 0x21#8), ("BFPX", 0x30#8), ("BFPC_I", 0x31#8), ("BFPC_F", 0x32#8),
    ("BFPD_F", 0x33#8), ("BFPD_RAW", 0x34#8), ("PRB_SIZE", 0x40#8), ("MSG_DEC", 0x41#8),
    ("MSG_ENC", 0x42#8) ]

/-- The names of the method codes (30_encoding.md R122). -/
def methodNames : List (String × BitVec 4) :=
  [ ("none", 0#4), ("bfp", 1#4), ("bs", 2#4), ("mulaw", 3#4), ("mod", 4#4), ("bfpsel", 5#4),
    ("modsel", 6#4) ]

/-- The names of the registers (10_state.md R32). -/
def regNames : List (String × Reg) :=
  [ ("ID", .id), ("CAP", .cap), ("BMEM_LAST", .bmemLast), ("WMEM_LAST", .wmemLast),
    ("CTRL", .ctrl), ("STATUS", .status), ("CMD", .cmd), ("ARG0", .arg 0), ("ARG1", .arg 1),
    ("ARG2", .arg 2), ("ARG3", .arg 3), ("ARG4", .arg 4), ("ARG5", .arg 5), ("ARG6", .arg 6),
    ("ARG7", .arg 7), ("RES0", .res 0), ("RES1", .res 1), ("RES2", .res 2), ("RES3", .res 3),
    ("RES4", .res 4), ("RES5", .res 5), ("RES6", .res 6), ("RES7", .res 7),
    ("CFG_COMP", .cfgComp), ("CFG_HDR", .cfgHdr), ("CFG_PRB", .cfgPrb),
    ("CFG_MAXSEC", .cfgMaxsec), ("CFG_SCALE", .cfgScale), ("CFG_STRAT", .cfgStrat),
    ("SECID", .secId) ]

/-- The entry of a name in a table. -/
def lookupName {α : Type} (table : List (String × α)) (cs : List Char) : Option α :=
  (table.find? (fun p => p.1.toList == cs)).map Prod.snd

/-- METH of a token `mN`, with N a number or a name (30_encoding.md R122). -/
def parseMethod (cs : List Char) : Option (BitVec 4) :=
  match lookupName methodNames cs with
  | some m => some m
  | none => parseBits 4 cs

/-- A token that begins with a letter and whose rest parses, if the next token is one; else the value
given and every token. -/
def optionalField {α : Type} (letter : Char) (parse : List Char → Option α) (absent : α)
    (tokens : List (List Char)) : α × List (List Char) :=
  match tokens with
  | (c :: cs) :: rest =>
    if c = letter then
      match parse cs with
      | some v => (v, rest)
      | none => (absent, tokens)
    else (absent, tokens)
  | _ => (absent, tokens)

/-- The words of a line between blanks. -/
def blanks (cs : List Char) : List (List Char) := (cs.splitOn ' ').filter (fun t => !t.isEmpty)

/-- The operands of a line: numbers of 32 bits between commas (30_encoding.md R122). -/
def parseOperands (tokens : List (List Char)) : Option (List Word) :=
  if tokens.isEmpty then some []
  else (((tokens.intersperse [' ']).flatten).splitOn ',').mapM (fun t =>
    match blanks t with
    | [n] => parseBits 32 n
    | _ => none)

/-- A command line (30_encoding.md R122); none where it has not the syntax's form or more than eight
operands. -/
def parseCommand (tokens : List (List Char)) : Option AsmCommand :=
  match tokens with
  | [] => none
  | name :: rest =>
    match lookupName opcodeNames name with
    | none => none
    | some opc =>
      let w := optionalField 'w' (parseBits 5) 0#5 rest
      let m := optionalField 'm' parseMethod 0#4 w.2
      let e := optionalField 'e' (parseBits 8) 0#8 m.2
      match parseOperands e.2 with
      | some ops =>
        if ops.length ≤ 8 then some { opc := opc, w := w.1, meth := m.1, e8 := e.1, operands := ops }
        else none
      | none => none

/-- SET's operands: a register name with a comma after it, and a value (30_encoding.md R123). -/
def parseSet (tokens : List (List Char)) : Option Pseudo :=
  match (((tokens.intersperse [' ']).flatten).splitOn ',').map blanks with
  | [[name], [v]] =>
    match lookupName regNames name, parseBits 32 v with
    | some r, some x => some (.set r x)
    | _, _ => none
  | _ => none

/-- One line of a program (30_encoding.md R122, R123). -/
def parseLine (cs : List Char) : Option AsmLine :=
  match blanks cs with
  | [] => none
  | name :: rest =>
    if name = "WAIT".toList ∧ rest = [] then some (.pseudo .wait)
    else if name = "ACK".toList ∧ rest = [] then some (.pseudo .ack)
    else if name = "RUN".toList then (parseCommand rest).map (fun c => .pseudo (.run c))
    else if name = "SET".toList then (parseSet rest).map .pseudo
    else if name = "EXPECT".toList then
      match rest with
      | [n] => (parseBits 8 n).map (fun c => .pseudo (.expect c))
      | _ => none
    else (parseCommand (name :: rest)).map .command

end Sys2Proof.Machine
end

