-- ==== Sys2Proof/Safety.lean ====
section
/-!
DEFINITION. What a safe state and a safe run of the block are, in the terms statements use: the
invariant every step keeps, and the observations.
-/

namespace Sys2Proof.Machine

/-- A region of `len` addresses from `base` on is in range of a memory of `size` (20_memory.md R87). -/
def InRange (size base len : Nat) : Prop := len = 0 ∨ base + len ≤ size

/-- Two regions of one memory do not overlap (20_memory.md R88). -/
def Apart (a n b m : Nat) : Prop := n = 0 ∨ m = 0 ∨ a + n ≤ b ∨ b + m ≤ a

/-- `m` holds `vs` from address `a` on. -/
def Holds {w : Nat} (m : Memory w) (a : Nat) (vs : List (BitVec w)) : Prop :=
  ∀ k, ∀ h : k < vs.length, Memory.read m (a + k) = vs[k]

/-- Stream bit k of the bytes from `base` on: bit `7 − (k mod 8)` of byte `k div 8`
(30_encoding.md R135). -/
def streamBit (m : Memory 8) (base k : Nat) : Bool := (Memory.read m (base + k / 8)).getLsbD (7 - k % 8)

/-- `v` is field i of w bits of the stream from `base` on, sign-extended: bit j of `v` is the field's
bit j, and its top bit from there on (41_bitpack.md R191, R192). -/
def IsField (m : Memory 8) (base w i : Nat) (v : Sample) : Prop :=
  ∀ j, j < 16 → v.getLsbD j = streamBit m base (i * w + (w - 1 - min j (w - 1)))

/-- A section as it stands on the wire (30_encoding.md R127, R129, R133); `method`, `code` and
`reserved` are its compression header, present in dynamic mode only. -/
structure WireSection where
  header : SecHeader
  method : BitVec 4
  code : BitVec 4
  reserved : Byte
  payload : List Byte
deriving DecidableEq, Repr

/-- The bytes of a section of a method without a length field. -/
def WireSection.bytes (dyn : Bool) (x : WireSection) : List Byte :=
  buildSecHeader x.header ++ (if dyn then [x.code ++ x.method, x.reserved] else []) ++ x.payload

/-- The method a section is decoded with (44_decoder.md R278, R279). -/
def WireSection.methodIn (cfg : ActiveCfg) (x : WireSection) : Nat :=
  if cfg.dyn then x.method.toNat else cfg.method.toNat

/-- The width a section is decoded with (44_decoder.md R278, R279). -/
def WireSection.widthIn (cfg : ActiveCfg) (x : WireSection) : Nat :=
  if cfg.dyn then (if x.code = 0#4 then 16 else x.code.toNat) else cfg.bw.toNat

/-- The PRBs of a section (30_encoding.md R128). -/
def WireSection.prbs (cfg : ActiveCfg) (x : WireSection) : Nat := x.header.prbCount cfg.nofPrb.toNat

/-- A complete section of a method this block decompresses (44_decoder.md R281, R282). -/
def WireSection.Complete (cfg : ActiveCfg) (x : WireSection) : Prop :=
  (x.methodIn cfg = 0 ∨ x.methodIn cfg = 1) ∧
    x.payload.length = x.prbs cfg * prbSize (x.methodIn cfg) (x.widthIn cfg)

/-- The samples before section j of a message. -/
def samplesBefore (cfg : ActiveCfg) (xs : List WireSection) (j : Nat) : Nat :=
  ((xs.take j).map (fun x => 24 * x.prbs cfg)).sum

/-- What MSG_DEC on `s` leaves in WMEM `m` for the j-th section `x` of a message, whose payload starts at
BMEM byte `p` and whose samples follow `off` others: its descriptor (30_encoding.md R141), and, RB by RB,
24 samples (44_decoder.md R285, R287). Sample i of an RB is the float of field i of w bits, sign-extended,
under the RB's exponent byte for method 1 and under exponent 0 for method 0; `rbSamples` gives the same
and also speaks of the widths that no INIT accepts. -/
def WireSection.WrittenIn (s : State) (m : Memory 16) (j p off : Nat) (x : WireSection) : Prop :=
  let method := x.methodIn s.cfg
  let w := x.widthIn s.cfg
  let lead := if method = 1 then 1 else 0
  let sa := s.engArg.r3.toNat + off
  Holds m (s.engArg.r2.toNat + 8 * j)
    [ x.header.sectionId.setWidth 16,
      BitVec.ofNat 16 ((if x.header.rb then 0 else 1) + (if x.header.symInc then 0 else 2) +
        if x.header.nofPrb = 0#8 then 8 else 0),
      BitVec.ofNat 16 (if x.header.nofPrb = 0#8 then 0 else x.header.startPrb.toNat),
      BitVec.ofNat 16 (x.prbs s.cfg),
      BitVec.ofNat 16 (method + 16 * w),
      0#16, BitVec.ofNat 16 (off % 65536), BitVec.ofNat 16 (off / 65536) ] ∧
  ∀ k, k < x.prbs s.cfg →
    let rb := p + k * (3 * w + lead)
    Holds m (sa + 24 * k)
      (rbSamples s.params.floatFmt method w
        ((x.payload.drop (k * prbSize method w)).take (prbSize method w))) ∧
    (1 ≤ w → w ≤ 16 → ∀ (i : Nat) (v : Sample), i < 24 → IsField s.bmem (rb + lead) w i v →
      Memory.read m (sa + 24 * k + i) = toFloat s.params.floatFmt v.toInt
        (if method = 1 then (Memory.read s.bmem rb).toNat else 0))

/-- The real number a decoded finite float stands for. -/
def realOf (num exp : Int) : ℚ := (num : ℚ) * (2 : ℚ) ^ exp

/-- The step goes on: it neither faults nor refuses. -/
def Goes (r : Result) : Prop := ∃ t, r = .next t

/-- Both memories are in canonical form and list nothing past their ends. -/
def MemoriesWf (s : State) : Prop :=
  Memory.wf s.bmem ∧ Memory.below s.params.bmemSize s.bmem ∧
    Memory.wf s.wmem ∧ Memory.below s.params.wmemSize s.wmem

/-- An active configuration that an INIT of this instance may have latched (43_control.md R251). -/
def LegalCfg (p : Params) (c : ActiveCfg) : Prop :=
  c.method.toNat < 7 ∧ legalWidth c.bw = true ∧ c.encFilter ≠ 15#4 ∧ c.mu.toNat < 7 ∧
    (1 ≤ c.syms.toNat ∧ c.syms.toNat ≤ 64) ∧ (1 ≤ c.nofPrb.toNat ∧ c.nofPrb.toNat ≤ 1024) ∧
    c.maxSec ≠ 0#16 ∧ scaleNotFinite c.scale = false ∧
    (c.tier = .tier1 → p.hwTier1 = true) ∧ (c.tier = .tier2 → p.hwTier2 = true)

/-- While CFG_OK = 1 the active configuration is legal and SEL_TIER shows its tier; otherwise SEL_TIER
is 0 (10_state.md R39, R53, R59). -/
def CfgSound (s : State) : Prop :=
  (s.cfgOk = true → LegalCfg s.params s.cfg ∧ s.selTier = s.cfg.tier) ∧
    (s.cfgOk = false → s.selTier = .baseline)

/-- The status flags agree with the engine: while a command runs DONE, ERR, CODE and RES are as
acceptance left them (10_state.md R41); ERR is never set under CODE = OK (R39). -/
def StatusSound (s : State) : Prop :=
  (s.phase = .busy → s.done = false ∧ s.err = false ∧ s.code = .ok ∧ s.res = Bank.zero) ∧
    (s.err = true → s.code ≠ .ok)

/-- The memories kept for a running command are in canonical form, and none are kept while idle. -/
def ViewSound (s : State) : Prop :=
  (s.phase = .idle → s.engView = none) ∧
    ∀ v, s.engView = some v →
      Memory.wf v.bmem ∧ Memory.below s.params.bmemSize v.bmem ∧
        Memory.wf v.wmem ∧ Memory.below s.params.wmemSize v.wmem

/-- The invariant of the block. -/
structure Inv (s : State) : Prop where
  memories : MemoriesWf s
  config : CfgSound s
  status : StatusSound s
  view : ViewSound s

/-- A command is accepted and the engine's turn is next, with no input left: the state in which the
next step runs ENG.cmd, on memories the host has not touched since. -/
def Ready (s : State) : Prop := s.phase = .busy ∧ s.inputs = [] ∧ s.engView = none

end Sys2Proof.Machine
end

