-- ==== Sys2Proof/Certificates/Slice0/Obligations.lean ====
section
/-!
DEFINITION. The statements about the block, each with the rule of spec/ it formalises. A statement of
a command's result concludes that `exec` answers the next state its rule gives: every field not named
in that state is unchanged, and every address of a memory it names is covered by one of its clauses.
The fields `inputs`, `readData`, `freeCtr` and `engView` are the model's own (log 6, log 8, log 9, log
14); a completion leaves no memories kept, which is what `engView := none` says.
-/

open Sys2Proof Sys2Proof.Machine

/-! ### Command words -/

/-- 30_encoding.md R110, R116, R117: decoding the word of a command with legal fields gives it back. -/
def Obligations.DecodeOfEncodeGivesTheCommand : Prop :=
  ∀ i : Instr, i.wf = true → decode (encode i) = .ok i

/-- 30_encoding.md R114, R117: a word that decodes is the word of its command, with legal fields; so a
word has one meaning and no bit of it is dropped. -/
def Obligations.EncodeOfDecodeGivesTheWord : Prop :=
  ∀ (c : Word) (i : Instr), decode c = .ok i → i.wf = true ∧ encode i = c

/-- 30_encoding.md R117: the words that decode, field by field. -/
def Obligations.DecodeAcceptsExactlyLegalWords : Prop :=
  ∀ c : Word,
    let opc := c.toNat % 256
    let w := c.toNat / 256 % 32
    let m := c.toNat / 8192 % 16
    let e := c.toNat / 131072 % 256
    (∃ i, decode c = .ok i) ↔
      c.toNat / 33554432 = 0 ∧
      opc ∈ [0x00, 0x01, 0x10, 0x11, 0x20, 0x21, 0x30, 0x31, 0x32, 0x33, 0x34, 0x40, 0x41, 0x42] ∧
      (if opc ∈ [0x20, 0x21, 0x30, 0x31, 0x32, 0x33, 0x34, 0x40, 0x42] then 1 ≤ w ∧ w ≤ 16 else w = 0) ∧
      (if opc ∈ [0x40, 0x42] then m < 7 else m = 0) ∧
      (opc ≠ 0x11 → e = 0)

/-- 30_encoding.md R118: the example words. -/
def Obligations.ExampleWordsDecode : Prop :=
  decode 0x00000000#32 = .ok .nop ∧ decode 0x00000001#32 = .ok .init ∧
    decode 0x00000920#32 = .ok (.pack 9#5) ∧ decode 0x00000931#32 = .ok (.bfpcI 9#5) ∧
    decode 0x00060011#32 = .ok (.dequant 3#8) ∧ decode 0x00002942#32 = .ok (.msgEnc 9#5 1#4) ∧
    decode 0x00001042#32 = .ok (.msgEnc 16#5 0#4) ∧
    decode 0x0000A940#32 = .ok (.prbSize 9#5 5#4) ∧ decode 0x00000041#32 = .ok .msgDec ∧
    (∃ e, decode 0x02000010#32 = .error e) ∧ (∃ e, decode 0x00000110#32 = .error e)

/-! ### The life of a command -/

/-- 10_state.md R54, 60_exceptions.md R350: on the engine's turn a busy block runs the command that
ENG.cmd decodes to, and does nothing else but take the event. R366: an idle block keeps all state. That
the engine's turn is an event, or next when no input is left, is the model's choice (log 6, log 7). -/
def Obligations.StepRunsTheAcceptedCommand : Prop :=
  ∀ s : State, (s.inputs = [] ∨ ∃ rest, s.inputs = .engine :: rest) →
    (∀ i : Instr, s.phase = .busy → s.engView = none → decode s.engCmd = .ok i →
      step s = exec i { s with inputs := s.inputs.tail }) ∧
    (s.phase = .idle → step s = .next { s with inputs := s.inputs.tail })

/-- 30_encoding.md R114: a word that is no command completes with ILLEGAL_COMMAND and changes nothing
but the flags of completion. -/
def Obligations.IllegalWordCompletesAndChangesNothingElse : Prop :=
  ∀ (s : State) (e : DecodeError), s.phase = .busy →
    (s.inputs = [] ∨ ∃ rest, s.inputs = .engine :: rest) → decode s.engCmd = .error e →
      step s = .next
        { s with
          inputs := s.inputs.tail
          code := .illegalCommand
          err := true
          done := true
          phase := .idle
          engView := none }

/-- 10_state.md R41: a host write of CMD is accepted when idle, dropped with OVR set when busy; CMD
reads the last accepted word. `engCfgRegs` and `engView` are the model's own (log 5, log 14). -/
def Obligations.CmdWriteIsAcceptedOrDropped : Prop :=
  ∀ (s : State) (c : Word) (rest : List Event),
    s.inputs = .host (.writeReg .word 0x018#32 c) :: rest →
      (s.phase = .idle →
        ∃ t, step s = .next t ∧ readReg t .word 0x018#32 = c ∧
          t = { s with
                inputs := rest
                cmd := c
                engCmd := c
                engArg := s.arg
                engCfgRegs := s.cfgRegs
                engView := none
                res := Bank.zero
                code := .ok
                done := false
                err := false
                phase := .busy }) ∧
      (s.phase = .busy →
        ∃ t, step s = .next t ∧ readReg t .word 0x018#32 = s.cmd ∧
          t = { s with inputs := rest, ovr := true })

/-- 60_exceptions.md R350, R352: every command ends in one completion, which sets CODE, ERR, DONE and
BUSY together; OVR stays, and CFG_OK and SEL_TIER change only by INIT. -/
def Obligations.EveryCommandCompletes : Prop :=
  ∀ (i : Instr) (s : State), ∃ t, exec i s = .next t ∧
    t.phase = .idle ∧ t.done = true ∧ t.err = decide (t.code ≠ .ok) ∧ t.ovr = s.ovr ∧
    (i ≠ .init → t.cfgOk = s.cfgOk ∧ t.selTier = s.selTier)

/-- The frame of every command (10_state.md R41, R50, R53; 40_quantizer.md to 45_encoder.md): what no
command writes, what only INIT writes, what only MSG_ENC writes. -/
def Obligations.CommandsLeaveTheOtherRegisters : Prop :=
  ∀ (i : Instr) (s t : State), exec i s = .next t →
    t.params = s.params ∧ t.irqEn = s.irqEn ∧ t.ovr = s.ovr ∧ t.cmd = s.cmd ∧ t.arg = s.arg ∧
    t.cfgRegs = s.cfgRegs ∧ t.engCmd = s.engCmd ∧ t.engArg = s.engArg ∧
    t.engCfgRegs = s.engCfgRegs ∧ t.inputs = s.inputs ∧ t.readData = s.readData ∧
    t.freeCtr = s.freeCtr ∧
    (i ≠ .init → t.cfg = s.cfg ∧ t.cfgOk = s.cfgOk ∧ t.selTier = s.selTier) ∧
    ((∀ w m, i ≠ .msgEnc w m) → t.secId = s.secId)

/-- 20_memory.md R90: no command changes an address outside its output regions, of either memory. -/
def Obligations.CommandsWriteOnlyTheirOutputRegions : Prop :=
  ∀ (i : Instr) (s t : State) (a : Nat), exec i s = .next t →
    ((∀ r ∈ (commandRegions i s).outs, r.mem = .b → a < r.base ∨ r.base + r.len ≤ a) →
      Memory.read t.bmem a = Memory.read s.bmem a) ∧
    ((∀ r ∈ (commandRegions i s).outs, r.mem = .w → a < r.base ∨ r.base + r.len ≤ a) →
      Memory.read t.wmem a = Memory.read s.wmem a)

/-- 60_exceptions.md R355: every code but OK and OUT_OF_BUFFERS leaves BMEM, WMEM and SECID. -/
def Obligations.FailedCommandLeavesMemoriesAndSecId : Prop :=
  ∀ (i : Instr) (s t : State), exec i s = .next t → t.code ≠ .ok → t.code ≠ .outOfBuffers →
    t.bmem = s.bmem ∧ t.wmem = s.wmem ∧ t.secId = s.secId

/-- The operand regions of each data command, as its rule names them, and 60_exceptions.md R351, checks 1
to 4 in their order, for a data command: an illegal field, no configuration, a region out of range, a forbidden overlap, of an input with an output or of two outputs
(20_memory.md R88, 44_decoder.md R271). Each ends the command with its code and changes nothing but the
flags. That `exec` itself checks the fields is the model's choice (log 17). -/
def Obligations.DataCommandChecksComeInOrder : Prop :=
  ∀ (i : Instr) (s : State), i ≠ .nop → i ≠ .init →
    let stop := fun (c : Code) => exec i s = .next
      { s with code := c, err := true, done := true, phase := .idle, engView := none }
    let rs := commandRegions i s
    let a := s.engArg
    let bytes := fun (base : Word) (n : Nat) => (⟨.b, base.toNat, n⟩ : Region)
    let words := fun (base : Word) (n : Nat) => (⟨.w, base.toNat, n⟩ : Region)
    rs = (match i with
      | .nop | .init | .prbSize _ _ => ⟨[], [], false⟩
      | .quant | .dequant _ => ⟨[words a.r0 a.r2.toNat], [words a.r1 a.r2.toNat], true⟩
      | .pack _ => ⟨[words a.r0 a.r2.toNat], [bytes a.r1 a.r3.toNat], false⟩
      | .unpack _ => ⟨[bytes a.r0 a.r3.toNat], [words a.r1 a.r2.toNat], false⟩
      | .bfpx _ => ⟨[words a.r0 (24 * a.r2.toNat)], [words a.r1 a.r2.toNat], false⟩
      | .bfpcI _ | .bfpcF _ => ⟨[words a.r0 (24 * a.r2.toNat)], [bytes a.r1 a.r3.toNat], false⟩
      | .bfpdF _ => ⟨[bytes a.r0 a.r3.toNat], [words a.r1 (24 * a.r2.toNat)], false⟩
      | .bfpdRaw _ => ⟨[bytes a.r0 a.r3.toNat], [words a.r1 (25 * a.r2.toNat)], false⟩
      | .msgDec => ⟨[bytes a.r0 a.r1.toNat],
          [words a.r2 (8 * s.cfg.maxSec.toNat), words a.r3 a.r4.toNat], false⟩
      | .msgEnc _ _ => ⟨[words a.r0 (24 * s.cfg.nofPrb.toNat)],
          [bytes a.r1 (a.r3.toNat * a.r2.toNat), words a.r5 a.r3.toNat], false⟩) ∧
    (i.wf = false → stop .illegalCommand) ∧
    (i.wf = true → s.cfgOk = false → stop .notConfigured) ∧
    (i.wf = true → s.cfgOk = true →
      (∃ r ∈ rs.ins ++ rs.outs, ¬ InRange (Params.sizeOf s.params r.mem) r.base r.len) →
        stop .addressError) ∧
    (i.wf = true → s.cfgOk = true →
      (∀ r ∈ rs.ins ++ rs.outs, InRange (Params.sizeOf s.params r.mem) r.base r.len) →
      ((∃ a ∈ rs.ins, ∃ b ∈ rs.outs, a.mem = b.mem ∧ ¬ Apart a.base a.len b.base b.len ∧
          ¬ (rs.inPlace = true ∧ a = b)) ∨
        ¬ rs.outs.Pairwise (fun a b => a.mem = b.mem → Apart a.base a.len b.base b.len)) →
        stop .contractViolation)

/-- 10_state.md R42, R51, 20_memory.md R99: a write to an argument register, a configuration register
or CMD while a command runs does not change what the command does. -/
def Obligations.RegisterWritesDoNotReachTheRunningCommand : Prop :=
  ∀ (i : Instr) (s t : State) (a : Bank) (r : CfgRegs) (c : Word), exec i s = .next t →
    exec i { s with arg := a, cfgRegs := r, cmd := c } =
      .next { t with arg := a, cfgRegs := r, cmd := c }

/-- 42_bfp.md R236, 43_control.md R255: the tier of the active configuration is no input of a data
command. -/
def Obligations.TierChangesNoResult : Prop :=
  ∀ (i : Instr) (s t : State) (u : Tier), i ≠ .init → exec i s = .next t →
    exec i { s with cfg := { s.cfg with tier := u } } =
      .next { t with cfg := { t.cfg with tier := u } }

/-! ### The whole machine -/

/-- The invariant holds after reset. The reset memories and the fields of CFG are the model's choices
(log 3, log 4), as is the instance (log 1). -/
def Obligations.ResetMeetsTheInvariant : Prop := Inv State.reset

/-- Every step keeps the invariant: the memories stay in canonical form and inside their sizes, the
active configuration stays legal while CFG_OK = 1, the status flags agree with the engine. -/
def Obligations.StepKeepsTheInvariant : Prop :=
  ∀ s t : State, Inv s → step s = .next t → Inv t

/-- No step is refused, and only a host access to an address that does not exist faults (the model's
choice, log 12). -/
def Obligations.StepStopsOnlyOnAMissingAddress : Prop :=
  ∀ s : State,
    (∃ t, step s = .next t) ∨
    (∃ a rest, (s.inputs = .host (.readByte a) :: rest ∨
        ∃ v, s.inputs = .host (.writeByte a v) :: rest) ∧
      s.params.bmemSize ≤ a.toNat ∧ step s = .fault (.hostAddress .b a)) ∨
    (∃ a rest, (s.inputs = .host (.readWord a) :: rest ∨
        ∃ v, s.inputs = .host (.writeWord a v) :: rest) ∧
      s.params.wmemSize ≤ a.toNat ∧ step s = .fault (.hostAddress .w a))

/-- 43_control.md R252, 10_state.md R53: only a successful INIT or a reset changes the active
configuration, and only a successful INIT sets CFG_OK. -/
def Obligations.OnlyInitAndResetChangeTheConfiguration : Prop :=
  ∀ s t : State, step s = .next t → (t.cfg ≠ s.cfg ∨ (t.cfgOk = true ∧ s.cfgOk = false)) →
    (s.phase = .busy ∧ decode s.engCmd = .ok .init ∧ t.cfgOk = true ∧ t.code = .ok) ∨
    (t.cfgOk = false ∧ t.phase = .idle ∧ t.secId = 0#12 ∧
      ((∃ rest, s.inputs = .hardReset :: rest) ∨
        ∃ v rest, s.inputs = .host (.writeReg .word 0x010#32 v) :: rest ∧ v.getLsbD 1 = true))

/-- 60_exceptions.md R356, R357: the interrupt is a level. It rises at a completion exactly when it is
enabled; writing IRQ_EN later raises it at once; writing 1 to DONE and the next acceptance clear it. -/
def Obligations.InterruptFollowsEnableAndDone : Prop :=
  (∀ (i : Instr) (s t : State), exec i s = .next t → irq t = s.irqEn) ∧
  (∀ (s : State) (v : Word), v.getLsbD 1 = false →
    irq (writeReg .word 0x010#32 v s) = (v.getLsbD 0 && s.done)) ∧
  (∀ (s : State) (v : Word), v.getLsbD 1 = true → irq (writeReg .word 0x014#32 v s) = false) ∧
  (∀ (s : State) (c : Word), s.phase = .idle → irq (writeReg .word 0x018#32 c s) = false)

/-! ### Host registers -/

/-- 10_state.md R34 to R37: the identification and capability registers. -/
def Obligations.IdentificationRegistersReadTheInstance : Prop :=
  ∀ s : State,
    readReg s .word 0x000#32 = 0x42465007#32 ∧
    (let c := readReg s .word 0x004#32
     c.getLsbD 0 = true ∧ c.getLsbD 1 = s.params.hwTier1 ∧ c.getLsbD 2 = s.params.hwTier2 ∧
     c.extractLsb' 8 2 = (match s.params.floatFmt with | .bf16 => 0#2 | .fp16 => 1#2) ∧
     c.getLsbD 10 = (match s.params.expRule with | .signed => false | .magnitude => true)) ∧
    (readReg s .word 0x008#32).toNat + 1 = s.params.bmemSize ∧
    (readReg s .word 0x00C#32).toNat + 1 = s.params.wmemSize

/-- 10_state.md R33: narrow, misaligned and unmapped accesses read 0 and write nothing, writes to
read-only registers are ignored, reads have no side effect, and unnamed bits read 0 and ignore writes
(the last clause lists each writable register's offset with the number of its named bits; CTRL bit 1 is
an action, so CTRL stands apart). That a host access is one step, with the effect of `readReg` or
`writeReg` and no other, rests on the model's own list of inputs and read data (log 6, log 8). -/
def Obligations.UnsupportedRegisterAccessesDoNothing : Prop :=
  (∀ (s : State) (width : AccessWidth) (offset v : Word),
    (width ≠ .word ∨ offset.toNat % 4 ≠ 0 ∨ offset.toNat = 0x01C ∨
      (0x060 ≤ offset.toNat ∧ offset.toNat < 0x080) ∨ 0x09C ≤ offset.toNat) →
      readReg s width offset = 0#32 ∧ writeReg width offset v s = s) ∧
  (∀ (s : State) (offset v : Word),
    (offset.toNat < 0x010 ∨ (0x040 ≤ offset.toNat ∧ offset.toNat < 0x060)) →
      writeReg .word offset v s = s) ∧
  (∀ (s : State) (width : AccessWidth) (offset : Word) (rest : List Event),
    s.inputs = .host (.readReg width offset) :: rest →
      step s = .next { s with inputs := rest, readData := readReg s width offset }) ∧
  (∀ (s : State) (width : AccessWidth) (offset v : Word) (rest : List Event),
    s.inputs = .host (.writeReg width offset v) :: rest →
      step s = .next (writeReg width offset v { s with inputs := rest })) ∧
  (∀ (s : State) (v : Word), ∀ p ∈ [(0x080, 10), (0x084, 19), (0x088, 11), (0x08C, 16), (0x094, 3),
      (0x098, 12)],
    (readReg s .word (BitVec.ofNat 32 p.1)).toNat < 2 ^ p.2 ∧
      writeReg .word (BitVec.ofNat 32 p.1) v s =
        writeReg .word (BitVec.ofNat 32 p.1) (BitVec.ofNat 32 (v.toNat % 2 ^ p.2)) s) ∧
  (∀ (s : State) (v : Word), readReg s .word 0x010#32 = (BitVec.ofBool s.irqEn).setWidth 32 ∧
    writeReg .word 0x010#32 v s = writeReg .word 0x010#32 (v &&& 0x3#32) s) ∧
  (∀ s : State, readReg s .word 0x014#32 &&& 0xFFFC00E0#32 = 0#32 ∧
    readReg s .word 0x004#32 &&& 0xFFFFF8F8#32 = 0#32) ∧
  (∀ (s : State) (v : Word), writeReg .word 0x014#32 v s = writeReg .word 0x014#32 (v &&& 0x16#32) s)

/-- 10_state.md R42, R51: an argument or configuration register reads back what was written to its
named bits, busy or idle, legal or not; the other argument registers, the other configuration registers
and all else are unchanged. R32, R43: which register each offset of ARG, RES and the configuration
reads. -/
def Obligations.WritableRegistersReadBack : Prop :=
  ∀ (s : State) (v : Word),
    let fields := [(0x080, 10), (0x084, 19), (0x088, 11), (0x08C, 16), (0x090, 32), (0x094, 3)]
    (let reads := fun (offset : Word) (x : Nat) => (readReg s .word offset).toNat = x
     (reads 0x020 s.arg.r0.toNat ∧ reads 0x024 s.arg.r1.toNat ∧ reads 0x028 s.arg.r2.toNat ∧
      reads 0x02C s.arg.r3.toNat ∧ reads 0x030 s.arg.r4.toNat ∧ reads 0x034 s.arg.r5.toNat ∧
      reads 0x038 s.arg.r6.toNat ∧ reads 0x03C s.arg.r7.toNat) ∧
     (reads 0x040 s.res.r0.toNat ∧ reads 0x044 s.res.r1.toNat ∧ reads 0x048 s.res.r2.toNat ∧
      reads 0x04C s.res.r3.toNat ∧ reads 0x050 s.res.r4.toNat ∧ reads 0x054 s.res.r5.toNat ∧
      reads 0x058 s.res.r6.toNat ∧ reads 0x05C s.res.r7.toNat) ∧
     (reads 0x080 s.cfgRegs.comp.toNat ∧ reads 0x084 s.cfgRegs.hdr.toNat ∧
      reads 0x088 s.cfgRegs.prb.toNat ∧ reads 0x08C s.cfgRegs.maxsec.toNat ∧
      reads 0x090 s.cfgRegs.scale.toNat ∧ reads 0x094 s.cfgRegs.strat.toNat)) ∧
    (∀ k : Fin 8,
      let t := writeReg .word (BitVec.ofNat 32 (0x020 + 4 * k.val)) v s
      t = { s with arg := t.arg } ∧
      ∀ j : Fin 8, readReg t .word (BitVec.ofNat 32 (0x020 + 4 * j.val)) =
        if j = k then v else readReg s .word (BitVec.ofNat 32 (0x020 + 4 * j.val))) ∧
    (∀ p ∈ fields,
      let t := writeReg .word (BitVec.ofNat 32 p.1) v s
      t = { s with cfgRegs := t.cfgRegs } ∧
      ∀ q ∈ fields, readReg t .word (BitVec.ofNat 32 q.1) =
        if q = p then BitVec.ofNat 32 (v.toNat % 2 ^ p.2) else readReg s .word (BitVec.ofNat 32 q.1))

/-- 10_state.md R39, R40, 30_encoding.md R115, 43_control.md R253: STATUS as the host reads it, field by
field, with the value of each status code and of each tier; a host write clears each of DONE, ERR and
OVR whose bit is 1 in the written value and leaves every other field. -/
def Obligations.StatusReadsItsFieldsAndClearsByOnes : Prop :=
  (∀ p ∈ [(Code.ok, 0x00#8), (.incomplete, 0x01#8), (.malformed, 0x02#8), (.rejectedSemantic, 0x03#8),
      (.noValidSection, 0x04#8), (.unsupportedMethod, 0x05#8), (.fragmentTooSmall, 0x08#8),
      (.outOfBuffers, 0x09#8), (.configError, 0x10#8), (.contractViolation, 0x11#8),
      (.addressError, 0x12#8), (.illegalCommand, 0x13#8), (.notConfigured, 0x14#8)],
    ∀ s : State, s.code = p.1 → (readReg s .word 0x014#32).extractLsb' 8 8 = p.2) ∧
  (∀ p ∈ [(Tier.baseline, 0#2), (.tier1, 1#2), (.tier2, 2#2)],
    ∀ s : State, s.selTier = p.1 → (readReg s .word 0x014#32).extractLsb' 16 2 = p.2) ∧
  ∀ (s : State) (v : Word),
    let r := readReg s .word 0x014#32
    r.getLsbD 0 = decide (s.phase = .busy) ∧ r.getLsbD 1 = s.done ∧ r.getLsbD 2 = s.err ∧
    r.getLsbD 3 = s.cfgOk ∧ r.getLsbD 4 = s.ovr ∧
    writeReg .word 0x014#32 v s =
      { s with
        done := s.done && !v.getLsbD 1
        err := s.err && !v.getLsbD 2
        ovr := s.ovr && !v.getLsbD 4 }

/-- 10_state.md R32, R50: SECID reads its 12 bits, stores those a host writes while idle and ignores a
write while busy. -/
def Obligations.SecIdIsWritableOnlyWhileIdle : Prop :=
  ∀ (s : State) (v : Word),
    (readReg s .word 0x098#32).toNat = s.secId.toNat ∧
    (s.phase = .idle → writeReg .word 0x098#32 v s = { s with secId := BitVec.ofNat 12 v.toNat }) ∧
    (s.phase = .busy → writeReg .word 0x098#32 v s = s)

/-- 10_state.md R38: CTRL bit 0 is written and read, and enables the interrupt; a write with bit 1 = 1
is a soft reset; bit 1 reads 0. -/
def Obligations.CtrlWriteEnablesOrResets : Prop :=
  ∀ (s : State) (v : Word),
    (v.getLsbD 1 = false → writeReg .word 0x010#32 v s = { s with irqEn := v.getLsbD 0 }) ∧
    (v.getLsbD 1 = true → writeReg .word 0x010#32 v s = softReset s) ∧
    (readReg s .word 0x010#32).getLsbD 1 = false ∧
    (readReg s .word 0x010#32).getLsbD 0 = s.irqEn ∧ (s.irqEn = false → irq s = false) ∧
    (s.irqEn = true → irq s = s.done)

/-- 70_reset_and_hazards.md R380, R381: the registers after either reset and in the machine right after
reset, with the spec's values; a soft reset leaves memory but for the output regions of an aborted
command, whose extent while CFG_OK = 0 is the model's choice (log 10). -/
def Obligations.ResetsLeaveResetRegistersAndMemories : Prop :=
  ∀ s : State,
    (∀ t ∈ [softReset s, hardReset s, State.reset],
      readReg t .word 0x010#32 = 0#32 ∧ readReg t .word 0x014#32 = 0#32 ∧
      readReg t .word 0x018#32 = 0#32 ∧
      (∀ k : Fin 8, readReg t .word (BitVec.ofNat 32 (0x020 + 4 * k.val)) = 0#32 ∧
        readReg t .word (BitVec.ofNat 32 (0x040 + 4 * k.val)) = 0#32) ∧
      readReg t .word 0x080#32 = 0x00000091#32 ∧ readReg t .word 0x084#32 = 0x0000E205#32 ∧
      readReg t .word 0x088#32 = 0x00000111#32 ∧ readReg t .word 0x08C#32 = 0x00000010#32 ∧
      readReg t .word 0x090#32 = 0x3F800000#32 ∧ readReg t .word 0x094#32 = 0#32 ∧
      readReg t .word 0x098#32 = 0#32 ∧ t.phase = .idle ∧ irq t = false) ∧
    (softReset s).params = s.params ∧ (hardReset s).params = s.params ∧
    (∀ rest, s.inputs = .hardReset :: rest → step s = .next (hardReset { s with inputs := rest })) ∧
    (s.phase = .idle → (softReset s).bmem = s.bmem ∧ (softReset s).wmem = s.wmem) ∧
    (∀ a, (∀ r ∈ (runningRegions s).outs, r.mem = .b → a < r.base ∨ r.base + r.len ≤ a) →
      Memory.read (softReset s).bmem a = Memory.read s.bmem a) ∧
    (∀ a, (∀ r ∈ (runningRegions s).outs, r.mem = .w → a < r.base ∨ r.base + r.len ≤ a) →
      Memory.read (softReset s).wmem a = Memory.read s.wmem a)

/-! ### Host accesses to the memories -/

/-- 20_memory.md R83, R95: while the block is idle, and while it is busy outside the running command's
regions, the host reads what the memory holds and writes it; a read changes nothing but the data the host
gets. The running command's regions are those of the checks (R351) where the block is configured; those
of a command that runs while CFG_OK = 0, and none for an illegal word, are the model's choice (log
10). -/
def Obligations.HostReachesMemoryOutsideOwnedRegions : Prop :=
  ∀ (s : State) (a : Word) (rest : List Event),
    let free := fun (m : MemId) => s.phase = .idle ∨
      ∀ r ∈ (runningRegions s).ins ++ (runningRegions s).outs, r.mem = m →
        a.toNat < r.base ∨ r.base + r.len ≤ a.toNat
    (∀ i, decode s.engCmd = .ok i → s.cfgOk = true → runningRegions s = commandRegions i s) ∧
    (free .b → a.toNat < s.params.bmemSize →
      (s.inputs = .host (.readByte a) :: rest →
        step s = .next { s with inputs := rest, readData := (Memory.read s.bmem a.toNat).setWidth 32 }) ∧
      (∀ v, s.inputs = .host (.writeByte a v) :: rest →
        step s = .next { s with inputs := rest, bmem := Memory.write s.bmem a.toNat v } ∧
          (Memory.wf s.bmem → ∀ b, Memory.read (Memory.write s.bmem a.toNat v) b =
            if b = a.toNat then v else Memory.read s.bmem b))) ∧
    (free .w → a.toNat < s.params.wmemSize →
      (s.inputs = .host (.readWord a) :: rest →
        step s = .next { s with inputs := rest, readData := (Memory.read s.wmem a.toNat).setWidth 32 }) ∧
      (∀ v, s.inputs = .host (.writeWord a v) :: rest →
        step s = .next { s with inputs := rest, wmem := Memory.write s.wmem a.toNat v } ∧
          (Memory.wf s.wmem → ∀ b, Memory.read (Memory.write s.wmem a.toNat v) b =
            if b = a.toNat then v else Memory.read s.wmem b)))

/-- 20_memory.md R94, R95: what host accesses to owned addresses do. On its turn a command into whose
regions the host has written completes with the status, the result registers, the configuration and the
SECID that the memories at acceptance give; outside its output regions the memories are as the host left
them. A host write to an owned address writes that one byte or word, and the memories at acceptance are
kept; a host read of one gives some value. Keeping those memories is the model's choice (log 14), as are
the counter of free values (log 9) and the list of inputs (log 6). -/
def Obligations.HostWriteIntoOwnedRegionFreesOnlyOutputs : Prop :=
  (∀ (s u : State) (v : View) (i : Instr), s.phase = .busy → s.engView = some v →
    (s.inputs = [] ∨ ∃ rest, s.inputs = .engine :: rest) → decode s.engCmd = .ok i →
      exec i { s with inputs := s.inputs.tail, bmem := v.bmem, wmem := v.wmem } = .next u →
      ∃ t, step s = .next t ∧
        t = { u with bmem := t.bmem, wmem := t.wmem, freeCtr := t.freeCtr } ∧
        (∀ a, (∀ r ∈ (runningRegions s).outs, r.mem = .b → a < r.base ∨ r.base + r.len ≤ a) →
          Memory.read t.bmem a = Memory.read s.bmem a) ∧
        (∀ a, (∀ r ∈ (runningRegions s).outs, r.mem = .w → a < r.base ∨ r.base + r.len ≤ a) →
          Memory.read t.wmem a = Memory.read s.wmem a)) ∧
  (∀ (s : State) (a : Word) (rest : List Event),
    let kept : View := s.engView.getD { bmem := s.bmem, wmem := s.wmem }
    let owned := fun (m : MemId) => s.phase = .busy ∧
      ∃ r ∈ (runningRegions s).ins ++ (runningRegions s).outs,
        r.mem = m ∧ r.base ≤ a.toNat ∧ a.toNat < r.base + r.len
    (owned .b → a.toNat < s.params.bmemSize →
      (∀ v, s.inputs = .host (.writeByte a v) :: rest → ∃ m : Memory 8,
        step s = .next { s with inputs := rest, bmem := m, engView := some kept } ∧
        (Memory.wf s.bmem → ∀ b, Memory.read m b = if b = a.toNat then v else Memory.read s.bmem b)) ∧
      (s.inputs = .host (.readByte a) :: rest → ∃ d : Byte,
        step s = .next
          { s with inputs := rest, readData := d.setWidth 32, freeCtr := s.freeCtr + 1 })) ∧
    (owned .w → a.toNat < s.params.wmemSize →
      (∀ v, s.inputs = .host (.writeWord a v) :: rest → ∃ m : Memory 16,
        step s = .next { s with inputs := rest, wmem := m, engView := some kept } ∧
        (Memory.wf s.wmem → ∀ b, Memory.read m b = if b = a.toNat then v else Memory.read s.wmem b)) ∧
      (s.inputs = .host (.readWord a) :: rest → ∃ d : Sample,
        step s = .next
          { s with inputs := rest, readData := d.setWidth 32, freeCtr := s.freeCtr + 1 })))

/-! ### Control -/

/-- 43_control.md R250: NOP completes OK, needs no configuration and touches no memory. -/
def Obligations.NopCompletesAndTouchesNothing : Prop :=
  ∀ s : State, exec .nop s = .next
    { s with code := .ok, err := false, done := true, phase := .idle, engView := none }

/-- 43_control.md R251 to R253: INIT with a legal configuration latches it and selects the tier. That
it reads the registers as they stood at acceptance, `engCfgRegs`, is DEDUCED (log 5). -/
def Obligations.InitLatchesALegalConfiguration : Prop :=
  ∀ (s : State) (t : Tier),
    let r := s.engCfgRegs
    r.comp.toNat % 16 < 7 → 1 ≤ r.comp.toNat / 16 % 32 → r.comp.toNat / 16 % 32 ≤ 16 →
    r.hdr.toNat / 32 % 16 ≠ 15 → r.hdr.toNat / 512 % 8 < 7 →
    1 ≤ r.hdr.toNat / 4096 → r.hdr.toNat / 4096 ≤ 64 →
    1 ≤ r.prb.toNat → r.prb.toNat ≤ 1024 → r.maxsec.toNat ≠ 0 →
    r.scale.toNat / 8388608 % 256 ≠ 255 →
    ((r.strat.toNat = 0 ∧ t = (if s.params.hwTier2 then .tier2
        else if s.params.hwTier1 then .tier1 else .baseline)) ∨
      (r.strat.toNat = 1 ∧ t = .baseline) ∨
      (r.strat.toNat = 2 ∧ s.params.hwTier1 = true ∧ t = .tier1) ∨
      (r.strat.toNat = 3 ∧ s.params.hwTier2 = true ∧ t = .tier2)) →
    exec .init s = .next
      { s with
        cfg :=
          { method := BitVec.ofNat 4 (r.comp.toNat % 16)
            bw := BitVec.ofNat 5 (r.comp.toNat / 16 % 32)
            dyn := r.comp.getLsbD 9
            decDir := r.hdr.getLsbD 0
            encDir := r.hdr.getLsbD 1
            version := BitVec.ofNat 3 (r.hdr.toNat / 4 % 8)
            encFilter := BitVec.ofNat 4 (r.hdr.toNat / 32 % 16)
            mu := BitVec.ofNat 3 (r.hdr.toNat / 512 % 8)
            syms := BitVec.ofNat 7 (r.hdr.toNat / 4096)
            nofPrb := r.prb
            maxSec := r.maxsec
            scale := r.scale
            tier := t }
        cfgOk := true
        selTier := t
        res := { s.res with r0 := 0#32, r1 := (Tier.bits t).setWidth 32 }
        code := .ok
        err := false
        done := true
        phase := .idle
        engView := none }

/-- 43_control.md R251, R254: a failing check gives CONFIG_ERROR with one bit of RES0 for each failing
check, clears CFG_OK and SEL_TIER, and leaves CFG; `engCfgRegs` as above (log 5). -/
def Obligations.InitReportsEveryFailingCheck : Prop :=
  ∀ s : State,
    let r := s.engCfgRegs
    let f0 : Bool := decide (7 ≤ r.comp.toNat % 16)
    let f1 : Bool := decide (r.comp.toNat / 16 % 32 = 0 ∨ 16 < r.comp.toNat / 16 % 32)
    let f2 : Bool := decide (r.hdr.toNat / 32 % 16 = 15)
    let f3 : Bool := decide (7 ≤ r.hdr.toNat / 512 % 8)
    let f4 : Bool := decide (r.hdr.toNat / 4096 = 0 ∨ 64 < r.hdr.toNat / 4096)
    let f5 : Bool := decide (r.prb.toNat = 0 ∨ 1024 < r.prb.toNat)
    let f6 : Bool := decide (r.maxsec.toNat = 0)
    let f7 : Bool := decide (r.scale.toNat / 8388608 % 256 = 255)
    let f8 : Bool := decide (4 ≤ r.strat.toNat ∨ (r.strat.toNat = 2 ∧ s.params.hwTier1 = false) ∨
      (r.strat.toNat = 3 ∧ s.params.hwTier2 = false))
    (f0 || f1 || f2 || f3 || f4 || f5 || f6 || f7 || f8) = true →
    ∃ m : Word, exec .init s = .next
        { s with
          cfgOk := false
          selTier := .baseline
          res := { s.res with r0 := m }
          code := .configError
          err := true
          done := true
          phase := .idle
          engView := none } ∧
      m.getLsbD 0 = f0 ∧ m.getLsbD 1 = f1 ∧ m.getLsbD 2 = f2 ∧ m.getLsbD 3 = f3 ∧
      m.getLsbD 4 = f4 ∧ m.getLsbD 5 = f5 ∧ m.getLsbD 6 = f6 ∧ m.getLsbD 7 = f7 ∧
      m.getLsbD 8 = f8 ∧ m.toNat < 512

/-! ### Quantizer -/

/-- 40_quantizer.md R160, R161: what the bits of a sample of either format and of the binary32 scale
stand for, by exponent field, bias and fraction field. R165: `to_fixed` of every kind of input under a
finite scale. A finite product is clamped and then rounded to the nearest integer, a half away from
zero. -/
def Obligations.ToFixedClampsAndRounds : Prop :=
  (let standsFor := fun (x : FloatVal) (bits eb bias fb : Nat) =>
      let negative : Bool := decide (bits / 2 ^ (eb + fb) % 2 = 1)
      let sign : ℚ := if negative then -1 else 1
      let e := bits / 2 ^ fb % 2 ^ eb
      let f := bits % 2 ^ fb
      (e = 2 ^ eb - 1 → x = if f = 0 then .inf negative else .nan) ∧
      (e = 0 → ∃ n y, x = .finite n y ∧ realOf n y = sign * f * 2 ^ (1 - bias - fb : Int)) ∧
      (e ≠ 0 → e ≠ 2 ^ eb - 1 → ∃ n y, x = .finite n y ∧
        realOf n y = sign * (2 ^ fb + f) * 2 ^ (e - bias - fb : Int))
    ∀ (x : Sample) (c : Word), standsFor (fdecSample .bf16 x) x.toNat 8 127 7 ∧
      standsFor (fdecSample .fp16 x) x.toNat 5 15 10 ∧ standsFor (fdecScale c) c.toNat 8 127 23) ∧
  ∀ cn ce : Int,
    toFixed .nan (.finite cn ce) = 0 ∧
    (∀ negative, toFixed (.inf negative) (.finite cn ce) =
      if cn = 0 then 0 else if (negative = true ↔ cn < 0) then 32767 else -32768) ∧
    (∀ xn xe : Int,
      let y : ℚ := max (-32768) (min 32767 (realOf xn xe * realOf cn ce * 32767))
      let q : Int := toFixed (.finite xn xe) (.finite cn ce)
      q ≤ 32767 ∧ -32768 ≤ q ∧ abs ((q : ℚ) - y) ≤ 1 / 2 ∧
        (abs ((q : ℚ) - y) = 1 / 2 → abs y < abs (q : ℚ)))

/-- 40_quantizer.md R162, R166: `to_float` gives +0 for 0, keeps the sign, gives ±inf from halfway above
the greatest finite float on, and otherwise the nearest float of the format to the exact quotient, ties
to the even significand: in the binade of exponent p the distance is at most half of `2^(p − fb)`. -/
def Obligations.ToFloatIsTheNearestFloat : Prop :=
  ∀ (fmt : FloatFmt) (q : Int) (e : Nat),
    let fb : Nat := match fmt with | .bf16 => 7 | .fp16 => 10
    let bias : Nat := match fmt with | .bf16 => 127 | .fp16 => 15
    let real : ℚ := (q : ℚ) * 2 ^ e / 32767
    let top : ℚ := (2 - (2 : ℚ) ^ (-(fb : Int) - 1)) * 2 ^ bias
    let x : Sample := toFloat fmt q e
    (q = 0 → x = 0#16) ∧ x.getLsbD 15 = decide (q < 0) ∧
    (top ≤ abs real → fdecSample fmt x = .inf (decide (q < 0))) ∧
    (q ≠ 0 → abs real < top → ∀ p : Int, 1 - (bias : Int) ≤ p → abs real < (2 : ℚ) ^ (p + 1) →
      (p = 1 - (bias : Int) ∨ (2 : ℚ) ^ p ≤ abs real) →
      ∃ n y : Int, fdecSample fmt x = .finite n y ∧
        abs (realOf n y - real) ≤ (2 : ℚ) ^ (p - fb) / 2 ∧
        (abs (realOf n y - real) = (2 : ℚ) ^ (p - fb) / 2 → x.getLsbD 0 = false))

/-- 40_quantizer.md R167: QUANT, in place or between disjoint regions; N = 0 touches nothing. -/
def Obligations.QuantWritesFixedSamples : Prop :=
  ∀ s : State,
    let src := s.engArg.r0.toNat
    let dst := s.engArg.r1.toNat
    let n := s.engArg.r2.toNat
    s.cfgOk = true → Memory.wf s.wmem → InRange s.params.wmemSize src n →
    InRange s.params.wmemSize dst n → (src = dst ∨ Apart src n dst n) →
    ∃ m : Memory 16,
      exec .quant s = .next
        { s with
          wmem := m
          res := { s.res with r0 := s.engArg.r2 }
          code := .ok
          err := false
          done := true
          phase := .idle
          engView := none } ∧
      (∀ k, k < n → Memory.read m (dst + k) =
        tc16 (toFixed (fdecSample s.params.floatFmt (Memory.read s.wmem (src + k)))
          (fdecScale s.cfg.scale))) ∧
      (∀ a, a < dst ∨ dst + n ≤ a → Memory.read m a = Memory.read s.wmem a)

/-- 40_quantizer.md R168: DEQUANT, in place or between disjoint regions; N = 0 touches nothing. -/
def Obligations.DequantWritesFloatSamples : Prop :=
  ∀ (s : State) (e8 : BitVec 8),
    let src := s.engArg.r0.toNat
    let dst := s.engArg.r1.toNat
    let n := s.engArg.r2.toNat
    s.cfgOk = true → Memory.wf s.wmem → InRange s.params.wmemSize src n →
    InRange s.params.wmemSize dst n → (src = dst ∨ Apart src n dst n) →
    ∃ m : Memory 16,
      exec (.dequant e8) s = .next
        { s with
          wmem := m
          res := { s.res with r0 := s.engArg.r2 }
          code := .ok
          err := false
          done := true
          phase := .idle
          engView := none } ∧
      (∀ k, k < n → Memory.read m (dst + k) =
        toFloat s.params.floatFmt (Memory.read s.wmem (src + k)).toInt e8.toNat) ∧
      (∀ a, a < dst ∨ dst + n ≤ a → Memory.read m a = Memory.read s.wmem a)

/-! ### Bit packer -/

/-- 41_bitpack.md R191, R193: PACK of values that fit writes every stream bit where R191 puts it, pad
bits 0, and nothing else. -/
def Obligations.PackWritesTheBitStream : Prop :=
  ∀ (s : State) (w : BitVec 5),
    let src := s.engArg.r0.toNat
    let dst := s.engArg.r1.toNat
    let n := s.engArg.r2.toNat
    let cap := s.engArg.r3.toNat
    let nb := (n * w.toNat + 7) / 8
    1 ≤ w.toNat → w.toNat ≤ 16 → s.cfgOk = true → Memory.wf s.bmem →
    InRange s.params.wmemSize src n → InRange s.params.bmemSize dst cap → nb ≤ cap →
    (∀ k, k < n → -(2 : Int) ^ (w.toNat - 1) ≤ (Memory.read s.wmem (src + k)).toInt ∧
      (Memory.read s.wmem (src + k)).toInt ≤ (2 : Int) ^ (w.toNat - 1) - 1) →
    ∃ m : Memory 8,
      exec (.pack w) s = .next
        { s with
          bmem := m
          res := { s.res with r0 := BitVec.ofNat 32 nb }
          code := .ok
          err := false
          done := true
          phase := .idle
          engView := none } ∧
      (∀ k, k < n * w.toNat → streamBit m dst k =
        (Memory.read s.wmem (src + k / w.toNat)).getLsbD (w.toNat - 1 - k % w.toNat)) ∧
      (∀ k, n * w.toNat ≤ k → k < 8 * nb → streamBit m dst k = false) ∧
      (∀ a, a < dst ∨ dst + nb ≤ a → Memory.read m a = Memory.read s.bmem a)

/-- 41_bitpack.md R193: PACK reports a capacity that is too small and a value that does not fit, and
writes nothing. -/
def Obligations.PackReportsContractViolations : Prop :=
  ∀ (s : State) (w : BitVec 5),
    let src := s.engArg.r0.toNat
    let n := s.engArg.r2.toNat
    1 ≤ w.toNat → w.toNat ≤ 16 → s.cfgOk = true → InRange s.params.wmemSize src n →
    InRange s.params.bmemSize s.engArg.r1.toNat s.engArg.r3.toNat →
    (s.engArg.r3.toNat < (n * w.toNat + 7) / 8 ∨
      ∃ k, k < n ∧ ((Memory.read s.wmem (src + k)).toInt < -(2 : Int) ^ (w.toNat - 1) ∨
        (2 : Int) ^ (w.toNat - 1) - 1 < (Memory.read s.wmem (src + k)).toInt)) →
    exec (.pack w) s = .next
      { s with
        code := .contractViolation
        err := true
        done := true
        phase := .idle
        engView := none }

/-- 41_bitpack.md R192, R194: UNPACK writes every field sign-extended, and nothing else. -/
def Obligations.UnpackWritesSignExtendedFields : Prop :=
  ∀ (s : State) (w : BitVec 5),
    let src := s.engArg.r0.toNat
    let dst := s.engArg.r1.toNat
    let n := s.engArg.r2.toNat
    let nb := (n * w.toNat + 7) / 8
    1 ≤ w.toNat → w.toNat ≤ 16 → s.cfgOk = true → Memory.wf s.wmem →
    InRange s.params.bmemSize src s.engArg.r3.toNat → InRange s.params.wmemSize dst n →
    nb ≤ s.engArg.r3.toNat →
    ∃ m : Memory 16,
      exec (.unpack w) s = .next
        { s with
          wmem := m
          res := { s.res with r0 := BitVec.ofNat 32 nb }
          code := .ok
          err := false
          done := true
          phase := .idle
          engView := none } ∧
      (∀ i, i < n → IsField s.bmem src w.toNat i (Memory.read m (dst + i))) ∧
      (∀ a, a < dst ∨ dst + n ≤ a → Memory.read m a = Memory.read s.wmem a)

/-- 41_bitpack.md R195: unpacking what was packed, and packing what was unpacked from bytes whose pad
bits are 0. -/
def Obligations.PackAndUnpackAreInverse : Prop :=
  ∀ w : Nat, 1 ≤ w → w ≤ 16 →
    (∀ x : List Int, (∀ v ∈ x, fits v w = true) → unpackBits w x.length (packBits w x) = x) ∧
    (∀ (n : Nat) (b : List Byte), b.length = (n * w + 7) / 8 →
      (∀ k, n * w ≤ k → k < 8 * b.length → (b.getD (k / 8) 0#8).getLsbD (7 - k % 8) = false) →
      packBits w (unpackBits w n b) = b)

/-! ### BFP engine -/

/-- 42_bfp.md R212: the exponent is that of the instance's rule, and under both rules it is at most
16 − w and every shifted value fits w bits. -/
def Obligations.ExponentBoundsTheShiftedValues : Prop :=
  ∀ (rule : ExpRule) (x : List Int) (w : Nat), 1 ≤ w → w ≤ 16 →
    (∀ v ∈ x, -32768 ≤ v ∧ v ≤ 32767) →
    exponent rule x w =
        (match rule with | .signed => exponentSigned x w | .magnitude => exponentMagnitude x w) ∧
      exponent rule x w ≤ 16 - w ∧ ∀ v ∈ x, fits (asr v (exponent rule x w)) w = true

/-- 42_bfp.md R210, R241: the SIGNED exponent is the smallest that makes every value fit. R211: the
MAGNITUDE exponent is that of the number of binary digits, `b`, of the largest magnitude, `m`, capped at
16 − w; on int16 values it is the SIGNED one, but one larger where the largest magnitude is that of a
−2^k alone, w − 1 ≤ k. At k = 15 the cap takes that one away. -/
def Obligations.SignedExponentIsMinimal : Prop :=
  ∀ (x : List Int) (w : Nat), 1 ≤ w → w ≤ 16 →
    (∀ v ∈ x, fits (asr v (exponentSigned x w)) w = true) ∧
    (∀ e, e < exponentSigned x w → ∃ v ∈ x, fits (asr v e) w = false) ∧
    (∀ m b : Nat, (∀ v ∈ x, -(m : Int) ≤ v ∧ v ≤ m) → ((m : Int) ∈ x ∨ -(m : Int) ∈ x) →
      m < 2 ^ b → (b = 0 ∨ 2 ^ (b - 1) ≤ m) → exponentMagnitude x w = min (16 - w) (b - (w - 1))) ∧
    ((∀ v ∈ x, -32768 ≤ v ∧ v ≤ 32767) →
      ((∃ k, w - 1 ≤ k ∧ k < 15 ∧ -(2 : Int) ^ k ∈ x ∧ ∀ v ∈ x, -(2 : Int) ^ k ≤ v ∧ v < 2 ^ k) →
        exponentMagnitude x w = exponentSigned x w + 1) ∧
      ((¬ ∃ k, w - 1 ≤ k ∧ k < 15 ∧ -(2 : Int) ^ k ∈ x ∧ ∀ v ∈ x, -(2 : Int) ^ k ≤ v ∧ v < 2 ^ k) →
        exponentMagnitude x w = exponentSigned x w))

/-- 42_bfp.md R216: the loss of one compression: the integer reconstruction of a value is the value
without its low `e` bits, so less than `2^e` below it, and an int16 value. -/
def Obligations.ReconstructionLosesLessThanOneStep : Prop :=
  ∀ (rule : ExpRule) (x : List Int) (w : Nat), 1 ≤ w → w ≤ 16 → x.length = 24 →
    (∀ v ∈ x, -32768 ≤ v ∧ v ≤ 32767) →
    let e := rbExponent (compressRb rule x w)
    let m := rbMantissas (compressRb rule x w) w
    e = exponent rule x w ∧ m.length = 24 ∧
    ∀ k, k < 24 →
      let y := m.getD k 0 * 2 ^ e
      y = asr (x.getD k 0) e * 2 ^ e ∧ x.getD k 0 - 2 ^ e < y ∧ y ≤ x.getD k 0 ∧ -32768 ≤ y ∧ y ≤ 32767

/-- 42_bfp.md R239: under SIGNED the integer round trip is idempotent at every width; the second
compression gives the same bytes, but at width 1 a positive exponent of a block shifted to zeros
becomes 0. Under MAGNITUDE the round trip is not idempotent: the rule's example. -/
def Obligations.CompressionIsIdempotent : Prop :=
  (∀ (x : List Int) (w : Nat), 1 ≤ w → w ≤ 16 → x.length = 24 →
    (∀ v ∈ x, -32768 ≤ v ∧ v ≤ 32767) →
    let b := compressRb .signed x w
    let y := (rbMantissas b w).map (fun m => m * 2 ^ rbExponent b)
    let b' := compressRb .signed y w
    (rbMantissas b' w).map (fun m => m * 2 ^ rbExponent b') = y ∧
      b' = if w = 1 ∧ 0 < rbExponent b ∧ ∀ m ∈ rbMantissas b w, m = 0 then 0#8 :: b.tail else b) ∧
  compressRb .signed (1 :: List.replicate 23 0) 1 = [1, 0, 0, 0] ∧
  let b := compressRb .magnitude (-255 :: 3 :: List.replicate 22 0) 8
  let y := (rbMantissas b 8).map (fun m => m * 2 ^ rbExponent b)
  let b' := compressRb .magnitude y 8
  y.take 2 = [-256, 2] ∧ rbExponent b' = 2 ∧ (rbMantissas b' 8).take 2 = [-64, 0] ∧
    (rbMantissas b' 8).map (fun m => m * 2 ^ rbExponent b') ≠ y

/-- 42_bfp.md R218: BFPX writes one exponent word for each block. -/
def Obligations.BfpxWritesExponents : Prop :=
  ∀ (s : State) (w : BitVec 5),
    let src := s.engArg.r0.toNat
    let dst := s.engArg.r1.toNat
    let n := s.engArg.r2.toNat
    1 ≤ w.toNat → w.toNat ≤ 16 → s.cfgOk = true → Memory.wf s.wmem →
    InRange s.params.wmemSize src (24 * n) → InRange s.params.wmemSize dst n →
    Apart src (24 * n) dst n →
    ∃ m : Memory 16,
      exec (.bfpx w) s = .next
        { s with
          wmem := m
          res := { s.res with r0 := s.engArg.r2 }
          code := .ok
          err := false
          done := true
          phase := .idle
          engView := none } ∧
      (∀ r, r < n → (Memory.read m (dst + r)).toNat = exponent s.params.expRule
        ((List.range 24).map (fun i => (Memory.read s.wmem (src + 24 * r + i)).toInt)) w.toNat) ∧
      (∀ a, a < dst ∨ dst + n ≤ a → Memory.read m a = Memory.read s.wmem a)

/-- 42_bfp.md R213, R219: BFPC_I writes for each block its exponent byte and the 24 shifted values,
packed, and nothing else. -/
def Obligations.BfpcIWritesCompressedBlocks : Prop :=
  ∀ (s : State) (w : BitVec 5),
    let src := s.engArg.r0.toNat
    let dst := s.engArg.r1.toNat
    let n := s.engArg.r2.toNat
    let size := 1 + 3 * w.toNat
    let value := fun (r i : Nat) => Memory.read s.wmem (src + 24 * r + i)
    let exp := fun (r : Nat) =>
      exponent s.params.expRule ((List.range 24).map (fun i => (value r i).toInt)) w.toNat
    1 ≤ w.toNat → w.toNat ≤ 16 → s.cfgOk = true → Memory.wf s.bmem →
    InRange s.params.wmemSize src (24 * n) → InRange s.params.bmemSize dst s.engArg.r3.toNat →
    n * size ≤ s.engArg.r3.toNat →
    ∃ m : Memory 8,
      exec (.bfpcI w) s = .next
        { s with
          bmem := m
          res := { s.res with r0 := BitVec.ofNat 32 (n * size) }
          code := .ok
          err := false
          done := true
          phase := .idle
          engView := none } ∧
      (∀ r, r < n → (Memory.read m (dst + r * size)).toNat = exp r ∧
        ∀ k, k < 24 * w.toNat → streamBit m (dst + r * size + 1) k =
          ((value r (k / w.toNat)).sshiftRight (exp r)).getLsbD (w.toNat - 1 - k % w.toNat)) ∧
      (∀ a, a < dst ∨ dst + n * size ≤ a → Memory.read m a = Memory.read s.bmem a)

/-- 42_bfp.md R220: BFPC_F does the same with the quantized float samples; WMEM is not written. -/
def Obligations.BfpcFWritesCompressedBlocks : Prop :=
  ∀ (s : State) (w : BitVec 5),
    let src := s.engArg.r0.toNat
    let dst := s.engArg.r1.toNat
    let n := s.engArg.r2.toNat
    let size := 1 + 3 * w.toNat
    let value := fun (r i : Nat) =>
      tc16 (toFixed (fdecSample s.params.floatFmt (Memory.read s.wmem (src + 24 * r + i)))
        (fdecScale s.cfg.scale))
    let exp := fun (r : Nat) =>
      exponent s.params.expRule ((List.range 24).map (fun i => (value r i).toInt)) w.toNat
    1 ≤ w.toNat → w.toNat ≤ 16 → s.cfgOk = true → Memory.wf s.bmem →
    InRange s.params.wmemSize src (24 * n) → InRange s.params.bmemSize dst s.engArg.r3.toNat →
    n * size ≤ s.engArg.r3.toNat →
    ∃ m : Memory 8,
      exec (.bfpcF w) s = .next
        { s with
          bmem := m
          res := { s.res with r0 := BitVec.ofNat 32 (n * size) }
          code := .ok
          err := false
          done := true
          phase := .idle
          engView := none } ∧
      (∀ r, r < n → (Memory.read m (dst + r * size)).toNat = exp r ∧
        ∀ k, k < 24 * w.toNat → streamBit m (dst + r * size + 1) k =
          ((value r (k / w.toNat)).sshiftRight (exp r)).getLsbD (w.toNat - 1 - k % w.toNat)) ∧
      (∀ a, a < dst ∨ dst + n * size ≤ a → Memory.read m a = Memory.read s.bmem a)

/-- 42_bfp.md R214, R215, R221: BFPD_F writes for each mantissa its float sample under the whole
exponent byte, and nothing else. -/
def Obligations.BfpdFWritesFloatSamples : Prop :=
  ∀ (s : State) (w : BitVec 5),
    let src := s.engArg.r0.toNat
    let dst := s.engArg.r1.toNat
    let n := s.engArg.r2.toNat
    let size := 1 + 3 * w.toNat
    1 ≤ w.toNat → w.toNat ≤ 16 → s.cfgOk = true → Memory.wf s.wmem →
    InRange s.params.bmemSize src s.engArg.r3.toNat → InRange s.params.wmemSize dst (24 * n) →
    n * size ≤ s.engArg.r3.toNat →
    ∃ m : Memory 16,
      exec (.bfpdF w) s = .next
        { s with
          wmem := m
          res := { s.res with r0 := BitVec.ofNat 32 (n * size) }
          code := .ok
          err := false
          done := true
          phase := .idle
          engView := none } ∧
      (∀ r i (v : Sample), r < n → i < 24 → IsField s.bmem (src + r * size + 1) w.toNat i v →
        Memory.read m (dst + 24 * r + i) =
          toFloat s.params.floatFmt v.toInt (Memory.read s.bmem (src + r * size)).toNat) ∧
      (∀ a, a < dst ∨ dst + 24 * n ≤ a → Memory.read m a = Memory.read s.wmem a)

/-- 42_bfp.md R222, 30_encoding.md R142: BFPD_RAW writes for each block the exponent word and the 24
sign-extended mantissas, and nothing else. -/
def Obligations.BfpdRawWritesExponentAndMantissas : Prop :=
  ∀ (s : State) (w : BitVec 5),
    let src := s.engArg.r0.toNat
    let dst := s.engArg.r1.toNat
    let n := s.engArg.r2.toNat
    let size := 1 + 3 * w.toNat
    1 ≤ w.toNat → w.toNat ≤ 16 → s.cfgOk = true → Memory.wf s.wmem →
    InRange s.params.bmemSize src s.engArg.r3.toNat → InRange s.params.wmemSize dst (25 * n) →
    n * size ≤ s.engArg.r3.toNat →
    ∃ m : Memory 16,
      exec (.bfpdRaw w) s = .next
        { s with
          wmem := m
          res := { s.res with r0 := BitVec.ofNat 32 (n * size) }
          code := .ok
          err := false
          done := true
          phase := .idle
          engView := none } ∧
      (∀ r, r < n → Memory.read m (dst + 25 * r) =
          (Memory.read s.bmem (src + r * size)).setWidth 16 ∧
        ∀ i, i < 24 → IsField s.bmem (src + r * size + 1) w.toNat i
          (Memory.read m (dst + 25 * r + 1 + i))) ∧
      (∀ a, a < dst ∨ dst + 25 * n ≤ a → Memory.read m a = Memory.read s.wmem a)

/-- 42_bfp.md R219 to R222, 41_bitpack.md R194: a declared capacity or length that is too small is a
contract violation, and nothing is written. -/
def Obligations.ShortBuffersAreContractViolations : Prop :=
  ∀ (s : State) (w : BitVec 5),
    let stop := fun (i : Instr) => exec i s = .next
      { s with
        code := .contractViolation
        err := true
        done := true
        phase := .idle
        engView := none }
    let n := s.engArg.r2.toNat
    1 ≤ w.toNat → w.toNat ≤ 16 → s.cfgOk = true →
    (s.engArg.r3.toNat < (n * w.toNat + 7) / 8 →
      InRange s.params.bmemSize s.engArg.r0.toNat s.engArg.r3.toNat →
      InRange s.params.wmemSize s.engArg.r1.toNat n → stop (.unpack w)) ∧
    (s.engArg.r3.toNat < n * (1 + 3 * w.toNat) →
      (InRange s.params.wmemSize s.engArg.r0.toNat (24 * n) →
        InRange s.params.bmemSize s.engArg.r1.toNat s.engArg.r3.toNat →
        stop (.bfpcI w) ∧ stop (.bfpcF w)) ∧
      (InRange s.params.bmemSize s.engArg.r0.toNat s.engArg.r3.toNat →
        (InRange s.params.wmemSize s.engArg.r1.toNat (24 * n) → stop (.bfpdF w)) ∧
        (InRange s.params.wmemSize s.engArg.r1.toNat (25 * n) → stop (.bfpdRaw w))))

/-! ### Messages -/

/-- 30_encoding.md R126, R128: the fields of the message header and of the section header; building a
header is the inverse. R140: where RES1 holds each field of a message header. -/
def Obligations.HeadersParseAndBuildAreInverse : Prop :=
  (∀ b0 b1 b2 b3 : Byte,
    let h := parseHeader b0 b1 b2 b3
    h.direction = b0.getLsbD 7 ∧ h.version.toNat = b0.toNat / 16 % 8 ∧
    h.filter.toNat = b0.toNat % 16 ∧ h.frame = b1 ∧ h.subframe.toNat = b2.toNat / 16 ∧
    h.slot.toNat = 4 * (b2.toNat % 16) + b3.toNat / 64 ∧ h.symbol.toNat = b3.toNat % 64) ∧
  (∀ (c0 c1 c2 c3 : Byte) (nof : Nat),
    let h := parseSecHeader c0 c1 c2 c3
    h.sectionId.toNat = 16 * c0.toNat + c1.toNat / 16 ∧ h.rb = c1.getLsbD 3 ∧
    h.symInc = c1.getLsbD 2 ∧ h.startPrb.toNat = 256 * (c1.toNat % 4) + c2.toNat ∧
    h.nofPrb = c3 ∧ h.prbCount nof = (if c3.toNat = 0 then nof else c3.toNat) ∧
    h.firstPrb = if c3.toNat = 0 then 0 else 256 * (c1.toNat % 4) + c2.toNat) ∧
  (∀ b0 b1 b2 b3 : Byte, buildHeader (parseHeader b0 b1 b2 b3) = [b0, b1, b2, b3]) ∧
  (∀ h : MsgHeader, ∃ b0 b1 b2 b3, buildHeader h = [b0, b1, b2, b3] ∧ parseHeader b0 b1 b2 b3 = h) ∧
  (∀ c0 c1 c2 c3 : Byte, buildSecHeader (parseSecHeader c0 c1 c2 c3) = [c0, c1, c2, c3]) ∧
  (∀ h : SecHeader, ∃ c0 c1 c2 c3, buildSecHeader h = [c0, c1, c2, c3] ∧
    parseSecHeader c0 c1 c2 c3 = h) ∧
  parseHeader 0x91#8 0x05#8 0x34#8 0x81#8 =
    { direction := true, version := 1#3, filter := 1#4, frame := 5#8, subframe := 3#4,
      slot := 18#6, symbol := 1#6 } ∧
  (∀ h : MsgHeader,
    let r := headerWord h
    r.getLsbD 0 = h.direction ∧ r.extractLsb' 1 3 = h.version ∧ r.extractLsb' 4 4 = h.filter ∧
    r.extractLsb' 8 8 = h.frame ∧ r.extractLsb' 16 4 = h.subframe ∧ r.extractLsb' 20 6 = h.slot ∧
    r.extractLsb' 26 6 = h.symbol) ∧
  headerWord (parseHeader 0x91#8 0x05#8 0x34#8 0x81#8) = 0x05230513#32

/-- 44_decoder.md R299: PRB_SIZE reports the sizes and touches no memory. -/
def Obligations.PrbSizeReportsTheSizes : Prop :=
  ∀ (s : State) (w : BitVec 5) (meth : BitVec 4), 1 ≤ w.toNat → w.toNat ≤ 16 → meth.toNat < 7 →
    s.cfgOk = true →
    exec (.prbSize w meth) s = .next
      { s with
        res :=
          { s.res with
            r0 := BitVec.ofNat 32 (3 * w.toNat + if meth = 1#4 ∨ meth = 5#4 then 1 else 0)
            r1 := if meth = 1#4 ∨ meth = 5#4 then 1#32 else 0#32
            r2 := BitVec.ofNat 32 (4 + (if s.cfg.dyn = true then 2 else 0) +
              if meth = 5#4 ∨ meth = 6#4 then 2 else 0) }
        code := .ok
        err := false
        done := true
        phase := .idle
        engView := none }

/-- 44_decoder.md R273 to R275, R292: MSG_DEC of a message shorter than a header or with a header a
check rejects: the code, the offset in RES3, the header in RES1, and no write. -/
def Obligations.MsgDecRejectsBadHeaders : Prop :=
  ∀ s : State,
    let mb := s.engArg.r0.toNat
    let len := s.engArg.r1.toNat
    let h := parseHeader (Memory.read s.bmem mb) (Memory.read s.bmem (mb + 1))
      (Memory.read s.bmem (mb + 2)) (Memory.read s.bmem (mb + 3))
    let ends := fun (c : Code) (r1 r3 : Word) => exec .msgDec s = .next
      { s with
        res := { s.res with r1 := r1, r3 := r3 }
        code := c
        err := true
        done := true
        phase := .idle
        engView := none }
    s.cfgOk = true → InRange s.params.bmemSize mb len →
    InRange s.params.wmemSize s.engArg.r2.toNat (8 * s.cfg.maxSec.toNat) →
    InRange s.params.wmemSize s.engArg.r3.toNat s.engArg.r4.toNat →
    Apart s.engArg.r2.toNat (8 * s.cfg.maxSec.toNat) s.engArg.r3.toNat s.engArg.r4.toNat →
    (len < 4 → ends .malformed 0#32 0#32) ∧
    (4 ≤ len →
      (h.direction ≠ s.cfg.decDir ∨ h.version ≠ s.cfg.version ∨ h.filter = 15#4 →
        ends .malformed (headerWord h) 0#32) ∧
      (h.direction = s.cfg.decDir → h.version = s.cfg.version → h.filter ≠ 15#4 →
        (10 ≤ h.subframe.toNat ∨ 2 ^ s.cfg.mu.toNat ≤ h.slot.toNat →
          ends .rejectedSemantic (headerWord h) 2#32) ∧
        (h.subframe.toNat < 10 → h.slot.toNat < 2 ^ s.cfg.mu.toNat →
          s.cfg.syms.toNat ≤ h.symbol.toNat → ends .rejectedSemantic (headerWord h) 3#32)))

/-- 44_decoder.md R276 to R294: MSG_DEC of any message made of an acceptable header and of one or more
complete sections (methods 0 and 1, static or dynamic mode) that the sample area and the section bound
admit. It completes OK, and its results, descriptors and samples (`WireSection.WrittenIn`, the payload of
section j starting at `payload j`) are those of the rules. -/
def Obligations.MsgDecDecodesCompleteMessages : Prop :=
  ∀ (s : State) (h : MsgHeader) (xs : List WireSection),
    let mb := s.engArg.r0.toNat
    let dt := s.engArg.r2.toNat
    let sa := s.engArg.r3.toNat
    let cfg := s.cfg
    let bytes := buildHeader h ++ xs.flatMap (WireSection.bytes cfg.dyn)
    let total := samplesBefore cfg xs xs.length
    let payload := fun (j : Nat) => mb + 4 +
      ((xs.take j).flatMap (WireSection.bytes cfg.dyn)).length + 4 + if cfg.dyn = true then 2 else 0
    s.cfgOk = true → Memory.wf s.wmem →
    s.engArg.r1.toNat = bytes.length → Holds s.bmem mb bytes →
    InRange s.params.bmemSize mb bytes.length →
    InRange s.params.wmemSize dt (8 * cfg.maxSec.toNat) →
    InRange s.params.wmemSize sa s.engArg.r4.toNat →
    Apart dt (8 * cfg.maxSec.toNat) sa s.engArg.r4.toNat →
    h.direction = cfg.decDir → h.version = cfg.version → h.filter ≠ 15#4 → h.subframe.toNat < 10 →
    h.slot.toNat < 2 ^ cfg.mu.toNat → h.symbol.toNat < cfg.syms.toNat →
    xs ≠ [] → xs.length ≤ cfg.maxSec.toNat → (∀ x ∈ xs, x.Complete cfg) →
    total ≤ s.engArg.r4.toNat →
    ∃ m : Memory 16,
      exec .msgDec s = .next
        { s with
          wmem := m
          res :=
            { s.res with
              r0 := BitVec.ofNat 32 xs.length
              r1 := headerWord h
              r2 := BitVec.ofNat 32 total
              r3 := 0#32
              r4 := 0#32
              r5 := s.engArg.r1 }
          code := .ok
          err := false
          done := true
          phase := .idle
          engView := none } ∧
      (∀ j, ∀ hj : j < xs.length, xs[j].WrittenIn s m j (payload j) (samplesBefore cfg xs j)) ∧
      (∀ a, (a < dt ∨ dt + 8 * xs.length ≤ a) → (a < sa ∨ sa + total ≤ a) →
        Memory.read m a = Memory.read s.wmem a)

/-- 44_decoder.md R276 to R286, R290 to R293: MSG_DEC of an acceptable header, complete sections `xs`
that the sample area and the section bound admit, and then `tail`. Nothing at all after the header:
NO_VALID_SECTION. A section cut in its header, compression header, length field or
payload: INCOMPLETE if it is the first, else OK with the sections before it and TRUNC = 1. A reserved
method: MALFORMED at the compression header. A whole section of a method without a decompression
(UNSUPPORTED_METHOD), with more samples than are left (CONTRACT_VIOLATION), or past MAXSEC
(REJECTED_SEMANTIC), in this order, at the section's start. -/
def Obligations.MsgDecReportsEmptyAndCutMessages : Prop :=
  ∀ (s : State) (h : MsgHeader) (xs : List WireSection) (tail : List Byte),
    let mb := s.engArg.r0.toNat
    let dt := s.engArg.r2.toNat
    let sa := s.engArg.r3.toNat
    let cap := s.engArg.r4.toNat
    let cfg := s.cfg
    let bytes := buildHeader h ++ xs.flatMap (WireSection.bytes cfg.dyn) ++ tail
    let total := samplesBefore cfg xs xs.length
    let payload := fun (j : Nat) => mb + 4 +
      ((xs.take j).flatMap (WireSection.bytes cfg.dyn)).length + 4 + if cfg.dyn = true then 2 else 0
    let toff := bytes.length - tail.length
    let sec := parseSecHeader (tail.getD 0 0#8) (tail.getD 1 0#8) (tail.getD 2 0#8) (tail.getD 3 0#8)
    let n := if sec.nofPrb = 0#8 then cfg.nofPrb.toNat else sec.nofPrb.toNat
    let comp := (tail.getD 4 0#8).toNat
    let method := if cfg.dyn = true then comp % 16 else cfg.method.toNat
    let width := if cfg.dyn = false then cfg.bw.toNat else if comp / 16 = 0 then 16 else comp / 16
    let head := 4 + if cfg.dyn = true then 2 else 0
    let full := head + (if method = 5 ∨ method = 6 then 2 else 0) +
      n * (3 * width + if method = 1 ∨ method = 5 then 1 else 0)
    let reserved : Prop := cfg.dyn = true ∧ 7 ≤ method
    let ends := fun (c : Code) (r3 r4 r5 : Word) => exec .msgDec s = .next
      { s with
        res := { s.res with r1 := headerWord h, r3 := r3, r4 := r4, r5 := r5 }
        code := c
        err := true
        done := true
        phase := .idle
        engView := none }
    let rejects := fun (c : Code) (offset : Nat) =>
      ends c (BitVec.ofNat 32 offset) s.res.r4 s.res.r5
    s.cfgOk = true → s.engArg.r1.toNat = bytes.length → Holds s.bmem mb bytes →
    InRange s.params.bmemSize mb bytes.length →
    InRange s.params.wmemSize dt (8 * cfg.maxSec.toNat) → InRange s.params.wmemSize sa cap →
    Apart dt (8 * cfg.maxSec.toNat) sa cap →
    h.direction = cfg.decDir → h.version = cfg.version → h.filter ≠ 15#4 → h.subframe.toNat < 10 →
    h.slot.toNat < 2 ^ cfg.mu.toNat → h.symbol.toNat < cfg.syms.toNat →
    xs.length ≤ cfg.maxSec.toNat → (∀ x ∈ xs, x.Complete cfg) → total ≤ cap →
    (xs = [] → tail = [] → ends .noValidSection 4#32 s.res.r4 4#32) ∧
    (tail ≠ [] → (tail.length < head ∨ (¬ reserved ∧ tail.length < full)) →
      (xs = [] → ends .incomplete 4#32 1#32 4#32) ∧
      (xs ≠ [] → Memory.wf s.wmem → ∃ m : Memory 16,
        exec .msgDec s = .next
          { s with
            wmem := m
            res :=
              { s.res with
                r0 := BitVec.ofNat 32 xs.length
                r1 := headerWord h
                r2 := BitVec.ofNat 32 total
                r3 := BitVec.ofNat 32 toff
                r4 := 1#32
                r5 := BitVec.ofNat 32 toff }
            code := .ok
            err := false
            done := true
            phase := .idle
            engView := none } ∧
        (∀ j, ∀ hj : j < xs.length, xs[j].WrittenIn s m j (payload j) (samplesBefore cfg xs j)) ∧
        (∀ a, (a < dt ∨ dt + 8 * xs.length ≤ a) → (a < sa ∨ sa + total ≤ a) →
          Memory.read m a = Memory.read s.wmem a))) ∧
    (head ≤ tail.length → reserved → rejects .malformed (toff + 4)) ∧
    (¬ reserved → full ≤ tail.length →
      (method ≠ 0 → method ≠ 1 → rejects .unsupportedMethod toff) ∧
      (method = 0 ∨ method = 1 →
        (cap < total + 24 * n → rejects .contractViolation toff) ∧
        (total + 24 * n ≤ cap → xs.length = cfg.maxSec.toNat → rejects .rejectedSemantic toff)))

/-- 44_decoder.md R296: the code and the results of MSG_DEC depend only on the message bytes, its
length, the sample capacity, the configuration but for its tier, and the float format. -/
def Obligations.MsgDecDependsOnlyOnTheMessage : Prop :=
  ∀ (s t s' t' : State) (u : Tier),
    precheck .msgDec s = none → precheck .msgDec t = none →
    t.engArg.r1 = s.engArg.r1 → t.engArg.r4 = s.engArg.r4 →
    t.cfg = { s.cfg with tier := u } → t.params.floatFmt = s.params.floatFmt → t.res = s.res →
    (∀ k, k < s.engArg.r1.toNat →
      Memory.read t.bmem (t.engArg.r0.toNat + k) = Memory.read s.bmem (s.engArg.r0.toNat + k)) →
    exec .msgDec s = .next s' → exec .msgDec t = .next t' →
    t'.code = s'.code ∧ t'.res = s'.res

/-- 45_encoder.md R327: the bytes of one message. -/
def Obligations.MessageBytesFollowTheWireLayout : Prop :=
  ∀ (cfg : ActiveCfg) (rule : ExpRule) (a4 : Word) (w : BitVec 5) (meth : BitVec 4)
    (rb : Nat → List Int) (sid : BitVec 12) (p n : Nat), p < 1024 → n ≤ 255 →
    let frame := a4.toNat % 256
    let subframe := a4.toNat / 256 % 16
    let slot := a4.toNat / 4096 % 64
    let symbol := a4.toNat / 262144 % 64
    let head : List Nat :=
      [ (if cfg.encDir then 128 else 0) + cfg.version.toNat * 16 + cfg.encFilter.toNat,
        frame, subframe * 16 + slot / 4, slot % 4 * 64 + symbol,
        sid.toNat / 16, sid.toNat % 16 * 16 + p / 256, p % 256, n ] ++
      if cfg.dyn then [w.toNat % 16 * 16 + meth.toNat, 0] else []
    messageBytes cfg rule a4 w meth rb sid p n =
      head.map (BitVec.ofNat 8) ++ (List.range n).flatMap (fun k =>
        if meth = 1#4 then compressRb rule (rb (p + k)) w.toNat else packBits 16 (rb (p + k)))

/-- 45_encoder.md R322 to R324: MSG_ENC turned away: a bad context, a message buffer over 65535 bytes
or, in static mode, other parameters than the configured ones; unsupported parameters; a buffer that
cannot hold one RB. Nothing is written and SECID stays. -/
def Obligations.MsgEncRejectsBadRequests : Prop :=
  ∀ (s : State) (w : BitVec 5) (meth : BitVec 4),
    let ctx := s.engArg.r4.toNat
    let ends := fun (c : Code) => exec (.msgEnc w meth) s = .next
      { s with code := c, err := true, done := true, phase := .idle, engView := none }
    let contract : Prop := ctx / 16777216 = 0 ∧ ctx / 256 % 16 < 10 ∧
      ctx / 4096 % 64 < 2 ^ s.cfg.mu.toNat ∧ ctx / 262144 % 64 < s.cfg.syms.toNat ∧
      s.engArg.r2.toNat ≤ 65535 ∧ (s.cfg.dyn = false → meth = s.cfg.method ∧ w = s.cfg.bw)
    let supported : Prop := meth = 1#4 ∨ (meth = 0#4 ∧ w = 16#5)
    1 ≤ w.toNat → w.toNat ≤ 16 → meth.toNat < 7 → s.cfgOk = true →
    InRange s.params.wmemSize s.engArg.r0.toNat (24 * s.cfg.nofPrb.toNat) →
    InRange s.params.bmemSize s.engArg.r1.toNat (s.engArg.r3.toNat * s.engArg.r2.toNat) →
    InRange s.params.wmemSize s.engArg.r5.toNat s.engArg.r3.toNat →
    Apart s.engArg.r0.toNat (24 * s.cfg.nofPrb.toNat) s.engArg.r5.toNat s.engArg.r3.toNat →
    (¬ contract → ends .contractViolation) ∧
    (contract → ¬ supported → ends .unsupportedMethod) ∧
    (contract → supported →
      s.engArg.r2.toNat < 8 + (if s.cfg.dyn = true then 2 else 0) + (3 * w.toNat +
        if meth = 1#4 then 1 else 0) → ends .fragmentTooSmall)

/-- 45_encoder.md R324 to R333: MSG_ENC writes the messages of the greedy fragmentation: with enough
buffers all of them and OK, else the first K of them and OUT_OF_BUFFERS. Each message lies at the start
of its buffer, its length is in the length table, SECID has advanced by one for each, and nothing else
is written. -/
def Obligations.MsgEncWritesTheFragmentedMessages : Prop :=
  ∀ (s : State) (w : BitVec 5) (meth : BitVec 4),
    let ob := s.engArg.r1.toNat
    let size := s.engArg.r2.toNat
    let slots := s.engArg.r3.toNat
    let lt := s.engArg.r5.toNat
    let ctx := s.engArg.r4.toNat
    let nof := s.cfg.nofPrb.toNat
    let hb := 8 + if s.cfg.dyn = true then 2 else 0
    let pb := 3 * w.toNat + if meth = 1#4 then 1 else 0
    let cap := min 255 ((size - hb) / pb)
    let need := (nof + cap - 1) / cap
    let sent := min need slots
    let rb := fun (r : Nat) => (List.range 24).map (fun j =>
      toFixed (fdecSample s.params.floatFmt (Memory.read s.wmem (s.engArg.r0.toNat + 24 * r + j)))
        (fdecScale s.cfg.scale))
    let count := fun (i : Nat) => min cap (nof - i * cap)
    s.cfgOk = true → Memory.wf s.bmem → Memory.wf s.wmem →
    1 ≤ w.toNat → w.toNat ≤ 16 → (meth = 1#4 ∨ (meth = 0#4 ∧ w = 16#5)) →
    InRange s.params.wmemSize s.engArg.r0.toNat (24 * nof) →
    InRange s.params.bmemSize ob (slots * size) → InRange s.params.wmemSize lt slots →
    Apart s.engArg.r0.toNat (24 * nof) lt slots →
    ctx / 16777216 = 0 → ctx / 256 % 16 < 10 → ctx / 4096 % 64 < 2 ^ s.cfg.mu.toNat →
    ctx / 262144 % 64 < s.cfg.syms.toNat → size ≤ 65535 →
    (s.cfg.dyn = false → meth = s.cfg.method ∧ w = s.cfg.bw) → hb + pb ≤ size →
    ∃ (mb : Memory 8) (mw : Memory 16),
      exec (.msgEnc w meth) s = .next
        { s with
          bmem := mb
          wmem := mw
          secId := BitVec.ofNat 12 (s.secId.toNat + sent)
          res :=
            { s.res with
              r0 := BitVec.ofNat 32 sent
              r1 := BitVec.ofNat 32 (sent * hb + min nof (sent * cap) * pb)
              r2 := BitVec.ofNat 32 (min nof (sent * cap))
              r3 := s.secId.setWidth 32 }
          code := if need ≤ slots then .ok else .outOfBuffers
          err := decide (slots < need)
          done := true
          phase := .idle
          engView := none } ∧
      (∀ i, i < sent →
        Holds mb (ob + i * size) (messageBytes s.cfg s.params.expRule s.engArg.r4 w meth rb
          (BitVec.ofNat 12 (s.secId.toNat + i)) (i * cap) (count i)) ∧
        (Memory.read mw (lt + i)).toNat = hb + count i * pb) ∧
      (∀ a, (∀ i, i < sent → a < ob + i * size ∨ ob + i * size + (hb + count i * pb) ≤ a) →
        Memory.read mb a = Memory.read s.bmem a) ∧
      (∀ a, a < lt ∨ lt + sent ≤ a → Memory.read mw a = Memory.read s.wmem a)

/-- 45_encoder.md R335, law 2: a message of MSG_ENC, of BFP or of method none at 16 bits, decodes, under a
configuration that accepts its direction and otherwise equals the encoder's, to one section with the
encoder's PRBs; for BFP its samples are the floats of the shifted quantized values under the block's
exponent, for method none those of the quantized values. -/
def Obligations.EncodedMessageDecodes : Prop :=
  ∀ (s : State) (a4 : Word) (w : BitVec 5) (meth : BitVec 4) (rb : Nat → List Int) (sid : BitVec 12)
    (p n : Nat),
    let mb := s.engArg.r0.toNat
    let dt := s.engArg.r2.toNat
    let sa := s.engArg.r3.toNat
    let bytes := messageBytes s.cfg s.params.expRule a4 w meth rb sid p n
    let e := fun (k : Nat) => if meth = 1#4 then exponent s.params.expRule (rb (p + k)) w.toNat else 0
    s.cfgOk = true → Memory.wf s.wmem → LegalCfg s.params s.cfg → s.cfg.decDir = s.cfg.encDir →
    1 ≤ w.toNat → w.toNat ≤ 16 → (meth = 1#4 ∨ (meth = 0#4 ∧ w = 16#5)) →
    (s.cfg.dyn = false → s.cfg.method = meth ∧ s.cfg.bw = w) →
    a4.toNat / 256 % 16 < 10 → a4.toNat / 4096 % 64 < 2 ^ s.cfg.mu.toNat →
    a4.toNat / 262144 % 64 < s.cfg.syms.toNat → p < 1024 → 1 ≤ n → n ≤ 255 →
    (∀ r, (rb r).length = 24 ∧ ∀ v ∈ rb r, -32768 ≤ v ∧ v ≤ 32767) →
    s.engArg.r1.toNat = bytes.length → Holds s.bmem mb bytes →
    InRange s.params.bmemSize mb bytes.length →
    InRange s.params.wmemSize dt (8 * s.cfg.maxSec.toNat) →
    InRange s.params.wmemSize sa s.engArg.r4.toNat → 24 * n ≤ s.engArg.r4.toNat →
    Apart dt (8 * s.cfg.maxSec.toNat) sa s.engArg.r4.toNat →
    ∃ t, exec .msgDec s = .next t ∧ t.code = .ok ∧ t.res.r0 = 1#32 ∧
      t.res.r2 = BitVec.ofNat 32 (24 * n) ∧ t.res.r4 = 0#32 ∧ t.res.r5 = s.engArg.r1 ∧
      Holds t.wmem dt [sid.setWidth 16, 3#16, BitVec.ofNat 16 p, BitVec.ofNat 16 n,
        BitVec.ofNat 16 (meth.toNat + 16 * w.toNat), 0#16, 0#16, 0#16] ∧
      ∀ k, k < n →
        Holds t.wmem (sa + 24 * k)
          ((rb (p + k)).map (fun v => toFloat s.params.floatFmt (asr v (e k)) (e k)))

/-! ### Programs -/

/-- 30_encoding.md R122: what a command line assembles to: its arguments in order, no other argument
register, then CMD. -/
def Obligations.CommandLineWritesArgumentsThenCmd : Prop :=
  ∀ c : AsmCommand, c.operands.length ≤ 8 →
    AsmCommand.events c =
      c.operands.zipIdx.map (fun p =>
        Event.host (.writeReg .word (BitVec.ofNat 32 (0x020 + 4 * p.2)) p.1)) ++
      [.host (.writeReg .word 0x018#32 (BitVec.ofNat 32 (c.opc.toNat + 256 * c.w.toNat +
        8192 * c.meth.toNat + 131072 * c.e8.toNat)))]
end

