-- ==== Sys2Proof/Laws/BitPack.lean ====
section
/-!
SUPPORT. The laws of bit streams: lengths, and what a byte and a field of a stream are.
-/

namespace Sys2Proof.Machine

@[simp] theorem valueBits_length (w : Nat) (v : Int) : (valueBits w v).length = w := by
  simp [valueBits]

@[simp] theorem byteBits_length (b : Byte) : (byteBits b).length = 8 := by simp [byteBits]

@[simp] theorem bytesOfBits_length (nb : Nat) (bits : List Bool) :
    (bytesOfBits nb bits).length = nb := by
  induction nb generalizing bits with
  | zero => rfl
  | succ n ih => simp [bytesOfBits, ih]

@[simp] theorem packBits_length (w : Nat) (v : List Int) :
    (packBits w v).length = packedBytes v.length w := by simp [packBits]

@[simp] theorem readFields_length (w n : Nat) (bits : List Bool) :
    (readFields w n bits).length = n := by
  induction n generalizing bits with
  | zero => rfl
  | succ n ih => simp [readFields, ih]

@[simp] theorem unpackBits_length (w n : Nat) (b : List Byte) : (unpackBits w n b).length = n := by
  simp [unpackBits]

/-- A block of 24 values has no pad bits: `24·w = 8·3w` (41_bitpack.md R191). -/
@[simp] theorem packedBytes_block (w : Nat) : packedBytes 24 w = 3 * w := by
  unfold packedBytes ceilDiv; omega

@[simp] theorem packedBytes_zero (w : Nat) : packedBytes 0 w = 0 := by
  simp [packedBytes, ceilDiv]

/-- The stream of N values of w bits fits its bytes, with less than a byte to spare. -/
theorem packedBytes_bounds (n w : Nat) :
    n * w ≤ 8 * packedBytes n w ∧ 8 * packedBytes n w < n * w + 8 := by
  unfold packedBytes ceilDiv; omega

theorem flatMap_valueBits_length (w : Nat) (v : List Int) :
    (v.flatMap (valueBits w)).length = v.length * w := by
  induction v with
  | nil => simp
  | cons x rest ih => simp only [List.flatMap_cons, List.length_append, ih, valueBits_length,
      List.length_cons]; ring

theorem flatMap_byteBits_length (b : List Byte) : (b.flatMap byteBits).length = b.length * 8 := by
  induction b with
  | nil => simp
  | cons x rest ih => simp only [List.flatMap_cons, List.length_append, ih, byteBits_length,
      List.length_cons]; ring

/-! ### Bits and numbers -/

theorem bitsToNat_snoc (bits : List Bool) (b : Bool) :
    bitsToNat (bits ++ [b]) = 2 * bitsToNat bits + b.toNat := by
  simp [bitsToNat]

theorem bitsToNat_lt (bits : List Bool) : bitsToNat bits < 2 ^ bits.length := by
  induction bits using List.reverseRecOn with
  | nil => simp [bitsToNat]
  | append_singleton bits b ih =>
    rw [bitsToNat_snoc, List.length_append, List.length_singleton, pow_succ]
    cases b <;> simp <;> omega

/-- Bit k of the number a list of bits spells is the bit k from the end. -/
theorem bitsToNat_testBit (bits : List Bool) (k : Nat) (h : k < bits.length) :
    (bitsToNat bits).testBit k = bits[bits.length - 1 - k] := by
  induction bits using List.reverseRecOn generalizing k with
  | nil => simp at h
  | append_singleton bits b ih =>
    rw [bitsToNat_snoc]
    cases k with
    | zero =>
      have : (2 * bitsToNat bits + b.toNat).testBit 0 = b := by
        rw [Nat.testBit_zero]; cases b <;> simp
      rw [this]; simp
    | succ k =>
      have hk : k < bits.length := by simpa using h
      have : (2 * bitsToNat bits + b.toNat) / 2 = bitsToNat bits := by
        cases b <;> simp; omega
      rw [Nat.testBit_succ, this, ih k hk, List.getElem_append_left (by simp; omega)]
      congr 1
      simp only [List.length_append, List.length_singleton]
      omega

/-- The bits of a value spell its w-bit pattern (41_bitpack.md R191). -/
theorem bitsToNat_valueBits (w : Nat) (v : Int) :
    bitsToNat (valueBits w v) = (v % (2 ^ w : Nat)).toNat := by
  have hlt : (v % (2 ^ w : Nat)).toNat < 2 ^ w := by
    have h1 := Int.emod_lt_of_pos v (b := ((2 ^ w : Nat) : Int)) (by positivity)
    omega
  apply Nat.eq_of_testBit_eq
  intro k
  by_cases hk : k < w
  · rw [bitsToNat_testBit _ _ (by simpa using hk)]
    simp only [valueBits, List.getElem_map, List.getElem_range, List.length_map, List.length_range]
    congr 1
    omega
  · rw [Nat.testBit_lt_two_pow (Nat.lt_of_lt_of_le (bitsToNat_lt _) ?_),
      Nat.testBit_lt_two_pow (Nat.lt_of_lt_of_le hlt (Nat.pow_le_pow_right (by omega) (by omega)))]
    rw [valueBits_length]
    exact Nat.pow_le_pow_right (by omega) (by omega)

/-- A value that fits w bits is the sign extension of its pattern (41_bitpack.md R190, R192). -/
theorem sext_pattern {w : Nat} (hw : 1 ≤ w) {v : Int} (h : fits v w = true) :
    sext w (v % (2 ^ w : Nat)).toNat = v := by
  simp only [fits, Bool.and_eq_true, decide_eq_true_eq] at h
  obtain ⟨m, rfl⟩ : ∃ m, w = m + 1 := ⟨w - 1, by omega⟩
  simp only [Nat.add_sub_cancel] at h
  have hp : ((2 ^ (m + 1) : Nat) : Int) = 2 * ((2 ^ m : Nat) : Int) := by push_cast; ring
  have hpos : (0 : Int) < ((2 ^ m : Nat) : Int) := by positivity
  unfold sext
  rw [Nat.add_sub_cancel]
  by_cases hv : 0 ≤ v
  · have he : v % ((2 ^ (m + 1) : Nat) : Int) = v := Int.emod_eq_of_lt hv (by omega)
    have hb : (v.toNat).testBit m = false := Nat.testBit_lt_two_pow (by omega)
    rw [he, hb]
    simp only [Bool.false_eq_true, if_false]
    omega
  · have he : v % ((2 ^ (m + 1) : Nat) : Int) = v + 2 * ((2 ^ m : Nat) : Int) := by
      rw [hp, ← Int.add_emod_right v]
      exact Int.emod_eq_of_lt (by omega) (by omega)
    have hb : (v + 2 * ((2 ^ m : Nat) : Int)).toNat.testBit m = true := by
      have : (v + 2 * ((2 ^ m : Nat) : Int)).toNat = 2 ^ m + (v + ((2 ^ m : Nat) : Int)).toNat := by
        omega
      rw [this, Nat.testBit_two_pow_add_eq,
        Nat.testBit_lt_two_pow (by omega : (v + ((2 ^ m : Nat) : Int)).toNat < 2 ^ m)]
      rfl
    rw [he, hb]
    simp only [if_true]
    omega

/-! ### Bytes and streams -/

/-- The bits of the next byte are the next 8 stream bits, padded with 0. -/
theorem byteBits_nextByte (bits : List Bool) :
    byteBits (nextByte bits) = (bits ++ List.replicate 8 false).take 8 := by
  have hlen : ((bits ++ List.replicate 8 false).take 8).length = 8 := by simp
  apply List.ext_getElem (by rw [hlen, byteBits_length])
  intro k h1 h2
  have hk : k < 8 := by simpa using h1
  simp only [byteBits, List.getElem_map, List.getElem_range, nextByte, BitVec.getLsbD_ofNat]
  rw [bitsToNat_testBit _ _ (by rw [hlen]; omega)]
  have h7 : 7 - k < 8 := by omega
  simp only [h7, decide_true, Bool.true_and, hlen]
  congr 1
  omega

/-- The stream of the bytes of a stream: the stream, padded with 0 to whole bytes. -/
theorem flatMap_byteBits_bytesOfBits (nb : Nat) (bits : List Bool) :
    (bytesOfBits nb bits).flatMap byteBits =
      (bits ++ List.replicate (8 * nb) false).take (8 * nb) := by
  induction nb generalizing bits with
  | zero => rfl
  | succ n ih =>
    rw [bytesOfBits, List.flatMap_cons, byteBits_nextByte, ih]
    apply List.ext_getElem
    · simp
      omega
    · intro k h1 h2
      simp only [List.getElem_append, List.getElem_take, List.getElem_drop, List.length_take,
        List.length_append, List.length_replicate, List.length_drop, List.getElem_replicate]
      split
      · split
        · simp
        · simp
      · split
        · have : 8 + (k - min 8 (bits.length + 8)) = k := by omega
          simp only [this]
          rw [dif_pos (by omega)]
        · rw [dif_neg (by omega)]

/-- A list of bytes is what packing its own stream gives. -/
theorem bytesOfBits_flatMap_byteBits (b : List Byte) :
    bytesOfBits b.length (b.flatMap byteBits) = b := by
  induction b with
  | nil => rfl
  | cons x rest ih =>
    have h8 : (byteBits x ++ rest.flatMap byteBits).drop 8 = rest.flatMap byteBits := by
      rw [List.drop_append_of_le_length (by simp), List.drop_eq_nil_of_le (by simp)]; rfl
    have hx : nextByte (byteBits x ++ rest.flatMap byteBits) = x := by
      have h := byteBits_nextByte (byteBits x ++ rest.flatMap byteBits)
      rw [List.append_assoc, List.take_append_of_le_length (by simp),
        List.take_of_length_le (by simp)] at h
      apply BitVec.eq_of_getLsbD_eq
      intro i hi
      have := congrArg (fun l => l[7 - i]?) h
      simpa [byteBits, show 7 - i < 8 by omega, show 7 - (7 - i) = i by omega] using this
    rw [List.flatMap_cons, List.length_cons, bytesOfBits, h8, hx, ih]

/-- The fields of a stream of values that fit are the values. -/
theorem readFields_flatMap_valueBits {w : Nat} (hw : 1 ≤ w) (v : List Int)
    (h : ∀ x ∈ v, fits x w = true) (tail : List Bool) :
    readFields w v.length (v.flatMap (valueBits w) ++ tail) = v := by
  induction v with
  | nil => rfl
  | cons x rest ih =>
    have hx := h x (by simp)
    have hr : ∀ y ∈ rest, fits y w = true := fun y hy => h y (by simp [hy])
    rw [List.length_cons, readFields, List.flatMap_cons, List.append_assoc,
      List.take_append_of_le_length (by simp), List.take_of_length_le (by simp),
      bitsToNat_valueBits, sext_pattern hw hx, List.drop_append_of_le_length (by simp),
      List.drop_eq_nil_of_le (by simp), List.nil_append, ih hr]

end Sys2Proof.Machine
end

