-- ==== Sys2Proof/Laws/Memory.lean ====
section
/-!
SUPPORT. The laws of memory: a read after a write, what a write leaves alone, and the canonical form,
which every memory operation keeps.
-/

namespace Sys2Proof.Machine

variable {w : Nat}

@[simp] theorem Memory.read_nil (a : Nat) : Memory.read ([] : Memory w) a = Memory.unlisted w := rfl

theorem Memory.wf_nil : Memory.wf ([] : Memory w) := by simp [Memory.wf]

theorem Memory.below_nil (size : Nat) : Memory.below size ([] : Memory w) := by simp [Memory.below]

theorem Memory.wf_cons {p : Nat × BitVec w} {m : Memory w} :
    Memory.wf (p :: m) ↔ (∀ q ∈ m, p.1 < q.1) ∧ p.2 ≠ Memory.unlisted w ∧ Memory.wf m := by
  simp only [Memory.wf, List.pairwise_cons, List.forall_mem_cons]
  tauto

/-- An address below every listed one reads as unlisted. -/
theorem Memory.read_of_lt {m : Memory w} {a : Nat} (h : ∀ q ∈ m, a < q.1) :
    Memory.read m a = Memory.unlisted w := by
  induction m with
  | nil => rfl
  | cons p rest ih =>
    obtain ⟨b, v⟩ := p
    have hb : a < b := h (b, v) (by simp)
    simp only [Memory.read, if_neg (Nat.ne_of_gt hb)]
    exact ih fun q hq => h q (by simp [hq])

/-- Another address keeps its contents. -/
theorem Memory.read_write_ne (m : Memory w) {a b : Nat} (v : BitVec w) (h : b ≠ a) :
    Memory.read (Memory.write m a v) b = Memory.read m b := by
  induction m with
  | nil =>
    simp only [Memory.write]
    split <;> simp [Memory.read, Ne.symm h]
  | cons p rest ih =>
    obtain ⟨c, x⟩ := p
    simp only [Memory.write]
    split
    · split <;> simp [Memory.read, Ne.symm h]
    · split
      · rename_i hac
        subst hac
        split <;> simp [Memory.read, Ne.symm h]
      · simp only [Memory.read, ih]

/-- The address written reads as the value written. -/
theorem Memory.read_write_self {m : Memory w} (hm : Memory.wf m) (a : Nat) (v : BitVec w) :
    Memory.read (Memory.write m a v) a = v := by
  induction m with
  | nil =>
    simp only [Memory.write]
    split <;> simp_all [Memory.read]
  | cons p rest ih =>
    obtain ⟨c, x⟩ := p
    obtain ⟨hlt, hx, hrest⟩ := Memory.wf_cons.mp hm
    simp only [Memory.write]
    split
    · rename_i hac
      split
      · rename_i hv
        rw [hv]
        refine Memory.read_of_lt fun q hq => ?_
        rcases List.mem_cons.mp hq with rfl | hq
        · exact hac
        · exact Nat.lt_trans hac (hlt q hq)
      · simp [Memory.read]
    · split
      · rename_i hac
        subst hac
        split
        · rename_i hv
          rw [hv]
          exact Memory.read_of_lt hlt
        · simp [Memory.read]
      · rename_i hac
        simp only [Memory.read, if_neg (Ne.symm hac), ih hrest]

/-- What a write leaves and puts, in one equation. -/
theorem Memory.read_write {m : Memory w} (hm : Memory.wf m) (a b : Nat) (v : BitVec w) :
    Memory.read (Memory.write m a v) b = if b = a then v else Memory.read m b := by
  split
  · rename_i h
    rw [h, Memory.read_write_self hm]
  · exact Memory.read_write_ne m v ‹_›

/-- An entry of a written memory is the one written or an old one. -/
theorem Memory.mem_write {m : Memory w} {a : Nat} {v : BitVec w} {q : Nat × BitVec w}
    (h : q ∈ Memory.write m a v) : q = (a, v) ∨ q ∈ m := by
  induction m with
  | nil =>
    simp only [Memory.write] at h
    split at h <;> simp_all
  | cons p rest ih =>
    obtain ⟨c, x⟩ := p
    simp only [Memory.write] at h
    split at h
    · split at h <;> simp_all
    · split at h
      · split at h <;> simp_all
        rcases h with h | h <;> simp [h]
      · simp only [List.mem_cons] at h ⊢
        rcases h with h | h
        · simp [h]
        · rcases ih h with h | h <;> simp [h]

/-- A write keeps the canonical form. -/
theorem Memory.write_wf {m : Memory w} (hm : Memory.wf m) (a : Nat) (v : BitVec w) :
    Memory.wf (Memory.write m a v) := by
  induction m with
  | nil =>
    simp only [Memory.write]
    split
    · exact Memory.wf_nil
    · exact Memory.wf_cons.mpr ⟨by simp, ‹_›, Memory.wf_nil⟩
  | cons p rest ih =>
    obtain ⟨c, x⟩ := p
    obtain ⟨hlt, hx, hrest⟩ := Memory.wf_cons.mp hm
    simp only [Memory.write]
    split
    · rename_i hac
      split
      · exact hm
      · refine Memory.wf_cons.mpr ⟨fun q hq => ?_, ‹_›, hm⟩
        rcases List.mem_cons.mp hq with rfl | hq
        · exact hac
        · exact Nat.lt_trans hac (hlt q hq)
    · split
      · rename_i hac
        subst hac
        split
        · exact hrest
        · exact Memory.wf_cons.mpr ⟨hlt, ‹_›, hrest⟩
      · refine Memory.wf_cons.mpr ⟨fun q hq => ?_, hx, ih hrest⟩
        rcases Memory.mem_write hq with rfl | hq
        · simp only; omega
        · exact hlt q hq

/-- A write below the end keeps every entry below the end. -/
theorem Memory.write_below {m : Memory w} {size : Nat} (hm : Memory.below size m) {a : Nat}
    (v : BitVec w) (ha : a < size) : Memory.below size (Memory.write m a v) := by
  intro q hq
  rcases Memory.mem_write hq with rfl | hq
  · exact ha
  · exact hm q hq

/-- Two memories in canonical form that read alike everywhere are equal. -/
theorem Memory.ext_of_read {m n : Memory w} (hm : Memory.wf m) (hn : Memory.wf n)
    (h : ∀ a, Memory.read m a = Memory.read n a) : m = n := by
  induction m generalizing n with
  | nil =>
    cases n with
    | nil => rfl
    | cons q rest =>
      have := h q.1
      simp [Memory.read] at this
      exact absurd this.symm (Memory.wf_cons.mp hn).2.1
  | cons p rest ih =>
    obtain ⟨a, v⟩ := p
    obtain ⟨hlt, hv, hrest⟩ := Memory.wf_cons.mp hm
    cases n with
    | nil =>
      have := h a
      simp [Memory.read] at this
      exact absurd this hv
    | cons q rest' =>
      obtain ⟨b, x⟩ := q
      obtain ⟨hlt', hx, hrest'⟩ := Memory.wf_cons.mp hn
      have hab : a = b := by
        rcases Nat.lt_trichotomy a b with hab | hab | hab
        · have h1 := h a
          rw [Memory.read_of_lt (m := (b, x) :: rest') (a := a)] at h1
          · simp [Memory.read] at h1
            exact absurd h1 hv
          · intro q hq
            rcases List.mem_cons.mp hq with rfl | hq
            · exact hab
            · exact Nat.lt_trans hab (hlt' q hq)
        · exact hab
        · have h1 := h b
          rw [Memory.read_of_lt (m := (a, v) :: rest) (a := b)] at h1
          · simp [Memory.read] at h1
            exact absurd h1.symm hx
          · intro q hq
            rcases List.mem_cons.mp hq with rfl | hq
            · exact hab
            · exact Nat.lt_trans hab (hlt q hq)
      subst hab
      have hvx : v = x := by simpa [Memory.read] using h a
      subst hvx
      congr 1
      refine ih hrest hrest' fun c => ?_
      by_cases hc : a = c
      · subst hc
        rw [Memory.read_of_lt hlt, Memory.read_of_lt hlt']
      · simpa [Memory.read, hc] using h c

/-! ### Ranges -/

@[simp] theorem Memory.readRange_length (m : Memory w) (a n : Nat) :
    (Memory.readRange m a n).length = n := by simp [Memory.readRange]

@[simp] theorem Memory.readRange_getElem (m : Memory w) (a n k : Nat)
    (h : k < (Memory.readRange m a n).length) :
    (Memory.readRange m a n)[k] = Memory.read m (a + k) := by simp [Memory.readRange]

theorem Memory.readRange_getElem? {m : Memory w} {a n k : Nat} (h : k < n) :
    (Memory.readRange m a n)[k]? = some (Memory.read m (a + k)) := by
  simp [Memory.readRange, h]

/-- A range read depends only on the addresses of the range. -/
theorem Memory.readRange_congr {m m' : Memory w} {a n : Nat}
    (h : ∀ k, k < n → Memory.read m (a + k) = Memory.read m' (a + k)) :
    Memory.readRange m a n = Memory.readRange m' a n :=
  List.map_congr_left fun k hk => h k (List.mem_range.mp hk)

/-- An address outside the range written keeps its contents. -/
theorem Memory.read_writeRange_out (m : Memory w) (a : Nat) (vs : List (BitVec w)) {x : Nat}
    (h : x < a ∨ a + vs.length ≤ x) :
    Memory.read (Memory.writeRange m a vs) x = Memory.read m x := by
  induction vs generalizing m a with
  | nil => rfl
  | cons v rest ih =>
    simp only [List.length_cons] at h
    rw [Memory.writeRange, ih _ _ (by omega), Memory.read_write_ne _ _ (by omega)]

/-- A range write keeps the canonical form. -/
theorem Memory.writeRange_wf {m : Memory w} (hm : Memory.wf m) (a : Nat) (vs : List (BitVec w)) :
    Memory.wf (Memory.writeRange m a vs) := by
  induction vs generalizing m a with
  | nil => exact hm
  | cons v rest ih => exact ih (Memory.write_wf hm a v) _

/-- An address of the range written reads as the value written there. -/
theorem Memory.read_writeRange_in {m : Memory w} (hm : Memory.wf m) (a : Nat)
    (vs : List (BitVec w)) {k : Nat} (h : k < vs.length) :
    Memory.read (Memory.writeRange m a vs) (a + k) = vs[k] := by
  induction vs generalizing m a k with
  | nil => simp at h
  | cons v rest ih =>
    cases k with
    | zero =>
      rw [Memory.writeRange, Memory.read_writeRange_out _ _ _ (by omega)]
      exact Memory.read_write_self hm a v
    | succ k =>
      have h' : k < rest.length := by simpa using h
      have := ih (Memory.write_wf hm a v) (a + 1) h'
      rw [Memory.writeRange, show a + (k + 1) = a + 1 + k by omega, this]
      rfl

/-- A range write that ends below the end keeps every entry below the end. -/
theorem Memory.writeRange_below {m : Memory w} {size : Nat} (hm : Memory.below size m) {a : Nat}
    (vs : List (BitVec w)) (h : vs = [] ∨ a + vs.length ≤ size) :
    Memory.below size (Memory.writeRange m a vs) := by
  induction vs generalizing m a with
  | nil => exact hm
  | cons v rest ih =>
    have h' : a + (rest.length + 1) ≤ size := by simpa using h
    exact ih (Memory.write_below hm v (by omega)) (Or.inr (by omega))

/-- Reading back a range just written gives the values written. -/
theorem Memory.readRange_writeRange {m : Memory w} (hm : Memory.wf m) (a : Nat)
    (vs : List (BitVec w)) :
    Memory.readRange (Memory.writeRange m a vs) a vs.length = vs := by
  apply List.ext_getElem (by simp)
  intro k h1 h2
  simp only [Memory.readRange_getElem]
  exact Memory.read_writeRange_in hm a vs h2

/-- A write outside a range does not change it. -/
theorem Memory.readRange_write_out (m : Memory w) {a n b : Nat} (v : BitVec w)
    (h : b < a ∨ a + n ≤ b) :
    Memory.readRange (Memory.write m b v) a n = Memory.readRange m a n :=
  Memory.readRange_congr fun k hk => Memory.read_write_ne m v (by omega)

/-- A range write outside a range does not change it. -/
theorem Memory.readRange_writeRange_out (m : Memory w) {a n b : Nat} (vs : List (BitVec w))
    (h : n = 0 ∨ vs = [] ∨ a + n ≤ b ∨ b + vs.length ≤ a) :
    Memory.readRange (Memory.writeRange m b vs) a n = Memory.readRange m a n :=
  Memory.readRange_congr fun k hk => by
    rcases h with h | h | h | h
    · omega
    · rw [h]; rfl
    · exact Memory.read_writeRange_out m b vs (by omega)
    · exact Memory.read_writeRange_out m b vs (by omega)

end Sys2Proof.Machine
end

