-- ==== Sys2Proof/Laws/State.lean ====
section
/-!
SUPPORT. What each shared update of the state does to each field, one lemma per field, true by rfl, so
that no proof unfolds a record update.
-/

namespace Sys2Proof.Machine

/-! ### Acceptance -/

@[simp] theorem accept_params (c : Word) (s : State) : (accept c s).params = s.params := rfl
@[simp] theorem accept_irqEn (c : Word) (s : State) : (accept c s).irqEn = s.irqEn := rfl
@[simp] theorem accept_done (c : Word) (s : State) : (accept c s).done = false := rfl
@[simp] theorem accept_err (c : Word) (s : State) : (accept c s).err = false := rfl
@[simp] theorem accept_cfgOk (c : Word) (s : State) : (accept c s).cfgOk = s.cfgOk := rfl
@[simp] theorem accept_ovr (c : Word) (s : State) : (accept c s).ovr = s.ovr := rfl
@[simp] theorem accept_code (c : Word) (s : State) : (accept c s).code = .ok := rfl
@[simp] theorem accept_selTier (c : Word) (s : State) : (accept c s).selTier = s.selTier := rfl
@[simp] theorem accept_cmd (c : Word) (s : State) : (accept c s).cmd = c := rfl
@[simp] theorem accept_arg (c : Word) (s : State) : (accept c s).arg = s.arg := rfl
@[simp] theorem accept_res (c : Word) (s : State) : (accept c s).res = Bank.zero := rfl
@[simp] theorem accept_cfgRegs (c : Word) (s : State) : (accept c s).cfgRegs = s.cfgRegs := rfl
@[simp] theorem accept_secId (c : Word) (s : State) : (accept c s).secId = s.secId := rfl
@[simp] theorem accept_cfg (c : Word) (s : State) : (accept c s).cfg = s.cfg := rfl
@[simp] theorem accept_phase (c : Word) (s : State) : (accept c s).phase = .busy := rfl
@[simp] theorem accept_engCmd (c : Word) (s : State) : (accept c s).engCmd = c := rfl
@[simp] theorem accept_engArg (c : Word) (s : State) : (accept c s).engArg = s.arg := rfl
@[simp] theorem accept_engCfgRegs (c : Word) (s : State) : (accept c s).engCfgRegs = s.cfgRegs := rfl
@[simp] theorem accept_engView (c : Word) (s : State) : (accept c s).engView = none := rfl
@[simp] theorem accept_bmem (c : Word) (s : State) : (accept c s).bmem = s.bmem := rfl
@[simp] theorem accept_wmem (c : Word) (s : State) : (accept c s).wmem = s.wmem := rfl
@[simp] theorem accept_inputs (c : Word) (s : State) : (accept c s).inputs = s.inputs := rfl
@[simp] theorem accept_readData (c : Word) (s : State) : (accept c s).readData = s.readData := rfl
@[simp] theorem accept_freeCtr (c : Word) (s : State) : (accept c s).freeCtr = s.freeCtr := rfl

/-! ### Completion -/

@[simp] theorem complete_params (c : Code) (s : State) : (complete c s).params = s.params := rfl
@[simp] theorem complete_irqEn (c : Code) (s : State) : (complete c s).irqEn = s.irqEn := rfl
@[simp] theorem complete_done (c : Code) (s : State) : (complete c s).done = true := rfl
@[simp] theorem complete_err (c : Code) (s : State) : (complete c s).err = (c != .ok) := rfl
@[simp] theorem complete_cfgOk (c : Code) (s : State) : (complete c s).cfgOk = s.cfgOk := rfl
@[simp] theorem complete_ovr (c : Code) (s : State) : (complete c s).ovr = s.ovr := rfl
@[simp] theorem complete_code (c : Code) (s : State) : (complete c s).code = c := rfl
@[simp] theorem complete_selTier (c : Code) (s : State) : (complete c s).selTier = s.selTier := rfl
@[simp] theorem complete_cmd (c : Code) (s : State) : (complete c s).cmd = s.cmd := rfl
@[simp] theorem complete_arg (c : Code) (s : State) : (complete c s).arg = s.arg := rfl
@[simp] theorem complete_res (c : Code) (s : State) : (complete c s).res = s.res := rfl
@[simp] theorem complete_cfgRegs (c : Code) (s : State) : (complete c s).cfgRegs = s.cfgRegs := rfl
@[simp] theorem complete_secId (c : Code) (s : State) : (complete c s).secId = s.secId := rfl
@[simp] theorem complete_cfg (c : Code) (s : State) : (complete c s).cfg = s.cfg := rfl
@[simp] theorem complete_phase (c : Code) (s : State) : (complete c s).phase = .idle := rfl
@[simp] theorem complete_engCmd (c : Code) (s : State) : (complete c s).engCmd = s.engCmd := rfl
@[simp] theorem complete_engArg (c : Code) (s : State) : (complete c s).engArg = s.engArg := rfl
@[simp] theorem complete_engCfgRegs (c : Code) (s : State) : (complete c s).engCfgRegs = s.engCfgRegs := rfl
@[simp] theorem complete_engView (c : Code) (s : State) : (complete c s).engView = none := rfl
@[simp] theorem complete_bmem (c : Code) (s : State) : (complete c s).bmem = s.bmem := rfl
@[simp] theorem complete_wmem (c : Code) (s : State) : (complete c s).wmem = s.wmem := rfl
@[simp] theorem complete_inputs (c : Code) (s : State) : (complete c s).inputs = s.inputs := rfl
@[simp] theorem complete_readData (c : Code) (s : State) : (complete c s).readData = s.readData := rfl
@[simp] theorem complete_freeCtr (c : Code) (s : State) : (complete c s).freeCtr = s.freeCtr := rfl

/-! ### Write-one-to-clear -/

@[simp] theorem clearStatus_params (v : Word) (s : State) : (clearStatus v s).params = s.params := rfl
@[simp] theorem clearStatus_irqEn (v : Word) (s : State) : (clearStatus v s).irqEn = s.irqEn := rfl
@[simp] theorem clearStatus_done (v : Word) (s : State) : (clearStatus v s).done = (s.done && !v.getLsbD 1) := rfl
@[simp] theorem clearStatus_err (v : Word) (s : State) : (clearStatus v s).err = (s.err && !v.getLsbD 2) := rfl
@[simp] theorem clearStatus_cfgOk (v : Word) (s : State) : (clearStatus v s).cfgOk = s.cfgOk := rfl
@[simp] theorem clearStatus_ovr (v : Word) (s : State) : (clearStatus v s).ovr = (s.ovr && !v.getLsbD 4) := rfl
@[simp] theorem clearStatus_code (v : Word) (s : State) : (clearStatus v s).code = s.code := rfl
@[simp] theorem clearStatus_selTier (v : Word) (s : State) : (clearStatus v s).selTier = s.selTier := rfl
@[simp] theorem clearStatus_cmd (v : Word) (s : State) : (clearStatus v s).cmd = s.cmd := rfl
@[simp] theorem clearStatus_arg (v : Word) (s : State) : (clearStatus v s).arg = s.arg := rfl
@[simp] theorem clearStatus_res (v : Word) (s : State) : (clearStatus v s).res = s.res := rfl
@[simp] theorem clearStatus_cfgRegs (v : Word) (s : State) : (clearStatus v s).cfgRegs = s.cfgRegs := rfl
@[simp] theorem clearStatus_secId (v : Word) (s : State) : (clearStatus v s).secId = s.secId := rfl
@[simp] theorem clearStatus_cfg (v : Word) (s : State) : (clearStatus v s).cfg = s.cfg := rfl
@[simp] theorem clearStatus_phase (v : Word) (s : State) : (clearStatus v s).phase = s.phase := rfl
@[simp] theorem clearStatus_engCmd (v : Word) (s : State) : (clearStatus v s).engCmd = s.engCmd := rfl
@[simp] theorem clearStatus_engArg (v : Word) (s : State) : (clearStatus v s).engArg = s.engArg := rfl
@[simp] theorem clearStatus_engCfgRegs (v : Word) (s : State) : (clearStatus v s).engCfgRegs = s.engCfgRegs := rfl
@[simp] theorem clearStatus_engView (v : Word) (s : State) : (clearStatus v s).engView = s.engView := rfl
@[simp] theorem clearStatus_bmem (v : Word) (s : State) : (clearStatus v s).bmem = s.bmem := rfl
@[simp] theorem clearStatus_wmem (v : Word) (s : State) : (clearStatus v s).wmem = s.wmem := rfl
@[simp] theorem clearStatus_inputs (v : Word) (s : State) : (clearStatus v s).inputs = s.inputs := rfl
@[simp] theorem clearStatus_readData (v : Word) (s : State) : (clearStatus v s).readData = s.readData := rfl
@[simp] theorem clearStatus_freeCtr (v : Word) (s : State) : (clearStatus v s).freeCtr = s.freeCtr := rfl

/-! ### Hardware reset -/

@[simp] theorem hardReset_params (s : State) : (hardReset s).params = s.params := rfl
@[simp] theorem hardReset_irqEn (s : State) : (hardReset s).irqEn = State.reset.irqEn := rfl
@[simp] theorem hardReset_done (s : State) : (hardReset s).done = State.reset.done := rfl
@[simp] theorem hardReset_err (s : State) : (hardReset s).err = State.reset.err := rfl
@[simp] theorem hardReset_cfgOk (s : State) : (hardReset s).cfgOk = State.reset.cfgOk := rfl
@[simp] theorem hardReset_ovr (s : State) : (hardReset s).ovr = State.reset.ovr := rfl
@[simp] theorem hardReset_code (s : State) : (hardReset s).code = State.reset.code := rfl
@[simp] theorem hardReset_selTier (s : State) : (hardReset s).selTier = State.reset.selTier := rfl
@[simp] theorem hardReset_cmd (s : State) : (hardReset s).cmd = State.reset.cmd := rfl
@[simp] theorem hardReset_arg (s : State) : (hardReset s).arg = State.reset.arg := rfl
@[simp] theorem hardReset_res (s : State) : (hardReset s).res = State.reset.res := rfl
@[simp] theorem hardReset_cfgRegs (s : State) : (hardReset s).cfgRegs = State.reset.cfgRegs := rfl
@[simp] theorem hardReset_secId (s : State) : (hardReset s).secId = State.reset.secId := rfl
@[simp] theorem hardReset_cfg (s : State) : (hardReset s).cfg = State.reset.cfg := rfl
@[simp] theorem hardReset_phase (s : State) : (hardReset s).phase = State.reset.phase := rfl
@[simp] theorem hardReset_engCmd (s : State) : (hardReset s).engCmd = State.reset.engCmd := rfl
@[simp] theorem hardReset_engArg (s : State) : (hardReset s).engArg = State.reset.engArg := rfl
@[simp] theorem hardReset_engCfgRegs (s : State) : (hardReset s).engCfgRegs = State.reset.engCfgRegs := rfl
@[simp] theorem hardReset_engView (s : State) : (hardReset s).engView = State.reset.engView := rfl
@[simp] theorem hardReset_bmem (s : State) : (hardReset s).bmem = State.reset.bmem := rfl
@[simp] theorem hardReset_wmem (s : State) : (hardReset s).wmem = State.reset.wmem := rfl
@[simp] theorem hardReset_inputs (s : State) : (hardReset s).inputs = s.inputs := rfl
@[simp] theorem hardReset_readData (s : State) : (hardReset s).readData = s.readData := rfl
@[simp] theorem hardReset_freeCtr (s : State) : (hardReset s).freeCtr = s.freeCtr := rfl

/-! ### Free values in output regions: only the memories and the counter change -/

@[simp] theorem freeRegion_params (s : State) (r : Region) : (freeRegion s r).params = s.params := by
  unfold freeRegion; cases r.mem <;> rfl
@[simp] theorem freeRegion_irqEn (s : State) (r : Region) : (freeRegion s r).irqEn = s.irqEn := by
  unfold freeRegion; cases r.mem <;> rfl
@[simp] theorem freeRegion_done (s : State) (r : Region) : (freeRegion s r).done = s.done := by
  unfold freeRegion; cases r.mem <;> rfl
@[simp] theorem freeRegion_err (s : State) (r : Region) : (freeRegion s r).err = s.err := by
  unfold freeRegion; cases r.mem <;> rfl
@[simp] theorem freeRegion_cfgOk (s : State) (r : Region) : (freeRegion s r).cfgOk = s.cfgOk := by
  unfold freeRegion; cases r.mem <;> rfl
@[simp] theorem freeRegion_ovr (s : State) (r : Region) : (freeRegion s r).ovr = s.ovr := by
  unfold freeRegion; cases r.mem <;> rfl
@[simp] theorem freeRegion_code (s : State) (r : Region) : (freeRegion s r).code = s.code := by
  unfold freeRegion; cases r.mem <;> rfl
@[simp] theorem freeRegion_selTier (s : State) (r : Region) : (freeRegion s r).selTier = s.selTier := by
  unfold freeRegion; cases r.mem <;> rfl
@[simp] theorem freeRegion_cmd (s : State) (r : Region) : (freeRegion s r).cmd = s.cmd := by
  unfold freeRegion; cases r.mem <;> rfl
@[simp] theorem freeRegion_arg (s : State) (r : Region) : (freeRegion s r).arg = s.arg := by
  unfold freeRegion; cases r.mem <;> rfl
@[simp] theorem freeRegion_res (s : State) (r : Region) : (freeRegion s r).res = s.res := by
  unfold freeRegion; cases r.mem <;> rfl
@[simp] theorem freeRegion_cfgRegs (s : State) (r : Region) : (freeRegion s r).cfgRegs = s.cfgRegs := by
  unfold freeRegion; cases r.mem <;> rfl
@[simp] theorem freeRegion_secId (s : State) (r : Region) : (freeRegion s r).secId = s.secId := by
  unfold freeRegion; cases r.mem <;> rfl
@[simp] theorem freeRegion_cfg (s : State) (r : Region) : (freeRegion s r).cfg = s.cfg := by
  unfold freeRegion; cases r.mem <;> rfl
@[simp] theorem freeRegion_phase (s : State) (r : Region) : (freeRegion s r).phase = s.phase := by
  unfold freeRegion; cases r.mem <;> rfl
@[simp] theorem freeRegion_engCmd (s : State) (r : Region) : (freeRegion s r).engCmd = s.engCmd := by
  unfold freeRegion; cases r.mem <;> rfl
@[simp] theorem freeRegion_engArg (s : State) (r : Region) : (freeRegion s r).engArg = s.engArg := by
  unfold freeRegion; cases r.mem <;> rfl
@[simp] theorem freeRegion_engCfgRegs (s : State) (r : Region) : (freeRegion s r).engCfgRegs = s.engCfgRegs := by
  unfold freeRegion; cases r.mem <;> rfl
@[simp] theorem freeRegion_engView (s : State) (r : Region) : (freeRegion s r).engView = s.engView := by
  unfold freeRegion; cases r.mem <;> rfl
@[simp] theorem freeRegion_inputs (s : State) (r : Region) : (freeRegion s r).inputs = s.inputs := by
  unfold freeRegion; cases r.mem <;> rfl
@[simp] theorem freeRegion_readData (s : State) (r : Region) : (freeRegion s r).readData = s.readData := by
  unfold freeRegion; cases r.mem <;> rfl

@[simp] theorem foldl_freeRegion_params (rs : List Region) (s : State) :
    (rs.foldl freeRegion s).params = s.params := by
  induction rs generalizing s with
  | nil => rfl
  | cons r rest ih => simp [ih]
@[simp] theorem freeOutputs_params (s : State) : (freeOutputs s).params = s.params := by
  simp [freeOutputs]
@[simp] theorem foldl_freeRegion_irqEn (rs : List Region) (s : State) :
    (rs.foldl freeRegion s).irqEn = s.irqEn := by
  induction rs generalizing s with
  | nil => rfl
  | cons r rest ih => simp [ih]
@[simp] theorem freeOutputs_irqEn (s : State) : (freeOutputs s).irqEn = s.irqEn := by
  simp [freeOutputs]
@[simp] theorem foldl_freeRegion_done (rs : List Region) (s : State) :
    (rs.foldl freeRegion s).done = s.done := by
  induction rs generalizing s with
  | nil => rfl
  | cons r rest ih => simp [ih]
@[simp] theorem freeOutputs_done (s : State) : (freeOutputs s).done = s.done := by
  simp [freeOutputs]
@[simp] theorem foldl_freeRegion_err (rs : List Region) (s : State) :
    (rs.foldl freeRegion s).err = s.err := by
  induction rs generalizing s with
  | nil => rfl
  | cons r rest ih => simp [ih]
@[simp] theorem freeOutputs_err (s : State) : (freeOutputs s).err = s.err := by
  simp [freeOutputs]
@[simp] theorem foldl_freeRegion_cfgOk (rs : List Region) (s : State) :
    (rs.foldl freeRegion s).cfgOk = s.cfgOk := by
  induction rs generalizing s with
  | nil => rfl
  | cons r rest ih => simp [ih]
@[simp] theorem freeOutputs_cfgOk (s : State) : (freeOutputs s).cfgOk = s.cfgOk := by
  simp [freeOutputs]
@[simp] theorem foldl_freeRegion_ovr (rs : List Region) (s : State) :
    (rs.foldl freeRegion s).ovr = s.ovr := by
  induction rs generalizing s with
  | nil => rfl
  | cons r rest ih => simp [ih]
@[simp] theorem freeOutputs_ovr (s : State) : (freeOutputs s).ovr = s.ovr := by
  simp [freeOutputs]
@[simp] theorem foldl_freeRegion_code (rs : List Region) (s : State) :
    (rs.foldl freeRegion s).code = s.code := by
  induction rs generalizing s with
  | nil => rfl
  | cons r rest ih => simp [ih]
@[simp] theorem freeOutputs_code (s : State) : (freeOutputs s).code = s.code := by
  simp [freeOutputs]
@[simp] theorem foldl_freeRegion_selTier (rs : List Region) (s : State) :
    (rs.foldl freeRegion s).selTier = s.selTier := by
  induction rs generalizing s with
  | nil => rfl
  | cons r rest ih => simp [ih]
@[simp] theorem freeOutputs_selTier (s : State) : (freeOutputs s).selTier = s.selTier := by
  simp [freeOutputs]
@[simp] theorem foldl_freeRegion_cmd (rs : List Region) (s : State) :
    (rs.foldl freeRegion s).cmd = s.cmd := by
  induction rs generalizing s with
  | nil => rfl
  | cons r rest ih => simp [ih]
@[simp] theorem freeOutputs_cmd (s : State) : (freeOutputs s).cmd = s.cmd := by
  simp [freeOutputs]
@[simp] theorem foldl_freeRegion_arg (rs : List Region) (s : State) :
    (rs.foldl freeRegion s).arg = s.arg := by
  induction rs generalizing s with
  | nil => rfl
  | cons r rest ih => simp [ih]
@[simp] theorem freeOutputs_arg (s : State) : (freeOutputs s).arg = s.arg := by
  simp [freeOutputs]
@[simp] theorem foldl_freeRegion_res (rs : List Region) (s : State) :
    (rs.foldl freeRegion s).res = s.res := by
  induction rs generalizing s with
  | nil => rfl
  | cons r rest ih => simp [ih]
@[simp] theorem freeOutputs_res (s : State) : (freeOutputs s).res = s.res := by
  simp [freeOutputs]
@[simp] theorem foldl_freeRegion_cfgRegs (rs : List Region) (s : State) :
    (rs.foldl freeRegion s).cfgRegs = s.cfgRegs := by
  induction rs generalizing s with
  | nil => rfl
  | cons r rest ih => simp [ih]
@[simp] theorem freeOutputs_cfgRegs (s : State) : (freeOutputs s).cfgRegs = s.cfgRegs := by
  simp [freeOutputs]
@[simp] theorem foldl_freeRegion_secId (rs : List Region) (s : State) :
    (rs.foldl freeRegion s).secId = s.secId := by
  induction rs generalizing s with
  | nil => rfl
  | cons r rest ih => simp [ih]
@[simp] theorem freeOutputs_secId (s : State) : (freeOutputs s).secId = s.secId := by
  simp [freeOutputs]
@[simp] theorem foldl_freeRegion_cfg (rs : List Region) (s : State) :
    (rs.foldl freeRegion s).cfg = s.cfg := by
  induction rs generalizing s with
  | nil => rfl
  | cons r rest ih => simp [ih]
@[simp] theorem freeOutputs_cfg (s : State) : (freeOutputs s).cfg = s.cfg := by
  simp [freeOutputs]
@[simp] theorem foldl_freeRegion_phase (rs : List Region) (s : State) :
    (rs.foldl freeRegion s).phase = s.phase := by
  induction rs generalizing s with
  | nil => rfl
  | cons r rest ih => simp [ih]
@[simp] theorem freeOutputs_phase (s : State) : (freeOutputs s).phase = s.phase := by
  simp [freeOutputs]
@[simp] theorem foldl_freeRegion_engCmd (rs : List Region) (s : State) :
    (rs.foldl freeRegion s).engCmd = s.engCmd := by
  induction rs generalizing s with
  | nil => rfl
  | cons r rest ih => simp [ih]
@[simp] theorem freeOutputs_engCmd (s : State) : (freeOutputs s).engCmd = s.engCmd := by
  simp [freeOutputs]
@[simp] theorem foldl_freeRegion_engArg (rs : List Region) (s : State) :
    (rs.foldl freeRegion s).engArg = s.engArg := by
  induction rs generalizing s with
  | nil => rfl
  | cons r rest ih => simp [ih]
@[simp] theorem freeOutputs_engArg (s : State) : (freeOutputs s).engArg = s.engArg := by
  simp [freeOutputs]
@[simp] theorem foldl_freeRegion_engCfgRegs (rs : List Region) (s : State) :
    (rs.foldl freeRegion s).engCfgRegs = s.engCfgRegs := by
  induction rs generalizing s with
  | nil => rfl
  | cons r rest ih => simp [ih]
@[simp] theorem freeOutputs_engCfgRegs (s : State) : (freeOutputs s).engCfgRegs = s.engCfgRegs := by
  simp [freeOutputs]
@[simp] theorem foldl_freeRegion_engView (rs : List Region) (s : State) :
    (rs.foldl freeRegion s).engView = s.engView := by
  induction rs generalizing s with
  | nil => rfl
  | cons r rest ih => simp [ih]
@[simp] theorem freeOutputs_engView (s : State) : (freeOutputs s).engView = s.engView := by
  simp [freeOutputs]
@[simp] theorem foldl_freeRegion_inputs (rs : List Region) (s : State) :
    (rs.foldl freeRegion s).inputs = s.inputs := by
  induction rs generalizing s with
  | nil => rfl
  | cons r rest ih => simp [ih]
@[simp] theorem freeOutputs_inputs (s : State) : (freeOutputs s).inputs = s.inputs := by
  simp [freeOutputs]
@[simp] theorem foldl_freeRegion_readData (rs : List Region) (s : State) :
    (rs.foldl freeRegion s).readData = s.readData := by
  induction rs generalizing s with
  | nil => rfl
  | cons r rest ih => simp [ih]
@[simp] theorem freeOutputs_readData (s : State) : (freeOutputs s).readData = s.readData := by
  simp [freeOutputs]

/-! ### A host write noted -/

@[simp] theorem noteHostWrite_params (s : State) (m : MemId) (a : Nat) :
    (noteHostWrite s m a).params = s.params := by unfold noteHostWrite; split <;> rfl
@[simp] theorem noteHostWrite_irqEn (s : State) (m : MemId) (a : Nat) :
    (noteHostWrite s m a).irqEn = s.irqEn := by unfold noteHostWrite; split <;> rfl
@[simp] theorem noteHostWrite_done (s : State) (m : MemId) (a : Nat) :
    (noteHostWrite s m a).done = s.done := by unfold noteHostWrite; split <;> rfl
@[simp] theorem noteHostWrite_err (s : State) (m : MemId) (a : Nat) :
    (noteHostWrite s m a).err = s.err := by unfold noteHostWrite; split <;> rfl
@[simp] theorem noteHostWrite_cfgOk (s : State) (m : MemId) (a : Nat) :
    (noteHostWrite s m a).cfgOk = s.cfgOk := by unfold noteHostWrite; split <;> rfl
@[simp] theorem noteHostWrite_ovr (s : State) (m : MemId) (a : Nat) :
    (noteHostWrite s m a).ovr = s.ovr := by unfold noteHostWrite; split <;> rfl
@[simp] theorem noteHostWrite_code (s : State) (m : MemId) (a : Nat) :
    (noteHostWrite s m a).code = s.code := by unfold noteHostWrite; split <;> rfl
@[simp] theorem noteHostWrite_selTier (s : State) (m : MemId) (a : Nat) :
    (noteHostWrite s m a).selTier = s.selTier := by unfold noteHostWrite; split <;> rfl
@[simp] theorem noteHostWrite_cmd (s : State) (m : MemId) (a : Nat) :
    (noteHostWrite s m a).cmd = s.cmd := by unfold noteHostWrite; split <;> rfl
@[simp] theorem noteHostWrite_arg (s : State) (m : MemId) (a : Nat) :
    (noteHostWrite s m a).arg = s.arg := by unfold noteHostWrite; split <;> rfl
@[simp] theorem noteHostWrite_res (s : State) (m : MemId) (a : Nat) :
    (noteHostWrite s m a).res = s.res := by unfold noteHostWrite; split <;> rfl
@[simp] theorem noteHostWrite_cfgRegs (s : State) (m : MemId) (a : Nat) :
    (noteHostWrite s m a).cfgRegs = s.cfgRegs := by unfold noteHostWrite; split <;> rfl
@[simp] theorem noteHostWrite_secId (s : State) (m : MemId) (a : Nat) :
    (noteHostWrite s m a).secId = s.secId := by unfold noteHostWrite; split <;> rfl
@[simp] theorem noteHostWrite_cfg (s : State) (m : MemId) (a : Nat) :
    (noteHostWrite s m a).cfg = s.cfg := by unfold noteHostWrite; split <;> rfl
@[simp] theorem noteHostWrite_phase (s : State) (m : MemId) (a : Nat) :
    (noteHostWrite s m a).phase = s.phase := by unfold noteHostWrite; split <;> rfl
@[simp] theorem noteHostWrite_engCmd (s : State) (m : MemId) (a : Nat) :
    (noteHostWrite s m a).engCmd = s.engCmd := by unfold noteHostWrite; split <;> rfl
@[simp] theorem noteHostWrite_engArg (s : State) (m : MemId) (a : Nat) :
    (noteHostWrite s m a).engArg = s.engArg := by unfold noteHostWrite; split <;> rfl
@[simp] theorem noteHostWrite_engCfgRegs (s : State) (m : MemId) (a : Nat) :
    (noteHostWrite s m a).engCfgRegs = s.engCfgRegs := by unfold noteHostWrite; split <;> rfl
@[simp] theorem noteHostWrite_bmem (s : State) (m : MemId) (a : Nat) :
    (noteHostWrite s m a).bmem = s.bmem := by unfold noteHostWrite; split <;> rfl
@[simp] theorem noteHostWrite_wmem (s : State) (m : MemId) (a : Nat) :
    (noteHostWrite s m a).wmem = s.wmem := by unfold noteHostWrite; split <;> rfl
@[simp] theorem noteHostWrite_inputs (s : State) (m : MemId) (a : Nat) :
    (noteHostWrite s m a).inputs = s.inputs := by unfold noteHostWrite; split <;> rfl
@[simp] theorem noteHostWrite_readData (s : State) (m : MemId) (a : Nat) :
    (noteHostWrite s m a).readData = s.readData := by unfold noteHostWrite; split <;> rfl
@[simp] theorem noteHostWrite_freeCtr (s : State) (m : MemId) (a : Nat) :
    (noteHostWrite s m a).freeCtr = s.freeCtr := by unfold noteHostWrite; split <;> rfl

/-! ### Soft reset -/

@[simp] theorem softReset_params (s : State) : (softReset s).params = s.params := by
  unfold softReset; split <;> simp
@[simp] theorem softReset_irqEn (s : State) : (softReset s).irqEn = State.reset.irqEn := rfl
@[simp] theorem softReset_done (s : State) : (softReset s).done = State.reset.done := rfl
@[simp] theorem softReset_err (s : State) : (softReset s).err = State.reset.err := rfl
@[simp] theorem softReset_cfgOk (s : State) : (softReset s).cfgOk = State.reset.cfgOk := rfl
@[simp] theorem softReset_ovr (s : State) : (softReset s).ovr = State.reset.ovr := rfl
@[simp] theorem softReset_code (s : State) : (softReset s).code = State.reset.code := rfl
@[simp] theorem softReset_selTier (s : State) : (softReset s).selTier = State.reset.selTier := rfl
@[simp] theorem softReset_cmd (s : State) : (softReset s).cmd = State.reset.cmd := rfl
@[simp] theorem softReset_arg (s : State) : (softReset s).arg = State.reset.arg := rfl
@[simp] theorem softReset_res (s : State) : (softReset s).res = State.reset.res := rfl
@[simp] theorem softReset_cfgRegs (s : State) : (softReset s).cfgRegs = State.reset.cfgRegs := rfl
@[simp] theorem softReset_secId (s : State) : (softReset s).secId = State.reset.secId := rfl
@[simp] theorem softReset_cfg (s : State) : (softReset s).cfg = State.reset.cfg := rfl
@[simp] theorem softReset_phase (s : State) : (softReset s).phase = State.reset.phase := rfl
@[simp] theorem softReset_engCmd (s : State) : (softReset s).engCmd = State.reset.engCmd := rfl
@[simp] theorem softReset_engArg (s : State) : (softReset s).engArg = State.reset.engArg := rfl
@[simp] theorem softReset_engCfgRegs (s : State) : (softReset s).engCfgRegs = State.reset.engCfgRegs := rfl
@[simp] theorem softReset_engView (s : State) : (softReset s).engView = State.reset.engView := rfl
@[simp] theorem softReset_inputs (s : State) : (softReset s).inputs = s.inputs := by
  unfold softReset; split <;> simp
@[simp] theorem softReset_readData (s : State) : (softReset s).readData = s.readData := by
  unfold softReset; split <;> simp

/-- A soft reset of an idle block keeps both memories. -/
theorem softReset_idle (s : State) (h : s.phase = .idle) :
    (softReset s).bmem = s.bmem ∧ (softReset s).wmem = s.wmem := by
  simp [softReset, h]

/-- A soft reset of a busy block frees the output regions of the command it aborts. -/
theorem softReset_busy (s : State) (h : s.phase = .busy) :
    (softReset s).bmem = (freeOutputs s).bmem ∧ (softReset s).wmem = (freeOutputs s).wmem := by
  simp [softReset, h]

end Sys2Proof.Machine
end

