-- ==== Sys2Proof/Laws/Ops.lean ====
section
/-!
SUPPORT. What each shared operation can do, said once: the region checks (20_memory.md R87, R88), the
checks before a command (60_exceptions.md R351), a guarded command, and completion.
-/

namespace Sys2Proof.Machine

/-! ### Regions -/

/-- 20_memory.md R87, as a proposition. -/
theorem Region.inRange_iff {p : Params} {r : Region} :
    Region.inRange p r = true ↔ r.len = 0 ∨ r.base + r.len ≤ Params.sizeOf p r.mem := by
  simp [Region.inRange]

/-- 20_memory.md R88, as a proposition. -/
theorem Region.overlaps_iff {a b : Region} :
    Region.overlaps a b = true ↔
      a.mem = b.mem ∧ a.len ≠ 0 ∧ b.len ≠ 0 ∧ a.base < b.base + b.len ∧ b.base < a.base + a.len := by
  simp [Region.overlaps, and_assoc]

theorem Region.not_overlaps_of_mem {a b : Region} (h : a.mem ≠ b.mem) :
    Region.overlaps a b = false := by simp [Region.overlaps, h]

theorem Region.holds_iff {r : Region} {m : MemId} {a : Nat} :
    Region.holds r m a = true ↔ r.mem = m ∧ r.base ≤ a ∧ a < r.base + r.len := by
  simp [Region.holds, and_assoc]

theorem Region.holds_eq_false_iff {r : Region} {m : MemId} {a : Nat} :
    Region.holds r m a = false ↔ (r.mem = m → a < r.base ∨ r.base + r.len ≤ a) := by
  rw [← Bool.not_eq_true, Region.holds_iff]
  constructor
  · intro h hm
    by_contra hc
    exact h ⟨hm, by omega, by omega⟩
  · rintro h ⟨hm, _, _⟩
    have := h hm
    omega

/-- The regions of a command with one input and one output are in range when both are. -/
theorem Regions.inRange_pair {p : Params} {a b : Region} {ip : Bool} :
    Regions.inRange p ⟨[a], [b], ip⟩ = true ↔
      Region.inRange p a = true ∧ Region.inRange p b = true := by
  simp [Regions.inRange]

/-- The regions of a command with one input and one output clash when they overlap, but for the
identical regions of an in-place command. -/
theorem Regions.clash_pair {a b : Region} {ip : Bool} :
    Regions.clash ⟨[a], [b], ip⟩ = (!(ip && a == b) && Region.overlaps a b) := by
  simp [Regions.clash, anyOverlap]

/-- Input and output in different memories never clash. -/
theorem Regions.clash_pair_of_mem {a b : Region} {ip : Bool} (h : a.mem ≠ b.mem) :
    Regions.clash ⟨[a], [b], ip⟩ = false := by
  rw [Regions.clash_pair, Region.not_overlaps_of_mem h, Bool.and_false]

/-! ### The checks before a command -/

/-- The checks pass exactly when the fields are legal, the block is configured, and the regions are in
range and do not clash. -/
theorem precheck_none_iff {i : Instr} {s : State} :
    precheck i s = none ↔
      i.wf = true ∧ s.cfgOk = true ∧ (commandRegions i s).inRange s.params = true ∧
        (commandRegions i s).clash = false := by
  unfold precheck
  cases i.wf <;> cases s.cfgOk <;> cases (commandRegions i s).inRange s.params <;>
    cases (commandRegions i s).clash <;> simp

/-- The checks give one of four codes, none of them OK. -/
theorem precheck_codes {i : Instr} {s : State} {c : Code} (h : precheck i s = some c) :
    c = .illegalCommand ∨ c = .notConfigured ∨ c = .addressError ∨ c = .contractViolation := by
  unfold precheck at h
  split at h
  · simp_all
  · split at h
    · simp_all
    · split at h
      · simp_all
      · split at h <;> simp_all

theorem precheck_illegal {i : Instr} {s : State} (h : i.wf = false) :
    precheck i s = some .illegalCommand := by simp [precheck, h]

theorem precheck_notConfigured {i : Instr} {s : State} (hw : i.wf = true) (h : s.cfgOk = false) :
    precheck i s = some .notConfigured := by simp [precheck, hw, h]

/-- What a guarded command can do: complete with the code of a failing check, or run. -/
theorem guarded_cases (i : Instr) (s : State) (run : State → State) :
    (∃ c, precheck i s = some c ∧ guarded i s run = .next (complete c s)) ∨
      (precheck i s = none ∧ guarded i s run = .next (run s)) := by
  unfold guarded
  cases precheck i s with
  | none => exact .inr ⟨rfl, rfl⟩
  | some c => exact .inl ⟨c, rfl, rfl⟩

theorem guarded_run {i : Instr} {s : State} {run : State → State} (h : precheck i s = none) :
    guarded i s run = .next (run s) := by simp [guarded, h]

theorem guarded_fail {i : Instr} {s : State} {run : State → State} {c : Code}
    (h : precheck i s = some c) : guarded i s run = .next (complete c s) := by simp [guarded, h]

/-- A guarded command always answers a next state. -/
theorem guarded_next (i : Instr) (s : State) (run : State → State) :
    ∃ t, guarded i s run = .next t := by
  rcases guarded_cases i s run with ⟨c, -, h⟩ | ⟨-, h⟩ <;> exact ⟨_, h⟩

/-- Every property of the two ends of a guarded command is one of its next state. -/
theorem guarded_elim {i : Instr} {s t : State} {run : State → State} {P : State → Prop}
    (h : guarded i s run = .next t) (hf : ∀ c, precheck i s = some c → P (complete c s))
    (hr : precheck i s = none → P (run s)) : P t := by
  rcases guarded_cases i s run with ⟨c, hc, hg⟩ | ⟨hc, hg⟩
  · rw [hg] at h; cases h; exact hf c hc
  · rw [hg] at h; cases h; exact hr hc

/-! ### Completion and acceptance, as whole states -/

/-- Completion changes the flags, the phase and nothing else. -/
theorem complete_eq (c : Code) (s : State) :
    complete c s =
      { s with code := c, err := c != .ok, done := true, phase := .idle, engView := none } := rfl

@[simp] theorem commandRegions_congr {i : Instr} {s t : State} (ha : t.engArg = s.engArg)
    (hc : t.cfg = s.cfg) : commandRegions i t = commandRegions i s := by
  simp [commandRegions, ha, hc]

@[simp] theorem fixedSamples_length (m : Memory 16) (a n : Nat) :
    (fixedSamples m a n).length = n := by simp [fixedSamples]

@[simp] theorem fixedSamples_getElem (m : Memory 16) (a n k : Nat)
    (h : k < (fixedSamples m a n).length) :
    (fixedSamples m a n)[k] = (Memory.read m (a + k)).toInt := by simp [fixedSamples]

end Sys2Proof.Machine
end

