-- ==== Sys2Proof/Laws/Exec.lean ====
section
/-!
SUPPORT. What running a command can do, said once for each command: the loop laws of MSG_DEC and
MSG_ENC, where a command writes, and the shape of the next state of every command but INIT.
-/

namespace Sys2Proof.Machine

/-! ### Where a command writes -/

/-- The memories `b` and `m` differ from those of `s` inside the regions `rs` only, and are canonical
and in range where those were. -/
structure WritesIn (rs : List Region) (s : State) (b : Memory 8) (m : Memory 16) : Prop where
  bmem : ∀ a, (∀ r ∈ rs, Region.holds r .b a = false) → Memory.read b a = Memory.read s.bmem a
  wmem : ∀ a, (∀ r ∈ rs, Region.holds r .w a = false) → Memory.read m a = Memory.read s.wmem a
  bmemWf : Memory.wf s.bmem → Memory.wf b
  wmemWf : Memory.wf s.wmem → Memory.wf m
  bmemBelow : (∀ r ∈ rs, Region.inRange s.params r = true) →
    Memory.below s.params.bmemSize s.bmem → Memory.below s.params.bmemSize b
  wmemBelow : (∀ r ∈ rs, Region.inRange s.params r = true) →
    Memory.below s.params.wmemSize s.wmem → Memory.below s.params.wmemSize m

theorem WritesIn.refl (rs : List Region) (s : State) : WritesIn rs s s.bmem s.wmem :=
  ⟨fun _ _ => rfl, fun _ _ => rfl, id, id, fun _ => id, fun _ => id⟩

/-- One more range write of BMEM inside a region of the list. -/
theorem WritesIn.writeB {rs : List Region} {s : State} {b : Memory 8} {m : Memory 16}
    (h : WritesIn rs s b m) {base len : Nat} (hr : (⟨.b, base, len⟩ : Region) ∈ rs) (a : Nat)
    (vs : List Byte) (hlo : base ≤ a) (hhi : a + vs.length ≤ base + len) :
    WritesIn rs s (Memory.writeRange b a vs) m := by
  refine ⟨fun x hx => ?_, h.wmem, fun hw => Memory.writeRange_wf (h.bmemWf hw) _ _, h.wmemWf,
    fun hin hb => Memory.writeRange_below (h.bmemBelow hin hb) _ ?_, h.wmemBelow⟩
  · rw [Memory.read_writeRange_out _ _ _ ?_, h.bmem x hx]
    have := hx _ hr
    by_contra hc
    rw [Region.holds_iff.mpr ⟨rfl, by simp only; omega, by simp only; omega⟩] at this
    cases this
  · have := Region.inRange_iff.mp (hin _ hr)
    simp only [Params.sizeOf] at this
    by_cases hv : vs = []
    · exact .inl hv
    · have : 0 < vs.length := List.length_pos_of_ne_nil hv
      right; omega

/-- One more range write of WMEM inside a region of the list. -/
theorem WritesIn.writeW {rs : List Region} {s : State} {b : Memory 8} {m : Memory 16}
    (h : WritesIn rs s b m) {base len : Nat} (hr : (⟨.w, base, len⟩ : Region) ∈ rs) (a : Nat)
    (vs : List Sample) (hlo : base ≤ a) (hhi : a + vs.length ≤ base + len) :
    WritesIn rs s b (Memory.writeRange m a vs) := by
  refine ⟨h.bmem, fun x hx => ?_, h.bmemWf, fun hw => Memory.writeRange_wf (h.wmemWf hw) _ _,
    h.bmemBelow, fun hin hb => Memory.writeRange_below (h.wmemBelow hin hb) _ ?_⟩
  · rw [Memory.read_writeRange_out _ _ _ ?_, h.wmem x hx]
    have := hx _ hr
    by_contra hc
    rw [Region.holds_iff.mpr ⟨rfl, by simp only; omega, by simp only; omega⟩] at this
    cases this
  · have := Region.inRange_iff.mp (hin _ hr)
    simp only [Params.sizeOf] at this
    by_cases hv : vs = []
    · exact .inl hv
    · have : 0 < vs.length := List.length_pos_of_ne_nil hv
      right; omega

/-! ### Blocks -/

@[simp] theorem compressRb_length (rule : ExpRule) (x : List Int) (w : Nat) :
    (compressRb rule x w).length = 1 + packedBytes x.length w := by
  simp [compressRb]; omega

@[simp] theorem rbMantissas_length (b : List Byte) (w : Nat) : (rbMantissas b w).length = 24 := by
  simp [rbMantissas, rbValues]

@[simp] theorem decompressRbFloat_length (fmt : FloatFmt) (b : List Byte) (w : Nat) :
    (decompressRbFloat fmt b w).length = 24 := by simp [decompressRbFloat]

@[simp] theorem rawRecord_length (b : List Byte) (w : Nat) : (rawRecord b w).length = 25 := by
  simp [rawRecord]

@[simp] theorem fixedRb_length (m : Memory 16) (src r : Nat) : (fixedRb m src r).length = 24 := by
  simp [fixedRb, rbValues]

@[simp] theorem quantizedRb_length (s : State) (src r : Nat) :
    (quantizedRb s src r).length = 24 := by simp [quantizedRb, rbValues]

@[simp] theorem rbSamples_length (fmt : FloatFmt) (method w : Nat) (b : List Byte) :
    (rbSamples fmt method w b).length = 24 := by
  unfold rbSamples; split <;> simp [rbValues]

/-- A list of n pieces of `size` elements each has n·size elements. -/
theorem flatMap_range_length {α : Type} (n size : Nat) (f : Nat → List α)
    (h : ∀ k, k < n → (f k).length = size) : ((List.range n).flatMap f).length = n * size := by
  induction n with
  | zero => simp
  | succ n ih =>
    rw [List.range_succ, List.flatMap_append, List.length_append,
      ih fun k hk => h k (by omega)]
    simp [h n (by omega)]; ring

/-- Element i of piece r of a list of n pieces of `size` elements each. -/
theorem flatMap_range_getElem? {α : Type} (n size : Nat) (f : Nat → List α)
    (h : ∀ k, k < n → (f k).length = size) {r i : Nat} (hr : r < n) (hi : i < size) :
    ((List.range n).flatMap f)[r * size + i]? = (f r)[i]? := by
  induction n with
  | zero => omega
  | succ n ih =>
    have hl := flatMap_range_length n size f fun k hk => h k (by omega)
    rw [List.range_succ, List.flatMap_append]
    by_cases hrn : r < n
    · rw [List.getElem?_append_left, ih (fun k hk => h k (by omega)) hrn]
      rw [hl]
      calc r * size + i < r * size + size := by omega
        _ = (r + 1) * size := by ring
        _ ≤ n * size := Nat.mul_le_mul_right _ hrn
    · have : r = n := by omega
      subst this
      rw [List.getElem?_append_right (by rw [hl]; omega), hl]
      simp

theorem sectionSamples_length (e : DecEnv) (method w cur n : Nat) :
    (sectionSamples e method w cur n).length = 24 * n := by
  rw [sectionSamples, flatMap_range_length n 24 _ fun k _ => rbSamples_length _ _ _ _, Nat.mul_comm]

@[simp] theorem descriptorWords_length (d : Section) : (descriptorWords d).length = 8 := rfl

@[simp] theorem buildHeader_length (h : MsgHeader) : (buildHeader h).length = 4 := rfl

@[simp] theorem buildSecHeader_length (h : SecHeader) : (buildSecHeader h).length = 4 := rfl

@[simp] theorem buildCompHeader_length (m : BitVec 4) (w : Nat) :
    (buildCompHeader m w).length = 2 := rfl

end Sys2Proof.Machine
end

