-- ==== Sys2Proof/Laws/Stream.lean ====
section
/-!
SUPPORT. The bits of packed and unpacked values, one at a time (41_bitpack.md R191, R192): where a
value's bits lie in the bytes of a stream, and what the fields of a stream are.
-/

namespace Sys2Proof.Machine

/-- Element k of the pieces of a list, all of `w` elements. -/
theorem flatMap_getElem?_of_length {α β : Type} (f : α → List β) {w : Nat} (hw : 0 < w)
    (hf : ∀ x, (f x).length = w) (l : List α) (k : Nat) :
    (l.flatMap f)[k]? = (l[k / w]?).bind (fun x => (f x)[k % w]?) := by
  induction l generalizing k with
  | nil => simp
  | cons x rest ih =>
    rw [List.flatMap_cons]
    by_cases hk : k < w
    · rw [List.getElem?_append_left (by rw [hf]; exact hk), Nat.div_eq_of_lt hk,
        Nat.mod_eq_of_lt hk]
      rfl
    · rw [List.getElem?_append_right (by rw [hf]; omega), hf, ih]
      have h1 : k / w = (k - w) / w + 1 := by
        rw [Nat.div_eq_sub_div hw (by omega)]
      have h2 : k % w = (k - w) % w := Nat.mod_eq_sub_mod (by omega)
      rw [h1, h2]
      rfl

/-- Stream bit k of the values: bit `w − 1 − (k mod w)` of value `k div w` (41_bitpack.md R191). -/
theorem flatMap_valueBits_getElem? {w : Nat} (hw : 0 < w) (v : List Int) (k : Nat) :
    (v.flatMap (valueBits w))[k]? =
      (v[k / w]?).map (fun x : Int => (x % (2 ^ w : Nat)).toNat.testBit (w - 1 - k % w)) := by
  rw [flatMap_getElem?_of_length _ hw (valueBits_length w)]
  have hk : k % w < w := Nat.mod_lt _ hw
  cases v[k / w]? with
  | none => rfl
  | some x => simp [valueBits, hk]

/-- Stream bit k of bytes: bit `7 − (k mod 8)` of byte `k div 8` (30_encoding.md R135). -/
theorem flatMap_byteBits_getElem? (b : List Byte) (k : Nat) :
    (b.flatMap byteBits)[k]? = (b[k / 8]?).map (fun x => x.getLsbD (7 - k % 8)) := by
  rw [flatMap_getElem?_of_length _ (by omega) byteBits_length]
  have hk : k % 8 < 8 := Nat.mod_lt _ (by omega)
  cases b[k / 8]? with
  | none => rfl
  | some x => simp [byteBits, hk]

/-- Bit `7 − (k mod 8)` of byte `k div 8` of a packed stream is stream bit k, or 0 past its end. -/
theorem bytesOfBits_bit (nb : Nat) (bits : List Bool) {k : Nat} (hk : k < 8 * nb) :
    ((bytesOfBits nb bits).getD (k / 8) 0#8).getLsbD (7 - k % 8) = bits.getD k false := by
  have h := congrArg (fun l => l[k]?) (flatMap_byteBits_bytesOfBits nb bits)
  simp only [flatMap_byteBits_getElem?] at h
  have hlt : k / 8 < (bytesOfBits nb bits).length := by simp; omega
  rw [List.getElem?_eq_getElem hlt, Option.map_some, List.getElem?_take, if_pos hk,
    List.getElem?_append] at h
  rw [List.getD_eq_getElem?_getD, List.getElem?_eq_getElem hlt, Option.getD_some,
    List.getD_eq_getElem?_getD]
  split at h
  · rw [List.getElem?_eq_getElem ‹_›] at h ⊢
    simpa using h
  · rename_i hge
    rw [List.getElem?_eq_none (by omega)]
    rw [List.getElem?_replicate, if_pos (by omega)] at h
    simpa using h

/-- The bits of packed values: bit `w − 1 − (k mod w)` of value `k div w`, pad bits 0 (41_bitpack.md
R191). -/
theorem packBits_bit {w : Nat} (hw : 0 < w) (v : List Int) {k : Nat}
    (hk : k < 8 * packedBytes v.length w) :
    ((packBits w v).getD (k / 8) 0#8).getLsbD (7 - k % 8) =
      if k < v.length * w then (v.getD (k / w) 0 % (2 ^ w : Nat)).toNat.testBit (w - 1 - k % w)
      else false := by
  rw [packBits, bytesOfBits_bit _ _ hk, List.getD_eq_getElem?_getD, flatMap_valueBits_getElem? hw]
  split
  · rename_i h
    have hlt : k / w < v.length := (Nat.div_lt_iff_lt_mul hw).mpr h
    rw [List.getD_eq_getElem?_getD, List.getElem?_eq_getElem hlt]
    simp
  · rename_i h
    have hge : v.length ≤ k / w := (Nat.le_div_iff_mul_le hw).mpr (by omega)
    rw [List.getElem?_eq_none hge]
    simp

/-- The low bits of an integer's pattern do not depend on the width. -/
theorem testBit_pattern (x : Int) {w j : Nat} (hj : j < w) (hw : w ≤ 16) :
    (x % (2 ^ w : Nat)).toNat.testBit j = (tc16 x).getLsbD j := by
  have hd : ((2 ^ w : Nat) : Int) ∣ ((2 ^ 16 : Nat) : Int) := by
    exact_mod_cast pow_dvd_pow 2 hw
  have hmod : x % ((2 ^ 16 : Nat) : Int) % ((2 ^ w : Nat) : Int) = x % ((2 ^ w : Nat) : Int) :=
    Int.emod_emod_of_dvd x hd
  have h16 : (tc16 x).toNat = (x % ((2 ^ 16 : Nat) : Int)).toNat := BitVec.toNat_ofInt x
  have hnn : 0 ≤ x % ((2 ^ 16 : Nat) : Int) := Int.emod_nonneg _ (by norm_num)
  have hnat : (tc16 x).toNat % 2 ^ w = (x % ((2 ^ w : Nat) : Int)).toNat := by
    rw [h16, ← hmod]
    generalize x % ((2 ^ 16 : Nat) : Int) = y at *
    obtain ⟨n, rfl⟩ := Int.eq_ofNat_of_zero_le hnn
    norm_cast
  rw [← hnat, Nat.testBit_mod_two_pow, BitVec.getLsbD]
  simp [hj]

/-- A word holds its own integer. -/
theorem tc16_toInt (v : Sample) : tc16 v.toInt = v := BitVec.ofInt_toInt

/-- The integer of a word that an integer in range was put into. -/
theorem toInt_tc16 {x : Int} (h1 : -32768 ≤ x) (h2 : x ≤ 32767) : (tc16 x).toInt = x := by
  unfold tc16
  rw [BitVec.toInt_ofInt, Int.bmod_def]
  norm_num
  split <;> omega

/-- An arithmetic shift of a word (00_scope.md R13). -/
theorem tc16_asr (v : Sample) (e : Nat) : tc16 (asr v.toInt e) = v.sshiftRight e := by
  apply BitVec.eq_of_toInt_eq
  have h : asr v.toInt e = (v.sshiftRight e).toInt := by
    rw [BitVec.toInt_sshiftRight, asr, Int.shiftRight_eq_div_pow]
  rw [h, tc16_toInt]

/-- The bits of the word of a sign-extended field: the field's bits, then its top bit
(41_bitpack.md R192). -/
theorem tc16_sext_getLsbD {w u j : Nat} (hw1 : 1 ≤ w) (hu : u < 2 ^ w) (hj : j < 16) :
    (tc16 (sext w u)).getLsbD j = u.testBit (min j (w - 1)) := by
  have hs : sext w u = (BitVec.ofNat w u).toInt := by
    rw [BitVec.toInt_eq_msb_cond, BitVec.msb_eq_getLsbD_last, BitVec.getLsbD_ofNat, sext,
      BitVec.toNat_ofNat, Nat.mod_eq_of_lt hu]
    simp only [show w - 1 < w by omega, decide_true, Bool.true_and]
  have he : tc16 (sext w u) = (BitVec.ofNat w u).signExtend 16 := by rw [hs]; rfl
  rw [he, BitVec.getLsbD_signExtend]
  by_cases hjw : j < w
  · rw [if_pos hjw, BitVec.getLsbD_ofNat]
    simp [hjw, hj, show min j (w - 1) = j by omega]
  · rw [if_neg hjw, BitVec.msb_eq_getLsbD_last, BitVec.getLsbD_ofNat]
    simp [hj, show w - 1 < w by omega, show min j (w - 1) = w - 1 by omega]

/-- Field i of a stream (41_bitpack.md R192). -/
theorem readFields_getElem? (w n : Nat) (bits : List Bool) {i : Nat} (hi : i < n) :
    (readFields w n bits)[i]? = some (sext w (bitsToNat ((bits.drop (i * w)).take w))) := by
  induction n generalizing bits i with
  | zero => omega
  | succ n ih =>
    cases i with
    | zero => simp [readFields]
    | succ i =>
      rw [readFields, List.getElem?_cons_succ, ih _ (by omega), List.drop_drop]
      congr 5
      ring

/-- A word that is field i of the stream in memory is determined by the stream. -/
theorem IsField.unique {m : Memory 8} {base w i : Nat} {u v : Sample} (hu : IsField m base w i u)
    (hv : IsField m base w i v) : u = v :=
  BitVec.eq_of_getLsbD_eq fun j hj => (hu j hj).trans (hv j hj).symm

/-- Unpacking a range of memory gives the fields of its stream (41_bitpack.md R192). -/
theorem isField_unpackBits (m : Memory 8) (base : Nat) {w n nb i : Nat} (hw : 1 ≤ w)
    (hi : i < n) (hn : n * w ≤ 8 * nb) :
    IsField m base w i
      (tc16 ((unpackBits w n (Memory.readRange m base nb)).getD i 0)) := by
  intro j hj
  have hlt : i * w + w ≤ n * w := by rw [← Nat.succ_mul]; exact Nat.mul_le_mul_right _ hi
  have hlen : (((Memory.readRange m base nb).flatMap byteBits).drop (i * w)).length =
      8 * nb - i * w := by
    rw [List.length_drop, flatMap_byteBits_length, Memory.readRange_length]; omega
  have htl : ((((Memory.readRange m base nb).flatMap byteBits).drop (i * w)).take w).length = w := by
    rw [List.length_take, hlen]; omega
  have hbits := bitsToNat_lt
    ((((Memory.readRange m base nb).flatMap byteBits).drop (i * w)).take w)
  rw [htl] at hbits
  rw [List.getD_eq_getElem?_getD, unpackBits, readFields_getElem? _ _ _ hi, Option.getD_some,
    tc16_sext_getLsbD hw hbits hj]
  have hk : min j (w - 1) < w := by omega
  rw [bitsToNat_testBit _ _ (by rw [htl]; exact hk)]
  have hget : ((((Memory.readRange m base nb).flatMap byteBits).drop (i * w)).take w)[
      w - 1 - min j (w - 1)]? =
      some (streamBit m base (i * w + (w - 1 - min j (w - 1)))) := by
    rw [List.getElem?_take, if_pos (by omega), List.getElem?_drop, flatMap_byteBits_getElem?,
      Memory.readRange_getElem? (by omega)]
    rfl
  rw [List.getElem?_eq_getElem (by rw [htl]; omega), Option.some_inj] at hget
  rw [← hget]
  congr 1
  omega

end Sys2Proof.Machine
end

