-- ==== Sys2Proof/Laws/Bfp.lean ====
section
/-!
SUPPORT. The laws of the BFP engine (42_bfp.md): the exponent search, and one resource block compressed
and read back.
-/

namespace Sys2Proof.Machine

/-- `bitlen(m) ≤ k` exactly when m < 2^k (00_scope.md R13). -/
theorem bitlen_le_iff (m k : Nat) : bitlen m ≤ k ↔ m < 2 ^ k := by
  unfold bitlen
  split
  · rename_i h; subst h; simp
  · rename_i h
    rw [Nat.add_one_le_iff, Nat.log2_lt h]

/-- `bitlen(m)` is the b with 2^(b − 1) ≤ m < 2^b, and 0 for 0 (00_scope.md R13). -/
theorem bitlen_eq {m b : Nat} (h1 : m < 2 ^ b) (h2 : b = 0 ∨ 2 ^ (b - 1) ≤ m) : bitlen m = b := by
  have hle := (bitlen_le_iff m b).mpr h1
  have hge := (bitlen_le_iff m (b - 1)).mp
  omega

/-- `x ≥ 0 ? x : −1 − x`, the number whose bits the sign bit repeats (42_bfp.md R210). -/
def signedMagnitude (v : Int) : Nat := if 0 ≤ v then v.toNat else (-1 - v).toNat

/-- A shifted value fits w bits exactly when the exponent leaves its magnitude w − 1 bits. -/
theorem fits_asr_iff (v : Int) (w e : Nat) :
    fits (asr v e) w = true ↔ signedMagnitude v < 2 ^ (w - 1 + e) := by
  have hp : (0 : Int) < ((2 ^ e : Nat) : Int) := by positivity
  have hmul : ((2 ^ (w - 1) : Nat) : Int) * ((2 ^ e : Nat) : Int) = ((2 ^ (w - 1 + e) : Nat) : Int) := by
    rw [pow_add]; push_cast; ring
  simp only [fits, Bool.and_eq_true, decide_eq_true_eq]
  unfold asr
  have h1 : -((2 ^ (w - 1) : Nat) : Int) ≤ v / ((2 ^ e : Nat) : Int) ↔
      -((2 ^ (w - 1 + e) : Nat) : Int) ≤ v := by
    rw [Int.le_ediv_iff_mul_le hp, neg_mul, hmul]
  have h2 : v / ((2 ^ e : Nat) : Int) ≤ ((2 ^ (w - 1) : Nat) : Int) - 1 ↔
      v < ((2 ^ (w - 1 + e) : Nat) : Int) := by
    rw [Int.le_sub_one_iff, Int.ediv_lt_iff_lt_mul hp, hmul]
  rw [h1, h2]
  unfold signedMagnitude
  generalize 2 ^ (w - 1 + e) = p
  split <;> omega

/-- The fold of a maximum: an upper bound that is attained. -/
theorem foldl_max_spec (f : Int → Nat) (x : List Int) (m0 : Nat) :
    m0 ≤ x.foldl (fun m v => max m (f v)) m0 ∧
      (∀ v ∈ x, f v ≤ x.foldl (fun m v => max m (f v)) m0) ∧
      (x.foldl (fun m v => max m (f v)) m0 = m0 ∨
        ∃ v ∈ x, x.foldl (fun m v => max m (f v)) m0 = f v) := by
  induction x generalizing m0 with
  | nil => simp
  | cons a rest ih =>
    obtain ⟨h1, h2, h3⟩ := ih (max m0 (f a))
    simp only [List.foldl_cons]
    refine ⟨by omega, ?_, ?_⟩
    · intro v hv
      rcases List.mem_cons.mp hv with rfl | hv
      · omega
      · exact h2 v hv
    · rcases h3 with h3 | ⟨v, hv, h3⟩
      · rcases Nat.le_total m0 (f a) with h | h
        · right; exact ⟨a, by simp, by rw [h3]; omega⟩
        · left; rw [h3]; omega
      · right; exact ⟨v, by simp [hv], h3⟩

theorem maxSignedMagnitude_spec (x : List Int) :
    (∀ v ∈ x, signedMagnitude v ≤ maxSignedMagnitude x) ∧
      (maxSignedMagnitude x = 0 ∨ ∃ v ∈ x, maxSignedMagnitude x = signedMagnitude v) :=
  (foldl_max_spec signedMagnitude x 0).2

theorem maxMagnitude_spec (x : List Int) :
    (∀ v ∈ x, v.natAbs ≤ maxMagnitude x) ∧
      (maxMagnitude x = 0 ∨ ∃ v ∈ x, maxMagnitude x = v.natAbs) :=
  (foldl_max_spec Int.natAbs x 0).2

/-- The exponent bounds the block exactly when its largest magnitude is bounded. -/
theorem exponentSigned_le_iff (x : List Int) {w : Nat} (e : Nat) :
    exponentSigned x w ≤ e ↔ maxSignedMagnitude x < 2 ^ (w - 1 + e) := by
  rw [← bitlen_le_iff, exponentSigned]; omega

theorem signedMagnitude_le_natAbs (v : Int) : signedMagnitude v ≤ v.natAbs := by
  unfold signedMagnitude; split <;> omega

/-- Shifting down and back up loses less than one step (42_bfp.md R216). -/
theorem asr_mul_bounds (v : Int) (e : Nat) :
    v - ((2 ^ e : Nat) : Int) < asr v e * ((2 ^ e : Nat) : Int) ∧
      asr v e * ((2 ^ e : Nat) : Int) ≤ v := by
  have hp : (0 : Int) < ((2 ^ e : Nat) : Int) := by positivity
  unfold asr
  have h1 := Int.mul_ediv_self_le (x := v) (ne_of_gt hp)
  have h2 := Int.lt_mul_ediv_self_add (x := v) hp
  constructor <;> nlinarith

end Sys2Proof.Machine
end

