-- ==== Sys2Proof/Laws/Checks.lean ====
section
/-!
SUPPORT. The checks before a command in the terms of Safety.lean (20_memory.md R87, R88; 60_exceptions.md
R351): when they pass, for a command of one input and one output and for the two message commands.
-/

namespace Sys2Proof.Machine

theorem Region.inRange_iff_InRange {p : Params} {r : Region} :
    Region.inRange p r = true ↔ InRange (Params.sizeOf p r.mem) r.base r.len := Region.inRange_iff

theorem Region.not_overlaps_iff_Apart {a b : Region} (h : a.mem = b.mem) :
    Region.overlaps a b = false ↔ Apart a.base a.len b.base b.len := by
  rw [← Bool.not_eq_true, Region.overlaps_iff, Apart]
  constructor
  · intro hh
    by_contra hc
    exact hh ⟨h, by omega, by omega, by omega, by omega⟩
  · rintro hh ⟨-, _, _, _, _⟩
    omega

theorem Region.not_overlaps_of_Apart {m : MemId} {x n y k : Nat} (h : Apart x n y k) :
    Region.overlaps ⟨m, x, n⟩ ⟨m, y, k⟩ = false :=
  (Region.not_overlaps_iff_Apart (a := ⟨m, x, n⟩) (b := ⟨m, y, k⟩) rfl).mpr h

/-- No two regions of a list overlap exactly when they are pairwise apart. -/
theorem anyOverlap_eq_false_iff (rs : List Region) :
    anyOverlap rs = false ↔
      rs.Pairwise (fun a b => a.mem = b.mem → Apart a.base a.len b.base b.len) := by
  induction rs with
  | nil => simp [anyOverlap]
  | cons r rest ih =>
    rw [anyOverlap, Bool.or_eq_false_iff, ih, List.pairwise_cons, List.any_eq_false]
    refine and_congr_left' (forall₂_congr fun b _ => ?_)
    rw [Bool.not_eq_true]
    by_cases hm : r.mem = b.mem
    · simp [Region.not_overlaps_iff_Apart hm, hm]
    · simp [Region.not_overlaps_of_mem hm, hm]

/-- The checks pass for one input and one output in range, in different memories, the same region of
an in-place command, or apart. -/
theorem precheck_pair {i : Instr} {s : State} {a b : Region} {ip : Bool}
    (hr : commandRegions i s = ⟨[a], [b], ip⟩) (hw : i.wf = true) (hc : s.cfgOk = true)
    (ha : InRange (Params.sizeOf s.params a.mem) a.base a.len)
    (hb : InRange (Params.sizeOf s.params b.mem) b.base b.len)
    (hd : a.mem ≠ b.mem ∨ (ip = true ∧ a = b) ∨ Apart a.base a.len b.base b.len) :
    precheck i s = none := by
  rw [precheck_none_iff, hr]
  refine ⟨hw, hc, Regions.inRange_pair.mpr ⟨Region.inRange_iff_InRange.mpr ha,
    Region.inRange_iff_InRange.mpr hb⟩, ?_⟩
  rw [Regions.clash_pair]
  by_cases hm : a.mem = b.mem
  · rcases hd with hd | ⟨rfl, rfl⟩ | hd
    · exact absurd hm hd
    · simp
    · rw [(Region.not_overlaps_iff_Apart hm).mpr hd, Bool.and_false]
  · rw [Region.not_overlaps_of_mem hm, Bool.and_false]

/-- The checks of MSG_DEC (44_decoder.md R270). -/
theorem precheck_msgDec {s : State} (hc : s.cfgOk = true)
    (h1 : InRange s.params.bmemSize s.engArg.r0.toNat s.engArg.r1.toNat)
    (h2 : InRange s.params.wmemSize s.engArg.r2.toNat (8 * s.cfg.maxSec.toNat))
    (h3 : InRange s.params.wmemSize s.engArg.r3.toNat s.engArg.r4.toNat)
    (h4 : Apart s.engArg.r2.toNat (8 * s.cfg.maxSec.toNat) s.engArg.r3.toNat s.engArg.r4.toNat) :
    precheck .msgDec s = none := by
  rw [precheck_none_iff]
  refine ⟨rfl, hc, ?_, ?_⟩
  · simp only [commandRegions, regionsOf, msgDecRegions, Regions.inRange, List.all_cons,
      List.all_nil, Bool.and_true, Bool.and_eq_true, Region.inRange_iff_InRange]
    exact ⟨h1, h2, h3⟩
  · simp only [commandRegions, regionsOf, msgDecRegions, Regions.clash, List.any_cons,
      List.any_nil, anyOverlap, Bool.or_false, Bool.false_and, Bool.not_false, Bool.true_and]
    rw [Region.not_overlaps_of_mem (by simp), Region.not_overlaps_of_mem (by simp),
      Region.not_overlaps_of_Apart h4]
    rfl

/-- The checks of MSG_ENC (45_encoder.md R320). -/
theorem precheck_msgEnc {s : State} {w : BitVec 5} {meth : BitVec 4}
    (hw : legalWidth w = true) (hm : legalMethod meth = true) (hc : s.cfgOk = true)
    (h1 : InRange s.params.wmemSize s.engArg.r0.toNat (24 * s.cfg.nofPrb.toNat))
    (h2 : InRange s.params.bmemSize s.engArg.r1.toNat (s.engArg.r3.toNat * s.engArg.r2.toNat))
    (h3 : InRange s.params.wmemSize s.engArg.r5.toNat s.engArg.r3.toNat)
    (h4 : Apart s.engArg.r0.toNat (24 * s.cfg.nofPrb.toNat) s.engArg.r5.toNat s.engArg.r3.toNat) :
    precheck (.msgEnc w meth) s = none := by
  rw [precheck_none_iff]
  refine ⟨by simp [Instr.wf, hw, hm], hc, ?_, ?_⟩
  · simp only [commandRegions, regionsOf, msgEncRegions, Regions.inRange, List.all_cons,
      List.all_nil, Bool.and_true, Bool.and_eq_true, Region.inRange_iff_InRange]
    exact ⟨h1, h2, h3⟩
  · simp only [commandRegions, regionsOf, msgEncRegions, Regions.clash, List.any_cons,
      List.any_nil, anyOverlap, Bool.or_false, Bool.false_and, Bool.not_false, Bool.true_and]
    rw [Region.not_overlaps_of_mem (by simp),
      Region.not_overlaps_of_Apart h4, Region.not_overlaps_of_mem (by simp)]
    rfl

end Sys2Proof.Machine
end

