-- ==== Sys2Proof/Laws/Decoder.lean ====
section
/-!
SUPPORT. The laws of the message decoder (44_decoder.md): what one section can give, what the loop
keeps, and where the commit writes.
-/

namespace Sys2Proof.Machine

/-- The size of an RB in numbers: 24·w bits are 3·w bytes (30_encoding.md R134). -/
theorem prbSize_eq (method w : Nat) :
    prbSize method w = 3 * w + if method = 1 ∨ method = 5 then 1 else 0 := by
  unfold prbSize ceilDiv hasExponentByte
  by_cases h1 : method = 1 <;> by_cases h5 : method = 5 <;> simp [h1, h5] <;> omega

/-- The checks on a section whose payload starts at `cur`, each outcome under the conditions that give
it (44_decoder.md R281 to R286). -/
theorem sectionPayload_rejects (e : DecEnv) (wk : DecWork) (h : SecHeader) (method w lf cur : Nat) :
    let n := h.prbCount e.cfg.nofPrb.toNat
    (e.len - cur < n * prbSize method w → sectionPayload e wk h method w lf cur = .truncated) ∧
    (n * prbSize method w ≤ e.len - cur →
      (method ≠ 0 → method ≠ 1 →
        sectionPayload e wk h method w lf cur = .rejected .unsupportedMethod wk.cur) ∧
      (method = 0 ∨ method = 1 →
        (e.cap < wk.nsamp + 24 * n →
          sectionPayload e wk h method w lf cur = .rejected .contractViolation wk.cur) ∧
        (wk.nsamp + 24 * n ≤ e.cap → wk.nsect = e.cfg.maxSec.toNat →
          sectionPayload e wk h method w lf cur = .rejected .rejectedSemantic wk.cur))) := by
  unfold sectionPayload
  refine ⟨fun h1 => by rw [if_pos h1], fun h1 => ⟨fun h2 h3 => ?_, fun h2 => ?_⟩⟩
  · rw [if_neg (by omega), if_pos (by simp [h2, h3])]
  · have hm : (!(method == 0 || method == 1)) = false := by rcases h2 with rfl | rfl <;> rfl
    refine ⟨fun h3 => ?_, fun h3 h4 => ?_⟩
    · rw [if_neg (by omega), hm, if_neg Bool.false_ne_true, if_pos h3]
    · rw [if_neg (by omega), hm, if_neg Bool.false_ne_true, if_neg (by omega), if_pos h4]

/-- What one attempt at a section can give (44_decoder.md R290): fewer bytes than it needs, one of the
rejections, or a section of the bounds of R283 and R287 with its samples. -/
theorem parseSection_cases (e : DecEnv) (wk : DecWork) :
    parseSection e wk = .truncated ∨
    (∃ c off, parseSection e wk = .rejected c off ∧
      (c = .malformed ∨ c = .unsupportedMethod ∨ c = .contractViolation ∨ c = .rejectedSemantic)) ∨
    (∃ d next, parseSection e wk = .decoded d next ∧ wk.cur < next ∧ next ≤ e.len ∧
      d.offset = wk.nsamp ∧ d.samples.length = 24 * d.nofPrb ∧
      wk.nsamp + 24 * d.nofPrb ≤ e.cap ∧ wk.nsect ≠ e.cfg.maxSec.toNat) := by
  have payload : ∀ h method w lf cur, wk.cur < cur → cur ≤ e.len →
      sectionPayload e wk h method w lf cur = .truncated ∨
      (∃ c off, sectionPayload e wk h method w lf cur = .rejected c off ∧
        (c = .malformed ∨ c = .unsupportedMethod ∨ c = .contractViolation ∨
          c = .rejectedSemantic)) ∨
      (∃ d next, sectionPayload e wk h method w lf cur = .decoded d next ∧ wk.cur < next ∧
        next ≤ e.len ∧ d.offset = wk.nsamp ∧ d.samples.length = 24 * d.nofPrb ∧
        wk.nsamp + 24 * d.nofPrb ≤ e.cap ∧ wk.nsect ≠ e.cfg.maxSec.toNat) := by
    intro h method w lf cur hcur hle
    simp only [sectionPayload]
    split
    · exact .inl rfl
    · split
      · exact .inr (.inl ⟨_, _, rfl, by simp⟩)
      · split
        · exact .inr (.inl ⟨_, _, rfl, by simp⟩)
        · split
          · exact .inr (.inl ⟨_, _, rfl, by simp⟩)
          · exact .inr (.inr ⟨_, _, rfl, by omega, by omega, rfl, sectionSamples_length _ _ _ _ _,
              by simp only; omega, ‹_›⟩)
  have length : ∀ h method w cur, wk.cur < cur → cur ≤ e.len →
      sectionLength e wk h method w cur = .truncated ∨
      (∃ c off, sectionLength e wk h method w cur = .rejected c off ∧
        (c = .malformed ∨ c = .unsupportedMethod ∨ c = .contractViolation ∨
          c = .rejectedSemantic)) ∨
      (∃ d next, sectionLength e wk h method w cur = .decoded d next ∧ wk.cur < next ∧
        next ≤ e.len ∧ d.offset = wk.nsamp ∧ d.samples.length = 24 * d.nofPrb ∧
        wk.nsamp + 24 * d.nofPrb ≤ e.cap ∧ wk.nsect ≠ e.cfg.maxSec.toNat) := by
    intro h method w cur hcur hle
    simp only [sectionLength]
    split
    · split
      · exact .inl rfl
      · exact payload _ _ _ _ _ (by omega) (by omega)
    · exact payload _ _ _ _ _ hcur hle
  simp only [parseSection]
  split
  · exact .inl rfl
  · have hp : ∀ m w next, sectionParams e (wk.cur + 4) = .params m w next →
        wk.cur < next ∧ next ≤ e.len := by
      intro m w next hpar
      simp only [sectionParams] at hpar
      split at hpar
      · split at hpar
        · cases hpar
        · split at hpar
          · cases hpar
          · cases hpar; omega
      · cases hpar; omega
    split
    · exact .inl rfl
    · exact .inr (.inl ⟨_, _, rfl, by simp⟩)
    · rename_i hpar
      exact length _ _ _ _ (hp _ _ _ hpar).1 (hp _ _ _ hpar).2

/-- What the section loop keeps: the sections are counted, bounded by the configuration and the sample
area, and their samples lie one after the other. -/
structure DecWork.Sound (e : DecEnv) (wk : DecWork) : Prop where
  count : wk.nsect = wk.sections.length
  bound : wk.nsect ≤ e.cfg.maxSec.toNat
  room : wk.nsamp ≤ e.cap
  samples : ∀ d ∈ wk.sections, d.offset + d.samples.length ≤ wk.nsamp

theorem DecWork.start_sound (e : DecEnv) : DecWork.Sound e DecWork.start :=
  ⟨rfl, Nat.zero_le _, Nat.zero_le _, by simp [DecWork.start]⟩

theorem afterSection_sound {e : DecEnv} {wk : DecWork} (h : DecWork.Sound e wk) :
    DecWork.Sound e (afterSection wk (parseSection e wk)) := by
  rcases parseSection_cases e wk with ht | ⟨c, off, hr, -⟩ | ⟨d, next, hd, -, -, ho, hl, hc, hs⟩
  · rw [ht]; exact ⟨h.count, h.bound, h.room, h.samples⟩
  · rw [hr]; exact ⟨h.count, h.bound, h.room, h.samples⟩
  · rw [hd]
    have := h.bound
    have := h.count
    refine ⟨by simp [afterSection, h.count], by simp only [afterSection]; omega,
      by simp only [afterSection]; omega, ?_⟩
    intro x hx
    simp only [afterSection, List.mem_append, List.mem_singleton] at hx ⊢
    rcases hx with hx | rfl
    · have := h.samples x hx; omega
    · omega

theorem decLoop_sound {e : DecEnv} (fuel : Nat) {wk : DecWork} (h : DecWork.Sound e wk) :
    DecWork.Sound e (decLoop fuel e wk) := by
  induction fuel generalizing wk with
  | zero => exact ⟨h.count, h.bound, h.room, h.samples⟩
  | succ n ih =>
    simp only [decLoop]
    split
    · split
      · exact ih (afterSection_sound h)
      · exact afterSection_sound h
    · exact ⟨h.count, h.bound, h.room, h.samples⟩

theorem decodeMessage_sound (e : DecEnv) : DecWork.Sound e (decodeMessage e) := by
  unfold decodeMessage
  split
  · have h := DecWork.start_sound e
    exact ⟨h.count, h.bound, h.room, h.samples⟩
  · exact decLoop_sound _ (DecWork.start_sound e)

/-- A rejection of the decoder has a code that is neither OK nor OUT_OF_BUFFERS (44_decoder.md
R292). -/
theorem decodeMessage_rejected_code {e : DecEnv} {c : Code} {off : Nat}
    (h : (decodeMessage e).state = .rejected c off) :
    c = .malformed ∨ c = .unsupportedMethod ∨ c = .contractViolation ∨ c = .rejectedSemantic := by
  have loop : ∀ fuel wk, wk.state = .parseSections → (decLoop fuel e wk).state = .rejected c off →
      c = .malformed ∨ c = .unsupportedMethod ∨ c = .contractViolation ∨ c = .rejectedSemantic := by
    intro fuel
    induction fuel with
    | zero => intro wk _ h; simp [decLoop] at h
    | succ n ih =>
      intro wk hwk h
      simp only [decLoop] at h
      split at h
      · split at h
        · exact ih _ ‹_› h
        · rcases parseSection_cases e wk with ht | ⟨c', off', hr, hc⟩ | ⟨d, next, hd, -⟩
          · rw [ht] at h; simp [afterSection] at h
          · rw [hr] at h
            simp only [afterSection, ParseState.rejected.injEq] at h
            rw [← h.1]; exact hc
          · rw [hd] at h; simp [afterSection, hwk] at h
      · simp at h
  unfold decodeMessage at h
  split at h
  · rename_i c' off' hrej
    simp only [ParseState.rejected.injEq] at h
    obtain ⟨rfl, rfl⟩ := h
    unfold headerReject at hrej
    repeat' split at hrej
    all_goals simp_all
  · exact loop _ _ rfl h

/-- The commit writes descriptors and samples inside their two regions (44_decoder.md R293). -/
theorem commitSections_writesIn {rs : List Region} {s : State} {b : Memory 8} {dt sa maxSec cap : Nat}
    (hdt : (⟨.w, dt, 8 * maxSec⟩ : Region) ∈ rs) (hsa : (⟨.w, sa, cap⟩ : Region) ∈ rs)
    (ds : List Section) {m : Memory 16} (h : WritesIn rs s b m) {j : Nat}
    (hj : j + ds.length ≤ maxSec) (hs : ∀ d ∈ ds, d.offset + d.samples.length ≤ cap) :
    WritesIn rs s b (commitSections dt sa j ds m) := by
  induction ds generalizing j m with
  | nil => exact h
  | cons d rest ih =>
    simp only [List.length_cons] at hj
    have hd := hs d (by simp)
    refine ih (WritesIn.writeW (WritesIn.writeW h hdt _ _ (by omega) ?_) hsa _ _ (by omega)
      (by omega)) (by omega) fun x hx => hs x (by simp [hx])
    rw [descriptorWords_length]; omega

/-! ### What the decoder reads -/

/-- Two decoders read alike: same length, capacity, format and configuration but for its tier, and the
same bytes below the length (44_decoder.md R296). -/
structure DecEnv.Alike (e e' : DecEnv) : Prop where
  len : e'.len = e.len
  cap : e'.cap = e.cap
  fmt : e'.fmt = e.fmt
  cfg : ∃ u, e'.cfg = { e.cfg with tier := u }
  byte : ∀ k, k < e.len → e'.byte k = e.byte k

theorem sectionParams_congr {e e' : DecEnv} (h : DecEnv.Alike e e') {cur : Nat}
    (hc : cur ≤ e.len) : sectionParams e' cur = sectionParams e cur := by
  obtain ⟨u, hu⟩ := h.cfg
  unfold sectionParams
  simp only [hu, h.len]
  by_cases hd : e.cfg.dyn = true
  · by_cases h2 : e.len - cur < 2
    · simp [hd, h2]
    · simp [hd, h2, h.byte cur (by omega)]
  · simp [hd]

theorem sectionPayload_congr {e e' : DecEnv} (h : DecEnv.Alike e e') (wk : DecWork)
    (hd : SecHeader) (method w lf cur : Nat) :
    sectionPayload e' wk hd method w lf cur = sectionPayload e wk hd method w lf cur := by
  obtain ⟨u, hu⟩ := h.cfg
  have hs : ∀ n, ¬ e.len - cur < n * prbSize method w → n * prbSize method w = 0 ∨ cur ≤ e.len →
      sectionSamples e' method w cur n = sectionSamples e method w cur n := by
    intro n hn hz
    unfold sectionSamples
    rw [h.fmt]
    refine List.flatMap_congr fun k hk => ?_
    rw [List.mem_range] at hk
    congr 1
    refine List.map_congr_left fun j hj => ?_
    rw [List.mem_range] at hj
    have hle : k * prbSize method w + prbSize method w ≤ n * prbSize method w := by
      rw [← Nat.succ_mul]; exact Nat.mul_le_mul_right _ hk
    have := h.byte (cur + k * prbSize method w + j) (by omega)
    simpa only [DecEnv.byte, Nat.add_assoc] using this
  unfold sectionPayload
  simp only [hu, h.len, h.cap]
  by_cases h1 : e.len - cur < hd.prbCount e.cfg.nofPrb.toNat * prbSize method w
  · simp only [h1, if_true]
  · simp only [h1, if_false]
    by_cases hz : hd.prbCount e.cfg.nofPrb.toNat * prbSize method w = 0 ∨ cur ≤ e.len
    · rw [hs _ h1 hz]
    · omega

theorem sectionLength_congr {e e' : DecEnv} (h : DecEnv.Alike e e') (wk : DecWork)
    (hd : SecHeader) (method w cur : Nat) :
    sectionLength e' wk hd method w cur = sectionLength e wk hd method w cur := by
  unfold sectionLength
  simp only [h.len, sectionPayload_congr h]
  by_cases h2 : e.len - cur < 2
  · simp only [h2, if_true]
  · have h0 := h.byte cur (by omega)
    have h1 := h.byte (cur + 1) (by omega)
    have : memRead e'.mem (e'.base + cur) 2 = memRead e.mem (e.base + cur) 2 := by
      unfold memRead
      congr 1
      simp only [DecEnv.byte, ← Nat.add_assoc] at h0 h1
      simp [Memory.readRange, List.range_succ, h0, h1]
    rw [this]

theorem parseSection_congr {e e' : DecEnv} (h : DecEnv.Alike e e') (wk : DecWork) :
    parseSection e' wk = parseSection e wk := by
  unfold parseSection
  simp only [h.len]
  by_cases h4 : e.len - wk.cur < 4
  · simp only [h4, if_true]
  · simp only [h4, if_false]
    rw [sectionParams_congr h (by omega), h.byte wk.cur (by omega), h.byte (wk.cur + 1) (by omega),
      h.byte (wk.cur + 2) (by omega), h.byte (wk.cur + 3) (by omega)]
    simp only [sectionLength_congr h]

/-- The section loop depends only on what it reads of the message (44_decoder.md R296). -/
theorem decLoop_congr {e e' : DecEnv} (h : DecEnv.Alike e e') (fuel : Nat) (wk : DecWork) :
    decLoop fuel e' wk = decLoop fuel e wk := by
  induction fuel generalizing wk with
  | zero => rfl
  | succ n ih => simp only [decLoop, parseSection_congr h, h.len, ih]

theorem header_congr {e e' : DecEnv} (h : DecEnv.Alike e e') (h4 : 4 ≤ e.len) :
    e'.header = e.header := by
  unfold DecEnv.header
  rw [h.byte 0 (by omega), h.byte 1 (by omega), h.byte 2 (by omega), h.byte 3 (by omega)]

/-- The decoder depends only on what it reads of the message (44_decoder.md R296). -/
theorem decodeMessage_congr {e e' : DecEnv} (h : DecEnv.Alike e e') (h4 : 4 ≤ e.len) :
    decodeMessage e' = decodeMessage e := by
  unfold decodeMessage
  rw [header_congr h h4, h.len]
  obtain ⟨u, hu⟩ := h.cfg
  have : headerReject e'.cfg e.header = headerReject e.cfg e.header := by rw [hu]; rfl
  rw [this]
  split
  · rfl
  · exact decLoop_congr h _ _

end Sys2Proof.Machine
end

