-- ==== Sys2Proof/Laws/Encoder.lean ====
section
/-!
SUPPORT. The laws of the message encoder (45_encoder.md): the length of a message, what the
fragmentation loop keeps, and where it writes.
-/

namespace Sys2Proof.Machine

/-- The payload of one RB has P bytes (30_encoding.md R134, 45_encoder.md R328). -/
theorem encRb_length {rule : ExpRule} {w : BitVec 5} {meth : BitVec 4}
    (hs : encSupported w meth = true) {q : List Int} (hq : q.length = 24) :
    (encRb rule meth.toNat w.toNat q).length = prbSize meth.toNat w.toNat := by
  have hb : ceilDiv (24 * w.toNat) 8 = 3 * w.toNat := by unfold ceilDiv; omega
  simp only [encSupported, Bool.or_eq_true, Bool.and_eq_true, beq_iff_eq] at hs
  rcases hs with rfl | ⟨rfl, rfl⟩
  · simp [encRb, hq, prbSize, hb, hasExponentByte]; omega
  · simp [encRb, hq, prbSize, hasExponentByte]; decide

/-- The length of a message, `H + n·P` (45_encoder.md R327). -/
theorem messageBytes_length (cfg : ActiveCfg) (rule : ExpRule) (a4 : Word) {w : BitVec 5}
    {meth : BitVec 4} (hs : encSupported w meth = true) {rb : Nat → List Int}
    (hrb : ∀ r, (rb r).length = 24) (sid : BitVec 12) (p n : Nat) :
    (messageBytes cfg rule a4 w meth rb sid p n).length =
      encOverhead cfg + n * prbSize meth.toNat w.toNat := by
  rw [messageBytes, List.length_append, flatMap_range_length n (prbSize meth.toNat w.toNat) _
    fun k _ => encRb_length hs (hrb (p + k))]
  congr 1
  cases h : cfg.dyn <;> simp [encOverhead, h]

theorem prbSize_pos {w : BitVec 5} {meth : BitVec 4} (hs : encSupported w meth = true) :
    0 < prbSize meth.toNat w.toNat := by
  simp only [encSupported, Bool.or_eq_true, Bool.and_eq_true, beq_iff_eq] at hs
  rcases hs with rfl | ⟨rfl, rfl⟩
  · simp [prbSize, hasExponentByte]
  · decide

/-- A buffer of the least size holds one PRB and no more than its PRBs (45_encoder.md R324). -/
theorem encCapacity_bounds {cfg : ActiveCfg} {size method w : Nat} (hp : 0 < prbSize method w)
    (h : encOverhead cfg + prbSize method w ≤ size) :
    1 ≤ encCapacity cfg size method w ∧ encCapacity cfg size method w ≤ 255 ∧
      encOverhead cfg + encCapacity cfg size method w * prbSize method w ≤ size := by
  have h1 : 1 ≤ (size - encOverhead cfg) / prbSize method w :=
    (Nat.le_div_iff_mul_le hp).mpr (by omega)
  have h2 : encCapacity cfg size method w * prbSize method w ≤ size - encOverhead cfg :=
    Nat.le_trans (Nat.mul_le_mul_right _ (Nat.min_le_right _ _)) (Nat.div_mul_le_self _ _)
  refine ⟨?_, Nat.min_le_left _ _, by omega⟩
  unfold encCapacity; omega

/-- The loop ends with OK or OUT_OF_BUFFERS (45_encoder.md R331). -/
theorem encLoop_code (fuel : Nat) (e : EncEnv) (wk : EncWork) :
    (encLoop fuel e wk).1 = .ok ∨ (encLoop fuel e wk).1 = .outOfBuffers := by
  induction fuel generalizing wk with
  | zero => exact .inl rfl
  | succ n ih =>
    simp only [encLoop]
    split
    · split
      · exact .inr rfl
      · exact ih _
    · exact .inl rfl

/-- Every property one message keeps is kept by the loop. -/
theorem encLoop_invariant {P : EncWork → Prop} {e : EncEnv}
    (step : ∀ wk, wk.prb < e.cfg.nofPrb.toNat → wk.count ≠ e.slots → P wk → P (encMessage e wk))
    (fuel : Nat) (wk : EncWork) (h : P wk) : P (encLoop fuel e wk).2 := by
  induction fuel generalizing wk with
  | zero => exact h
  | succ n ih =>
    simp only [encLoop]
    split
    · split
      · exact h
      · exact ih _ (step wk ‹_› ‹_› h)
    · exact h

/-- The loop writes inside the output area and the length table (45_encoder.md R330). -/
theorem encLoop_writesIn {rs : List Region} {s : State} {e : EncEnv}
    (hs : encSupported e.w e.meth = true) (hrb : ∀ r, (e.rb r).length = 24)
    (hsize : encOverhead e.cfg + prbSize e.meth.toNat e.w.toNat ≤ e.slotSize)
    (hout : (⟨.b, e.out, e.slots * e.slotSize⟩ : Region) ∈ rs)
    (htab : (⟨.w, e.table, e.slots⟩ : Region) ∈ rs) (fuel : Nat) {wk : EncWork}
    (hc : wk.count ≤ e.slots) (h : WritesIn rs s wk.bmem wk.wmem) :
    WritesIn rs s (encLoop fuel e wk).2.bmem (encLoop fuel e wk).2.wmem := by
  refine (encLoop_invariant (P := fun wk => wk.count ≤ e.slots ∧ WritesIn rs s wk.bmem wk.wmem)
    (fun wk _ hne hP => ?_) fuel wk ⟨hc, h⟩).2
  obtain ⟨hle, hw⟩ := hP
  have hlt : wk.count < e.slots := by omega
  refine ⟨hlt, ?_⟩
  have hb := encCapacity_bounds (prbSize_pos hs) hsize
  have hlen : (e.message wk).length ≤ e.slotSize := by
    rw [EncEnv.message, messageBytes_length _ _ _ hs hrb]
    have : e.take wk * prbSize e.meth.toNat e.w.toNat ≤
        encCapacity e.cfg e.slotSize e.meth.toNat e.w.toNat * prbSize e.meth.toNat e.w.toNat :=
      Nat.mul_le_mul_right _ (Nat.min_le_left _ _)
    omega
  have hin : wk.count * e.slotSize + e.slotSize ≤ e.slots * e.slotSize := by
    rw [← Nat.succ_mul]; exact Nat.mul_le_mul_right _ hlt
  exact (hw.writeB hout _ _ (by omega) (by omega)).writeW htab (e.table + wk.count) [_] (by omega)
    (by simp; omega)

/-- The loop reads everything of the configuration but its tier (42_bfp.md R236). -/
theorem encLoop_tier (fuel : Nat) (e : EncEnv) (u : Tier) (wk : EncWork) :
    encLoop fuel { e with cfg := { e.cfg with tier := u } } wk = encLoop fuel e wk := by
  induction fuel generalizing wk with
  | zero => rfl
  | succ n ih =>
    simp only [encLoop]
    split
    · split
      · rfl
      · exact ih _
    · rfl

end Sys2Proof.Machine
end

