-- ==== Sys2Proof/Laws/Shape.lean ====
section
/-!
SUPPORT. The shape of the next state of a command, said once: INIT writes the configuration and its
flags; every other command writes memories, results and SECID, and completes.
-/

namespace Sys2Proof.Machine

/-- What a data command may leave: a code, two memories, the results, SECID. -/
structure Shape (i : Instr) (s t : State) (c : Code) (b : Memory 8) (m : Memory 16) (r : Bank)
    (sid : BitVec 12) : Prop where
  eq : t = complete c { s with bmem := b, wmem := m, res := r, secId := sid }
  writes : WritesIn (commandRegions i s).outs s b m
  quiet : c ≠ .ok → c ≠ .outOfBuffers → b = s.bmem ∧ m = s.wmem ∧ sid = s.secId
  secId : (∀ w k, i ≠ .msgEnc w k) → sid = s.secId

/-- A completion that writes nothing but results. -/
theorem Shape.quietly (i : Instr) (s : State) (c : Code) (r : Bank) :
    Shape i s (complete c { s with res := r }) c s.bmem s.wmem r s.secId :=
  ⟨rfl, WritesIn.refl _ _, fun _ _ => ⟨rfl, rfl, rfl⟩, fun _ => rfl⟩

theorem Shape.quietly' (i : Instr) (s : State) (c : Code) :
    Shape i s (complete c s) c s.bmem s.wmem s.res s.secId := Shape.quietly i s c s.res

/-- A completion with OK that has written into the output regions. -/
theorem Shape.writing (i : Instr) (s : State) {b : Memory 8} {m : Memory 16} (r : Bank)
    (h : WritesIn (commandRegions i s).outs s b m) :
    Shape i s (complete .ok { s with bmem := b, wmem := m, res := r }) .ok b m r s.secId :=
  ⟨rfl, h, fun h => absurd rfl h, fun _ => rfl⟩

/-- The next state of a data command has some shape. -/
def Shaped (i : Instr) (s t : State) : Prop := ∃ c b m r sid, Shape i s t c b m r sid

theorem guarded_shaped {i : Instr} {s : State} {run : State → State}
    (h : precheck i s = none → Shaped i s (run s)) :
    ∃ t, guarded i s run = .next t ∧ Shaped i s t := by
  rcases guarded_cases i s run with ⟨c, -, hg⟩ | ⟨hp, hg⟩
  · exact ⟨_, hg, _, _, _, _, _, Shape.quietly' i s c⟩
  · exact ⟨_, hg, h hp⟩

theorem quantRun_shaped (s : State) : Shaped .quant s (quantRun s) :=
  ⟨_, _, _, _, _, Shape.writing .quant s _ ((WritesIn.refl _ s).writeW (base := s.engArg.r1.toNat)
    (len := s.engArg.r2.toNat) (by simp [commandRegions, regionsOf, convertRegions]) _ _
    (Nat.le_refl _) (by simp))⟩

theorem dequantRun_shaped (e8 : BitVec 8) (s : State) :
    Shaped (.dequant e8) s (dequantRun e8 s) :=
  ⟨_, _, _, _, _, Shape.writing (.dequant e8) s _ ((WritesIn.refl _ s).writeW
    (base := s.engArg.r1.toNat) (len := s.engArg.r2.toNat)
    (by simp [commandRegions, regionsOf, convertRegions]) _ _ (Nat.le_refl _) (by simp))⟩

theorem packRun_shaped (w : BitVec 5) (s : State) : Shaped (.pack w) s (packRun w s) := by
  unfold packRun
  simp only
  split
  · exact ⟨_, _, _, _, _, Shape.quietly' _ s _⟩
  · split
    · exact ⟨_, _, _, _, _, Shape.quietly' _ s _⟩
    · exact ⟨_, _, _, _, _, Shape.writing _ s _ ((WritesIn.refl _ s).writeB
        (base := s.engArg.r1.toNat) (len := s.engArg.r3.toNat)
        (by simp [commandRegions, regionsOf, packRegions]) _ _ (Nat.le_refl _)
        (by simp; omega))⟩

theorem unpackRun_shaped (w : BitVec 5) (s : State) : Shaped (.unpack w) s (unpackRun w s) := by
  unfold unpackRun
  simp only
  split
  · exact ⟨_, _, _, _, _, Shape.quietly' _ s _⟩
  · exact ⟨_, _, _, _, _, Shape.writing _ s _ ((WritesIn.refl _ s).writeW
      (base := s.engArg.r1.toNat) (len := s.engArg.r2.toNat)
      (by simp [commandRegions, regionsOf, unpackRegions]) _ _ (Nat.le_refl _) (by simp))⟩

theorem bfpxRun_shaped (w : BitVec 5) (s : State) : Shaped (.bfpx w) s (bfpxRun w s) :=
  ⟨_, _, _, _, _, Shape.writing _ s _ ((WritesIn.refl _ s).writeW (base := s.engArg.r1.toNat)
    (len := s.engArg.r2.toNat) (by simp [commandRegions, regionsOf, bfpxRegions]) _ _
    (Nat.le_refl _) (by simp))⟩

theorem compressRun_shaped {i : Instr} (w : BitVec 5) {rb : Nat → List Int} (s : State)
    (hrb : ∀ r, (rb r).length = 24)
    (hi : (⟨.b, s.engArg.r1.toNat, s.engArg.r3.toNat⟩ : Region) ∈ (commandRegions i s).outs) :
    Shaped i s (compressRun w rb s) := by
  unfold compressRun
  simp only
  split
  · exact ⟨_, _, _, _, _, Shape.quietly' _ s _⟩
  · refine ⟨_, _, _, _, _, Shape.writing _ s _ ((WritesIn.refl _ s).writeB hi _ _
      (Nat.le_refl _) ?_)⟩
    rw [flatMap_range_length _ (rbBytes w.toNat) _ fun k _ => by simp [hrb, rbBytes]]
    have : s.engArg.r2.toNat * rbBytes w.toNat = bfpBytes s.engArg.r2.toNat w.toNat := rfl
    omega

theorem decompressRun_shaped {i : Instr} (w : BitVec 5) (per : Nat)
    {words : List Byte → List Sample} (s : State) (hw : ∀ b, (words b).length = per)
    (hi : (⟨.w, s.engArg.r1.toNat, per * s.engArg.r2.toNat⟩ : Region) ∈
      (commandRegions i s).outs) :
    Shaped i s (decompressRun w words s) := by
  unfold decompressRun
  simp only
  split
  · exact ⟨_, _, _, _, _, Shape.quietly' _ s _⟩
  · refine ⟨_, _, _, _, _, Shape.writing _ s _ ((WritesIn.refl _ s).writeW hi _ _
      (Nat.le_refl _) ?_)⟩
    rw [flatMap_range_length _ per _ fun k _ => hw _, Nat.mul_comm]

theorem msgDecRun_shaped (s : State) : Shaped .msgDec s (msgDecRun s) := by
  unfold msgDecRun
  split
  · exact ⟨_, _, _, _, _, Shape.quietly _ s _ _⟩
  · have hs := decodeMessage_sound (decEnv s)
    unfold finishDecode
    simp only
    split
    · exact ⟨_, _, _, _, _, Shape.quietly _ s _ _⟩
    · split
      · split
        · exact ⟨_, _, _, _, _, Shape.quietly _ s _ _⟩
        · exact ⟨_, _, _, _, _, Shape.quietly _ s _ _⟩
      · refine ⟨_, _, _, _, _, Shape.writing _ s _ (commitSections_writesIn
          (maxSec := s.cfg.maxSec.toNat) (cap := s.engArg.r4.toNat) ?_ ?_ _ (WritesIn.refl _ s)
          ?_ ?_)⟩
        · simp [commandRegions, regionsOf, msgDecRegions]
        · simp [commandRegions, regionsOf, msgDecRegions]
        · have := hs.count
          have := hs.bound
          simp only [decEnv] at *
          omega
        · intro d hd
          have := hs.samples d hd
          have := hs.room
          simp only [decEnv] at *
          omega

theorem msgEncRun_shaped (w : BitVec 5) (meth : BitVec 4) (s : State) :
    Shaped (.msgEnc w meth) s (msgEncRun w meth s) := by
  unfold msgEncRun
  split
  · exact ⟨_, _, _, _, _, Shape.quietly' _ s _⟩
  · split
    · exact ⟨_, _, _, _, _, Shape.quietly' _ s _⟩
    · split
      · exact ⟨_, _, _, _, _, Shape.quietly' _ s _⟩
      · rename_i hsup hsize
        refine ⟨_, _, _, _, _, rfl, encLoop_writesIn (e := encEnv w meth s) (by simpa [encEnv] using hsup)
          (fun r => quantizedRb_length _ _ _) (by simp only [encEnv]; omega) ?_ ?_ _ (by simp [encStart])
          (WritesIn.refl _ s), fun h1 h2 => ?_, fun h => absurd rfl (h w meth)⟩
        · simp [commandRegions, regionsOf, msgEncRegions, encEnv]
        · simp [commandRegions, regionsOf, msgEncRegions, encEnv]
        · rcases encLoop_code s.cfg.nofPrb.toNat (encEnv w meth s) (encStart s) with h | h
          · exact absurd h h1
          · exact absurd h h2

/-- What every command but INIT can do. -/
theorem exec_shaped (i : Instr) (hi : i ≠ .init) (s : State) :
    ∃ t, exec i s = .next t ∧ Shaped i s t := by
  cases i with
  | nop => exact ⟨_, rfl, _, _, _, _, _, Shape.quietly' _ s _⟩
  | init => exact absurd rfl hi
  | quant => exact guarded_shaped fun _ => quantRun_shaped s
  | dequant e8 => exact guarded_shaped fun _ => dequantRun_shaped e8 s
  | pack w => exact guarded_shaped fun _ => packRun_shaped w s
  | unpack w => exact guarded_shaped fun _ => unpackRun_shaped w s
  | bfpx w => exact guarded_shaped fun _ => bfpxRun_shaped w s
  | bfpcI w =>
    exact guarded_shaped fun _ => compressRun_shaped w s (fun r => fixedRb_length _ _ r)
      (by simp [commandRegions, regionsOf, bfpcRegions])
  | bfpcF w =>
    exact guarded_shaped fun _ => compressRun_shaped w s (fun r => quantizedRb_length _ _ r)
      (by simp [commandRegions, regionsOf, bfpcRegions])
  | bfpdF w =>
    exact guarded_shaped fun _ => decompressRun_shaped w 24 s
      (fun b => decompressRbFloat_length _ b _) (by simp [commandRegions, regionsOf, bfpdRegions])
  | bfpdRaw w =>
    exact guarded_shaped fun _ => decompressRun_shaped w 25 s
      (fun b => rawRecord_length b _) (by simp [commandRegions, regionsOf, bfpdRegions])
  | prbSize w meth => exact guarded_shaped fun _ => ⟨_, _, _, _, _, Shape.quietly _ s _ _⟩
  | msgDec => exact guarded_shaped fun _ => msgDecRun_shaped s
  | msgEnc w meth => exact guarded_shaped fun _ => msgEncRun_shaped w meth s

/-- A data command whose checks fail ends with the code of the first that does (60_exceptions.md
R351). -/
theorem exec_fail {i : Instr} (hn : i ≠ .nop) (hi : i ≠ .init) {s : State} {c : Code}
    (h : precheck i s = some c) : exec i s = .next (complete c s) := by
  cases i with
  | nop => exact absurd rfl hn
  | init => exact absurd rfl hi
  | _ => exact guarded_fail h

/-- What INIT can do: fail with its mask, or latch the configuration registers of its acceptance. -/
theorem execInit_cases (s : State) :
    (∃ mask, mask ≠ 0#32 ∧ exec .init s = .next (initFail mask s)) ∨
      (∃ t, selectTier s.params s.engCfgRegs.strat = some t ∧
        initMask s.params s.engCfgRegs = 0#32 ∧ exec .init s = .next (initOk t s)) := by
  simp only [exec, execInit]
  split
  · rename_i h
    exact .inl ⟨_, by simpa using h, rfl⟩
  · rename_i h
    have h0 : initMask s.params s.engCfgRegs = 0#32 := by simpa using h
    split
    · exact .inr ⟨_, ‹_›, h0, rfl⟩
    · rename_i hn
      exfalso
      revert h0
      simp only [initMask, initChecks, maskOf, hn, Option.isNone_none, word]
      generalize (decide (7 ≤ (CfgRegs.method s.engCfgRegs).toNat)) = b0
      generalize (!legalWidth (CfgRegs.bw s.engCfgRegs)) = b1
      generalize (CfgRegs.encFilter s.engCfgRegs == 15#4) = b2
      generalize (decide (7 ≤ (CfgRegs.mu s.engCfgRegs).toNat)) = b3
      generalize (!(decide (1 ≤ (CfgRegs.syms s.engCfgRegs).toNat) &&
        decide ((CfgRegs.syms s.engCfgRegs).toNat ≤ 64))) = b4
      generalize (!(decide (1 ≤ s.engCfgRegs.prb.toNat) &&
        decide (s.engCfgRegs.prb.toNat ≤ 1024))) = b5
      generalize (s.engCfgRegs.maxsec == 0#16) = b6
      generalize (scaleNotFinite s.engCfgRegs.scale) = b7
      revert b0 b1 b2 b3 b4 b5 b6 b7
      decide

end Sys2Proof.Machine
end

