-- ==== Sys2Proof/Laws/Control.lean ====
section
/-!
SUPPORT. The laws of INIT (43_control.md R251 to R254): its failure mask bit by bit, and what a passed
check says about the configuration it latches.
-/

namespace Sys2Proof.Machine

/-- Bit k of the number of a list of bits is its element k. -/
theorem maskOf_testBit (l : List Bool) (k : Nat) : (maskOf l).testBit k = l.getD k false := by
  induction l generalizing k with
  | nil => simp [maskOf]
  | cons b rest ih =>
    cases k with
    | zero => cases b <;> simp [maskOf, Nat.testBit_zero]
    | succ k =>
      have : (b.toNat + 2 * maskOf rest) / 2 = maskOf rest := by
        cases b
        · simp
        · simp; omega
      rw [maskOf, Nat.testBit_succ, this, ih]
      rfl

theorem maskOf_lt (l : List Bool) : maskOf l < 2 ^ l.length := by
  induction l with
  | nil => simp [maskOf]
  | cons b rest ih =>
    rw [maskOf, List.length_cons, pow_succ]
    cases b <;> simp <;> omega

theorem initChecks_length (p : Params) (r : CfgRegs) : (initChecks p r).length = 9 := rfl

theorem initMask_toNat (p : Params) (r : CfgRegs) :
    (initMask p r).toNat = maskOf (initChecks p r) := by
  have := maskOf_lt (initChecks p r)
  rw [initChecks_length] at this
  simp only [initMask, word, BitVec.toNat_ofNat]
  omega

/-- Bit k of the failure mask is check k (43_control.md R251). -/
theorem initMask_getLsbD (p : Params) (r : CfgRegs) (k : Nat) :
    (initMask p r).getLsbD k = (initChecks p r).getD k false := by
  rw [BitVec.getLsbD, initMask_toNat, maskOf_testBit]

/-- The mask is 0 exactly when no check fails. -/
theorem initMask_eq_zero_iff (p : Params) (r : CfgRegs) :
    initMask p r = 0#32 ↔ ∀ b ∈ initChecks p r, b = false := by
  constructor
  · intro h b hb
    obtain ⟨k, hk, rfl⟩ := List.mem_iff_getElem.mp hb
    have := initMask_getLsbD p r k
    rw [h, List.getD_eq_getElem?_getD, List.getElem?_eq_getElem hk] at this
    simpa using this.symm
  · intro h
    apply BitVec.eq_of_getLsbD_eq
    intro k _
    rw [initMask_getLsbD, List.getD_eq_getElem?_getD]
    by_cases hk : k < (initChecks p r).length
    · rw [List.getElem?_eq_getElem hk]
      simpa using h _ (List.getElem_mem hk)
    · rw [List.getElem?_eq_none (by omega)]
      simp

/-- INIT answers with its mask where a check fails. -/
theorem execInit_fail {s : State} (h : initMask s.params s.engCfgRegs ≠ 0#32) :
    exec .init s = .next (initFail (initMask s.params s.engCfgRegs) s) := by
  simp [exec, execInit, h]

/-- INIT latches the configuration where no check fails. -/
theorem execInit_ok {s : State} (h : initMask s.params s.engCfgRegs = 0#32) {t : Tier}
    (ht : selectTier s.params s.engCfgRegs.strat = some t) :
    exec .init s = .next (initOk t s) := by
  simp [exec, execInit, h, ht]

/-- The tier the selector gives is one the hardware has (43_control.md R253). -/
theorem selectTier_supported {p : Params} {pin : BitVec 3} {t : Tier}
    (h : selectTier p pin = some t) :
    (t = .tier1 → p.hwTier1 = true) ∧ (t = .tier2 → p.hwTier2 = true) := by
  unfold selectTier at h
  split at h
  · cases h
    constructor <;> intro ht <;> (split at ht; all_goals first | assumption | skip)
    · cases ht
    · split at ht
      · assumption
      · cases ht
    · split at ht <;> cases ht
  · cases h; simp
  · split at h <;> simp_all
    rw [← h]; simp
  · split at h <;> simp_all
    rw [← h]; simp
  · cases h

/-- A passed INIT latches a legal configuration (43_control.md R251, R252). -/
theorem latchCfg_legal {p : Params} {r : CfgRegs} (h : initMask p r = 0#32) {t : Tier}
    (ht : selectTier p r.strat = some t) : LegalCfg p (latchCfg r t) := by
  have h := (initMask_eq_zero_iff p r).mp h
  simp only [initChecks, List.mem_cons, List.not_mem_nil, or_false, forall_eq_or_imp, forall_eq,
    decide_eq_false_iff_not, Bool.not_eq_false', Bool.and_eq_true, decide_eq_true_eq] at h
  obtain ⟨h0, h1, h2, h3, h4, h5, h6, h7, -⟩ := h
  refine ⟨by simp only [latchCfg]; omega, h1, by simpa [latchCfg] using h2,
    by simp only [latchCfg]; omega, h4, h5, by simpa [latchCfg] using h6, h7, ?_⟩
  exact selectTier_supported ht

end Sys2Proof.Machine
end

