-- ==== Sys2Proof/Laws/Decode.lean ====
section
/-!
SUPPORT. The laws of command words (30_encoding.md R110): the bits of a word built from its fields, the
fields of such a word, and a word rebuilt from its fields.
-/

namespace Sys2Proof

/-- The bits of a word, field by field. -/
theorem commandWord_getLsbD (o : Byte) (w : BitVec 5) (m : BitVec 4) (e : BitVec 8) (i : Nat) :
    (commandWord o w m e).getLsbD i =
      if i < 8 then o.getLsbD i else if i < 13 then w.getLsbD (i - 8)
      else if i < 17 then m.getLsbD (i - 13) else e.getLsbD (i - 17) := by
  have h : (commandWord o w m e).getLsbD i =
      (0#7 ++ e ++ m ++ w ++ o : BitVec (7 + 8 + 4 + 5 + 8)).getLsbD i := rfl
  rw [h]
  simp only [BitVec.getLsbD_append, BitVec.getLsbD_zero]
  by_cases h1 : i < 8
  · simp [h1]
  · by_cases h2 : i < 13
    · simp [h1, h2, show i - 8 < 5 by omega]
    · rw [show i - 8 - 5 = i - 13 by omega, show i - 13 - 4 = i - 17 by omega]
      by_cases h3 : i < 17
      · simp [h1, h2, h3, show ¬ i - 8 < 5 by omega, show i - 13 < 4 by omega]
      · by_cases h4 : i < 25
        · simp [h1, h2, h3, show ¬ i - 8 < 5 by omega, show ¬ i - 13 < 4 by omega,
            show i - 17 < 8 by omega]
        · simp [h1, h2, h3, show ¬ i - 8 < 5 by omega, show ¬ i - 13 < 4 by omega,
            show ¬ i - 17 < 8 by omega, BitVec.getLsbD_of_ge e (i - 17) (by omega)]

@[simp] theorem opcOf_commandWord (o : Byte) (w : BitVec 5) (m : BitVec 4) (e : BitVec 8) :
    opcOf (commandWord o w m e) = o := by
  apply BitVec.eq_of_getLsbD_eq
  intro i hi
  simp only [opcOf, BitVec.getLsbD_extractLsb', commandWord_getLsbD, hi, decide_true, Bool.true_and]
  rw [if_pos (by omega), Nat.zero_add]

@[simp] theorem widthOf_commandWord (o : Byte) (w : BitVec 5) (m : BitVec 4) (e : BitVec 8) :
    widthOf (commandWord o w m e) = w := by
  apply BitVec.eq_of_getLsbD_eq
  intro i hi
  simp only [widthOf, BitVec.getLsbD_extractLsb', commandWord_getLsbD, hi, decide_true,
    Bool.true_and]
  rw [if_neg (by omega), if_pos (by omega), Nat.add_sub_cancel_left]

@[simp] theorem methOf_commandWord (o : Byte) (w : BitVec 5) (m : BitVec 4) (e : BitVec 8) :
    methOf (commandWord o w m e) = m := by
  apply BitVec.eq_of_getLsbD_eq
  intro i hi
  simp only [methOf, BitVec.getLsbD_extractLsb', commandWord_getLsbD, hi, decide_true,
    Bool.true_and]
  rw [if_neg (by omega), if_neg (by omega), if_pos (by omega), Nat.add_sub_cancel_left]

@[simp] theorem exp8Of_commandWord (o : Byte) (w : BitVec 5) (m : BitVec 4) (e : BitVec 8) :
    exp8Of (commandWord o w m e) = e := by
  apply BitVec.eq_of_getLsbD_eq
  intro i hi
  simp only [exp8Of, BitVec.getLsbD_extractLsb', commandWord_getLsbD, hi, decide_true,
    Bool.true_and]
  rw [if_neg (by omega), if_neg (by omega), if_neg (by omega), Nat.add_sub_cancel_left]

@[simp] theorem reservedOf_commandWord (o : Byte) (w : BitVec 5) (m : BitVec 4) (e : BitVec 8) :
    reservedOf (commandWord o w m e) = 0#7 := by
  apply BitVec.eq_of_getLsbD_eq
  intro i hi
  simp only [reservedOf, BitVec.getLsbD_extractLsb', commandWord_getLsbD, hi, decide_true,
    Bool.true_and]
  rw [if_neg (by omega), if_neg (by omega), if_neg (by omega),
    BitVec.getLsbD_of_ge e _ (by omega), BitVec.getLsbD_zero]

/-- A word whose reserved bits are 0 is the word of its fields. -/
theorem commandWord_of_fields {c : Word} (h : reservedOf c = 0#7) :
    commandWord (opcOf c) (widthOf c) (methOf c) (exp8Of c) = c := by
  apply BitVec.eq_of_getLsbD_eq
  intro i hi
  simp only [commandWord_getLsbD, opcOf, widthOf, methOf, exp8Of, BitVec.getLsbD_extractLsb']
  by_cases h1 : i < 8
  · simp [h1]
  · by_cases h2 : i < 13
    · simp [h1, h2, show i - 8 < 5 by omega, show 8 + (i - 8) = i by omega]
    · by_cases h3 : i < 17
      · simp [h1, h2, h3, show i - 13 < 4 by omega, show 13 + (i - 13) = i by omega]
      · by_cases h4 : i < 25
        · simp [h1, h2, h3, show i - 17 < 8 by omega, show 17 + (i - 17) = i by omega]
        · have hr := congrArg (fun r => r.getLsbD (i - 25)) h
          simp only [reservedOf, BitVec.getLsbD_extractLsb', show i - 25 < 7 by omega, decide_true,
            Bool.true_and, show 25 + (i - 25) = i by omega, BitVec.getLsbD_zero] at hr
          simp [h1, h2, h3, show ¬ i - 17 < 8 by omega, hr]

/-- The number an extracted field stands for. -/
theorem toNat_extractLsb' {n : Nat} (x : BitVec n) (a k : Nat) :
    (x.extractLsb' a k).toNat = x.toNat / 2 ^ a % 2 ^ k := by
  simp [BitVec.extractLsb'_toNat, Nat.shiftRight_eq_div_pow]

end Sys2Proof
end

