-- ==== Sys2Proof/Laws/Host.lean ====
section
/-!
SUPPORT. The laws of the host's side and of the step, each said once: what making a region free leaves
(20_memory.md R95), what a host register write can do (10_state.md R33 to R51), what a step can do.
-/

namespace Sys2Proof.Machine

/-! ### Free regions -/

/-- The memories `b` and `m` differ from those of `s` inside the regions `rs` only, and are canonical
and in range where those were. -/
structure FreesIn (rs : List Region) (s : State) (b : Memory 8) (m : Memory 16) : Prop where
  bmem : ∀ a, (∀ r ∈ rs, Region.holds r .b a = false) → Memory.read b a = Memory.read s.bmem a
  wmem : ∀ a, (∀ r ∈ rs, Region.holds r .w a = false) → Memory.read m a = Memory.read s.wmem a
  bmemWf : Memory.wf s.bmem → Memory.wf b
  wmemWf : Memory.wf s.wmem → Memory.wf m
  bmemBelow : Memory.below s.params.bmemSize s.bmem → Memory.below s.params.bmemSize b
  wmemBelow : Memory.below s.params.wmemSize s.wmem → Memory.below s.params.wmemSize m

/-- A region made free changes its own existing addresses only. -/
theorem freeRegion_freesIn {s t : State} {rs : List Region} (hp : t.params = s.params)
    {r : Region} (hr : r ∈ rs) (h : FreesIn rs s t.bmem t.wmem) :
    FreesIn rs s (freeRegion t r).bmem (freeRegion t r).wmem := by
  obtain ⟨rm, base, len⟩ := r
  have hout : ∀ {a : Nat}, Region.holds ⟨rm, base, len⟩ rm a = false →
      a < base ∨ base + presentLen t.params ⟨rm, base, len⟩ ≤ a := by
    intro a hf
    by_contra hc
    have hle : presentLen t.params ⟨rm, base, len⟩ ≤ len := Nat.min_le_left _ _
    rw [Region.holds_iff.mpr ⟨rfl, by simp only; omega, by simp only; omega⟩] at hf
    cases hf
  cases rm with
  | b =>
    refine ⟨fun a ha => ?_, h.wmem, fun hw => Memory.writeRange_wf (h.bmemWf hw) _ _, h.wmemWf,
      fun hs => Memory.writeRange_below (h.bmemBelow hs) _ ?_, h.wmemBelow⟩
    · rw [← h.bmem a ha]
      exact Memory.read_writeRange_out _ _ _ (by simpa using hout (ha _ hr))
    · have : presentLen t.params ⟨.b, base, len⟩ ≤ s.params.bmemSize - base := by
        rw [hp]; exact Nat.min_le_right _ _
      by_cases hz : presentLen t.params ⟨.b, base, len⟩ = 0
      · left; rw [hz]; rfl
      · right; simp; omega
  | w =>
    refine ⟨h.bmem, fun a ha => ?_, h.bmemWf, fun hw => Memory.writeRange_wf (h.wmemWf hw) _ _,
      h.bmemBelow, fun hs => Memory.writeRange_below (h.wmemBelow hs) _ ?_⟩
    · rw [← h.wmem a ha]
      exact Memory.read_writeRange_out _ _ _ (by simpa using hout (ha _ hr))
    · have : presentLen t.params ⟨.w, base, len⟩ ≤ s.params.wmemSize - base := by
        rw [hp]; exact Nat.min_le_right _ _
      by_cases hz : presentLen t.params ⟨.w, base, len⟩ = 0
      · left; rw [hz]; rfl
      · right; simp; omega

/-- What making the output regions of the running command free leaves (20_memory.md R95). -/
theorem freeOutputs_freesIn (s : State) :
    FreesIn (runningRegions s).outs s (freeOutputs s).bmem (freeOutputs s).wmem := by
  have loop : ∀ (rs : List Region) (t : State), t.params = s.params →
      (∀ r ∈ rs, r ∈ (runningRegions s).outs) →
      FreesIn (runningRegions s).outs s t.bmem t.wmem →
      FreesIn (runningRegions s).outs s (rs.foldl freeRegion t).bmem
        (rs.foldl freeRegion t).wmem := by
    intro rs
    induction rs with
    | nil => intro t _ _ h; exact h
    | cons r rest ih =>
      intro t hp hsub h
      exact ih _ (by rw [freeRegion_params, hp]) (fun q hq => hsub q (by simp [hq]))
        (freeRegion_freesIn hp (hsub r (by simp)) h)
  exact loop _ s rfl (fun _ h => h) ⟨fun _ _ => rfl, fun _ _ => rfl, id, id, id, id⟩

/-- What a soft reset leaves of the memories (70_reset_and_hazards.md R381). -/
theorem softReset_freesIn (s : State) :
    FreesIn (runningRegions s).outs s (softReset s).bmem (softReset s).wmem := by
  simp only [softReset]
  split
  · exact freeOutputs_freesIn s
  · exact ⟨fun _ _ => rfl, fun _ _ => rfl, id, id, id, id⟩

/-! ### Host register writes -/

/-- What a host register write can do (10_state.md R33, R38, R40 to R42, R50, R51). -/
theorem writeReg_cases (width : AccessWidth) (offset v : Word) (s : State) :
    writeReg width offset v s = s ∨
    (width = .word ∧ offset = 0x010#32 ∧ v.getLsbD 1 = true ∧
      writeReg width offset v s = softReset s) ∨
    (∃ b, writeReg width offset v s = { s with irqEn := b }) ∨
    writeReg width offset v s = clearStatus v s ∨
    (s.phase = .busy ∧ writeReg width offset v s = { s with ovr := true }) ∨
    (s.phase = .idle ∧ writeReg width offset v s = accept v s) ∨
    (∃ a, writeReg width offset v s = { s with arg := a }) ∨
    (∃ r, writeReg width offset v s = { s with cfgRegs := r }) ∨
    (s.phase = .idle ∧ ∃ x, writeReg width offset v s = { s with secId := x }) := by
  unfold writeReg
  split
  · rename_i r hr
    cases r with
    | ctrl =>
      simp only [writeRegister, writeCtrl]
      split
      · right; left
        unfold regAt at hr
        split at hr
        · rename_i hw
          rw [Option.map_eq_some_iff] at hr
          obtain ⟨⟨n, r'⟩, hf, hr'⟩ := hr
          have h1 := List.mem_of_find?_eq_some hf
          have h2 := List.find?_some hf
          simp only [beq_iff_eq] at h2
          have hn : n = 0x010 := by
            simp only at hr'
            subst hr'
            simpa [regMap] using h1
          exact ⟨hw, BitVec.eq_of_toNat_eq (by rw [← h2, hn]; rfl), ‹_›, rfl⟩
        · cases hr
      · exact .inr (.inr (.inl ⟨_, rfl⟩))
    | status => exact .inr (.inr (.inr (.inl rfl)))
    | cmd =>
      simp only [writeRegister, writeCmd]
      split
      · exact .inr (.inr (.inr (.inr (.inl ⟨‹_›, rfl⟩))))
      · rename_i h
        have : s.phase = .idle := by cases hp : s.phase <;> simp_all
        exact .inr (.inr (.inr (.inr (.inr (.inl ⟨this, rfl⟩)))))
    | secId =>
      simp only [writeRegister, writeSecId]
      split
      · exact .inl rfl
      · rename_i h
        have : s.phase = .idle := by cases hp : s.phase <;> simp_all
        exact .inr (.inr (.inr (.inr (.inr (.inr (.inr (.inr ⟨this, _, rfl⟩)))))))
    | arg k => exact .inr (.inr (.inr (.inr (.inr (.inr (.inl ⟨_, rfl⟩))))))
    | cfgComp => exact .inr (.inr (.inr (.inr (.inr (.inr (.inr (.inl ⟨_, rfl⟩)))))))
    | cfgHdr => exact .inr (.inr (.inr (.inr (.inr (.inr (.inr (.inl ⟨_, rfl⟩)))))))
    | cfgPrb => exact .inr (.inr (.inr (.inr (.inr (.inr (.inr (.inl ⟨_, rfl⟩)))))))
    | cfgMaxsec => exact .inr (.inr (.inr (.inr (.inr (.inr (.inr (.inl ⟨_, rfl⟩)))))))
    | cfgScale => exact .inr (.inr (.inr (.inr (.inr (.inr (.inr (.inl ⟨_, rfl⟩)))))))
    | cfgStrat => exact .inr (.inr (.inr (.inr (.inr (.inr (.inr (.inl ⟨_, rfl⟩)))))))
    | id => exact .inl rfl
    | cap => exact .inl rfl
    | bmemLast => exact .inl rfl
    | wmemLast => exact .inl rfl
    | res k => exact .inl rfl
  · exact .inl rfl

/-! ### The step -/

/-- What a host access that goes on can do. -/
theorem hostAccess_cases {h : HostAccess} {s t : State} (ht : hostAccess h s = .next t) :
    (∃ d n, t = { s with readData := d, freeCtr := n }) ∨
    (∃ width offset v, h = .writeReg width offset v ∧ t = writeReg width offset v s) ∨
    (∃ a v, h = .writeByte a v ∧ a.toNat < s.params.bmemSize ∧
      t = { noteHostWrite s .b a.toNat with bmem := Memory.write s.bmem a.toNat v }) ∨
    (∃ a v, h = .writeWord a v ∧ a.toNat < s.params.wmemSize ∧
      t = { noteHostWrite s .w a.toNat with wmem := Memory.write s.wmem a.toNat v }) := by
  cases h with
  | readReg width offset => cases ht; exact .inl ⟨_, s.freeCtr, rfl⟩
  | writeReg width offset v => cases ht; exact .inr (.inl ⟨_, _, _, rfl, rfl⟩)
  | readByte a =>
    simp only [hostAccess, readByte] at ht
    split at ht
    · cases ht
    · split at ht
      · cases ht; exact .inl ⟨_, _, rfl⟩
      · cases ht; exact .inl ⟨_, s.freeCtr, rfl⟩
  | readWord a =>
    simp only [hostAccess, readWord] at ht
    split at ht
    · cases ht
    · split at ht
      · cases ht; exact .inl ⟨_, _, rfl⟩
      · cases ht; exact .inl ⟨_, s.freeCtr, rfl⟩
  | writeByte a v =>
    simp only [hostAccess, writeByte] at ht
    split at ht
    · cases ht
    · cases ht; exact .inr (.inr (.inl ⟨a, v, rfl, by omega, rfl⟩))
  | writeWord a v =>
    simp only [hostAccess, writeWord] at ht
    split at ht
    · cases ht
    · cases ht; exact .inr (.inr (.inr ⟨a, v, rfl, by omega, rfl⟩))

/-- What a turn of a busy engine can do: end an illegal word, run the command, or run it on the
memories kept for it and free its output regions. -/
theorem runEngine_cases (s : State) :
    (∃ e, decode s.engCmd = .error e ∧ runEngine s = .next (complete .illegalCommand s)) ∨
    (∃ i t, decode s.engCmd = .ok i ∧ s.engView = none ∧ exec i s = .next t ∧
      runEngine s = .next t) ∨
    (∃ i v t, decode s.engCmd = .ok i ∧ s.engView = some v ∧
      exec i { s with bmem := v.bmem, wmem := v.wmem } = .next t ∧
      runEngine s = .next (violatedResult s t)) := by
  have go : ∀ (i : Instr) (u : State), ∃ t, exec i u = .next t := by
    intro i u
    by_cases hi : i = .init
    · subst hi
      rcases execInit_cases u with ⟨_, -, h⟩ | ⟨_, -, -, h⟩ <;> exact ⟨_, h⟩
    · obtain ⟨t, ht, -⟩ := exec_shaped i hi u
      exact ⟨t, ht⟩
  unfold runEngine
  cases hd : decode s.engCmd with
  | error e => exact .inl ⟨e, rfl, rfl⟩
  | ok i =>
    right
    simp only [runCommand]
    split
    · obtain ⟨t, ht⟩ := go i s
      exact .inl ⟨i, t, rfl, ‹_›, ht, ht⟩
    · rename_i v hv
      obtain ⟨t, ht⟩ := go i { s with bmem := v.bmem, wmem := v.wmem }
      exact .inr ⟨i, v, t, rfl, hv, ht, by rw [ht]⟩

/-- What a step that goes on can do. -/
theorem step_cases {s t : State} (h : step s = .next t) :
    (s.phase = .idle ∧ t = { s with inputs := s.inputs.tail }) ∨
    (s.phase = .busy ∧ runEngine { s with inputs := s.inputs.tail } = .next t) ∨
    (∃ rest, s.inputs = .hardReset :: rest ∧ t = hardReset { s with inputs := rest }) ∨
    (∃ a rest, s.inputs = .host a :: rest ∧ hostAccess a { s with inputs := rest } = .next t) := by
  have eng : ∀ u : State, engineTurn u = .next t →
      (u.phase = .idle ∧ t = u) ∨ (u.phase = .busy ∧ runEngine u = .next t) := by
    intro u hu
    unfold engineTurn at hu
    split at hu
    · exact .inr ⟨‹_›, hu⟩
    · left
      refine ⟨?_, by cases hu; rfl⟩
      cases hp : u.phase <;> simp_all
  unfold step at h
  split at h
  · rename_i hin
    have hs : ({ s with inputs := s.inputs.tail } : State) = s := by cases s; simp_all
    rw [hs]
    rcases eng s h with h | h
    · exact .inl h
    · exact .inr (.inl h)
  · rename_i e rest hin
    cases e with
    | host a => exact .inr (.inr (.inr ⟨a, rest, hin, h⟩))
    | engine =>
      rw [hin]
      rcases eng _ h with h | h
      · exact .inl h
      · exact .inr (.inl h)
    | hardReset => cases h; exact .inr (.inr (.inl ⟨rest, hin, rfl⟩))

/-- The engine owns an address exactly while a command runs one of whose regions holds it
(20_memory.md R95). -/
theorem owns_iff {s : State} {m : MemId} {a : Nat} :
    owns s m a = true ↔ s.phase = .busy ∧
      ∃ r ∈ (runningRegions s).ins ++ (runningRegions s).outs,
        r.mem = m ∧ r.base ≤ a ∧ a < r.base + r.len := by
  simp only [owns, Bool.and_eq_true, beq_iff_eq, Bool.or_eq_true, List.any_eq_true, Region.holds_iff,
    List.mem_append, or_and_right, exists_or]

theorem owns_eq_false_iff {s : State} {m : MemId} {a : Nat} :
    owns s m a = false ↔ s.phase = .idle ∨
      ∀ r ∈ (runningRegions s).ins ++ (runningRegions s).outs,
        r.mem = m → a < r.base ∨ r.base + r.len ≤ a := by
  have hp : s.phase = .idle ↔ ¬ s.phase = .busy := by cases s.phase <;> simp
  rw [← Bool.not_eq_true, owns_iff, not_and_or, hp]
  refine or_congr_right ⟨fun h r hr hm => ?_, fun h ⟨r, hr, hm, _, _⟩ => ?_⟩
  · by_contra hc
    exact h ⟨r, hr, hm, by omega, by omega⟩
  · have := h r hr hm
    omega

end Sys2Proof.Machine
end

