-- ==== Sys2Proof/Laws/PerInstr.lean ====
section
/-!
SUPPORT. What holds of every command as syntax, one lemma for each constructor: bits 31:25 of its word
are 0 (30_encoding.md R114).
-/

namespace Sys2Proof.Laws.EncodesReservedZero

/-- The reserved bits of the command's word are 0. -/
def Statement (i : Instr) : Prop := reservedOf (encode i) = 0#7

theorem nop : Statement .nop := reservedOf_commandWord _ _ _ _

theorem init : Statement .init := reservedOf_commandWord _ _ _ _

theorem quant : Statement .quant := reservedOf_commandWord _ _ _ _

theorem dequant (e8 : BitVec 8) : Statement (.dequant e8) := reservedOf_commandWord _ _ _ _

theorem pack (w : BitVec 5) : Statement (.pack w) := reservedOf_commandWord _ _ _ _

theorem unpack (w : BitVec 5) : Statement (.unpack w) := reservedOf_commandWord _ _ _ _

theorem bfpx (w : BitVec 5) : Statement (.bfpx w) := reservedOf_commandWord _ _ _ _

theorem bfpcI (w : BitVec 5) : Statement (.bfpcI w) := reservedOf_commandWord _ _ _ _

theorem bfpcF (w : BitVec 5) : Statement (.bfpcF w) := reservedOf_commandWord _ _ _ _

theorem bfpdF (w : BitVec 5) : Statement (.bfpdF w) := reservedOf_commandWord _ _ _ _

theorem bfpdRaw (w : BitVec 5) : Statement (.bfpdRaw w) := reservedOf_commandWord _ _ _ _

theorem prbSize (w : BitVec 5) (meth : BitVec 4) : Statement (.prbSize w meth) :=
  reservedOf_commandWord _ _ _ _

theorem msgDec : Statement .msgDec := reservedOf_commandWord _ _ _ _

theorem msgEnc (w : BitVec 5) (meth : BitVec 4) : Statement (.msgEnc w meth) :=
  reservedOf_commandWord _ _ _ _

end Sys2Proof.Laws.EncodesReservedZero
end

