-- ==== Sys2Proof/Laws/Quantizer.lean ====
section
/-!
SUPPORT. The laws of the quantizer (40_quantizer.md): what each rounding function gives, once for each,
and what `to_fixed` clamps.
-/

namespace Sys2Proof.Machine

/-! ### Rounding half away from zero -/

/-- `round_q` by its absolute value: the nearest integer to `|n| / d`, a half rounded up
(40_quantizer.md R163). -/
theorem roundQ_natAbs (n : Int) {d : Nat} (hd : 0 < d) :
    2 * d * (roundQ n d).natAbs ≤ 2 * n.natAbs + d ∧
      2 * n.natAbs + d < 2 * d * (roundQ n d).natAbs + 2 * d ∧
      (n < 0 → roundQ n d ≤ 0) ∧ (0 ≤ n → 0 ≤ roundQ n d) := by
  have h1 : 2 * d * ((2 * n.natAbs + d) / (2 * d)) ≤ 2 * n.natAbs + d := Nat.mul_div_le _ _
  have h2 : 2 * n.natAbs + d < 2 * d * ((2 * n.natAbs + d) / (2 * d)) + 2 * d := by
    have := Nat.lt_mul_div_succ (2 * n.natAbs + d) (b := 2 * d) (by omega)
    rwa [Nat.mul_succ] at this
  generalize hk : (2 * n.natAbs + d) / (2 * d) = k at h1 h2
  have habs : (roundQ n d).natAbs = k := by
    unfold roundQ; split <;> simp only [hk] <;> omega
  refine ⟨by rw [habs]; exact h1, by rw [habs]; exact h2, fun hn => ?_, fun hn => ?_⟩
  · unfold roundQ; rw [if_pos hn, hk]; omega
  · unfold roundQ; rw [if_neg (by omega), hk]; omega

/-- `round_q` as a real: within a half, and at a half away from zero (40_quantizer.md R163). -/
theorem roundQ_spec (n : Int) {d : Nat} (hd : 0 < d) :
    abs ((roundQ n d : ℚ) - (n : ℚ) / d) ≤ 1 / 2 ∧
      (abs ((roundQ n d : ℚ) - (n : ℚ) / d) = 1 / 2 →
        abs ((n : ℚ) / d) < abs (roundQ n d : ℚ)) := by
  obtain ⟨h1, h2, h3, h4⟩ := roundQ_natAbs n hd
  have hd' : (0 : ℚ) < d := by exact_mod_cast hd
  have h1' : (2 * d * (roundQ n d).natAbs : ℚ) ≤ 2 * n.natAbs + d := by exact_mod_cast h1
  have h2' : (2 * n.natAbs + d : ℚ) < 2 * d * (roundQ n d).natAbs + 2 * d := by exact_mod_cast h2
  have hna : ∀ z : Int, ((z.natAbs : ℕ) : ℚ) = abs (z : ℚ) := fun z => by
    rw [← Int.cast_abs, Int.abs_eq_natAbs]; rfl
  rw [hna, hna] at h1' h2'
  have hdiv : (n : ℚ) / d * d = n := div_mul_cancel₀ _ (ne_of_gt hd')
  rcases lt_or_ge n 0 with hn | hn
  · have hn' : (n : ℚ) < 0 := by exact_mod_cast hn
    have hr : (roundQ n d : ℚ) ≤ 0 := by exact_mod_cast h3 hn
    rw [abs_of_nonpos hr, abs_of_neg hn'] at h1' h2'
    have hq : (n : ℚ) / d < 0 := div_neg_of_neg_of_pos hn' hd'
    rw [abs_of_neg hq, abs_of_nonpos hr]
    generalize (n : ℚ) / d = y at *
    generalize (roundQ n d : ℚ) = r at *
    have hlo : -(1 / 2) ≤ r - y := by nlinarith
    have hhi : r - y < 1 / 2 := by nlinarith
    refine ⟨abs_le.mpr ⟨hlo, hhi.le⟩, fun h => ?_⟩
    rcases abs_eq (by norm_num : (0 : ℚ) ≤ 1 / 2) |>.mp h with h | h <;> linarith
  · have hn' : (0 : ℚ) ≤ n := by exact_mod_cast hn
    have hr : (0 : ℚ) ≤ roundQ n d := by exact_mod_cast h4 hn
    rw [abs_of_nonneg hr, abs_of_nonneg hn'] at h1' h2'
    have hq : 0 ≤ (n : ℚ) / d := div_nonneg hn' hd'.le
    rw [abs_of_nonneg hq, abs_of_nonneg hr]
    generalize (n : ℚ) / d = y at *
    generalize (roundQ n d : ℚ) = r at *
    have hlo : -(1 / 2) < r - y := by nlinarith
    have hhi : r - y ≤ 1 / 2 := by nlinarith
    refine ⟨abs_le.mpr ⟨hlo.le, hhi⟩, fun h => ?_⟩
    rcases abs_eq (by norm_num : (0 : ℚ) ≤ 1 / 2) |>.mp h with h | h <;> linarith

/-- `round_q` of a clamped value stays clamped (40_quantizer.md R165). -/
theorem roundQ_clamped {n : Int} {d : Nat} (hd : 0 < d) (hlo : -32768 * (d : Int) ≤ n)
    (hhi : n ≤ 32767 * (d : Int)) : -32768 ≤ roundQ n d ∧ roundQ n d ≤ 32767 := by
  obtain ⟨h1, -, h3, h4⟩ := roundQ_natAbs n hd
  rcases lt_or_ge n 0 with hn | hn
  · have := h3 hn
    refine ⟨?_, by omega⟩
    by_contra hc
    have hk : 32769 ≤ (roundQ n d).natAbs := by omega
    have : 2 * d * 32769 ≤ 2 * d * (roundQ n d).natAbs := Nat.mul_le_mul_left _ hk
    omega
  · have := h4 hn
    refine ⟨by omega, ?_⟩
    by_contra hc
    have hk : 32768 ≤ (roundQ n d).natAbs := by omega
    have : 2 * d * 32768 ≤ 2 * d * (roundQ n d).natAbs := Nat.mul_le_mul_left _ hk
    omega

/-! ### Rounding half to even -/

/-- The nearest integer, a half to the even one (40_quantizer.md R162). -/
theorem nearestEven_spec (n : Nat) {d : Nat} (hd : 0 < d) :
    2 * d * nearestEven n d ≤ 2 * n + d ∧ 2 * n ≤ 2 * d * nearestEven n d + d ∧
      (2 * d * nearestEven n d = 2 * n + d ∨ 2 * n = 2 * d * nearestEven n d + d →
        nearestEven n d % 2 = 0) := by
  have hdm : d * (n / d) + n % d = n := Nat.div_add_mod n d
  have hr : n % d < d := Nat.mod_lt _ hd
  unfold nearestEven
  simp only
  generalize n / d = q at *
  generalize n % d = r at *
  have e1 : 2 * d * (q + 1) = 2 * (d * q) + 2 * d := by ring
  have e2 : 2 * d * q = 2 * (d * q) := by ring
  split
  · rename_i h
    rw [e1]
    refine ⟨by omega, by omega, fun h' => by omega⟩
  · rename_i h
    rw [e2]
    refine ⟨by omega, by omega, fun h' => by omega⟩

/-- `floor(log2(a / d))` (40_quantizer.md R162). -/
theorem floorLog2_spec {a d : Nat} (ha : 0 < a) (hd : 0 < d) :
    (2 : ℚ) ^ floorLog2 a d ≤ (a : ℚ) / d ∧ (a : ℚ) / d < (2 : ℚ) ^ (floorLog2 a d + 1) := by
  have ha1 : 2 ^ Nat.log2 a ≤ a := Nat.log2_self_le (by omega)
  have ha2 : a < 2 ^ (Nat.log2 a + 1) := Nat.lt_log2_self
  have hd1 : 2 ^ Nat.log2 d ≤ d := Nat.log2_self_le (by omega)
  have hd2 : d < 2 ^ (Nat.log2 d + 1) := Nat.lt_log2_self
  have hd' : (0 : ℚ) < d := by exact_mod_cast hd
  have ha1' : (2 : ℚ) ^ Nat.log2 a ≤ a := by exact_mod_cast ha1
  have ha2' : (a : ℚ) < 2 ^ (Nat.log2 a + 1) := by exact_mod_cast ha2
  have hd1' : (2 : ℚ) ^ Nat.log2 d ≤ d := by exact_mod_cast hd1
  have hd2' : (d : ℚ) < 2 ^ (Nat.log2 d + 1) := by exact_mod_cast hd2
  generalize hx : Nat.log2 a = x at *
  generalize hy : Nat.log2 d = y at *
  have h2 : (0 : ℚ) < 2 := by norm_num
  -- the quotient lies between `2^(x-y-1)` and `2^(x-y+1)`
  have hlow : (2 : ℚ) ^ ((x : Int) - y - 1) < (a : ℚ) / d := by
    rw [lt_div_iff₀ hd']
    calc (2 : ℚ) ^ ((x : Int) - y - 1) * d < (2 : ℚ) ^ ((x : Int) - y - 1) * 2 ^ (y + 1) := by
          have : (0 : ℚ) < (2 : ℚ) ^ ((x : Int) - y - 1) := zpow_pos h2 _
          exact mul_lt_mul_of_pos_left hd2' this
      _ = 2 ^ x := by
          rw [← zpow_natCast, ← zpow_natCast, ← zpow_add₀ (ne_of_gt h2)]
          congr 1; push_cast; ring
      _ ≤ a := ha1'
  have hupp : (a : ℚ) / d < (2 : ℚ) ^ ((x : Int) - y + 1) := by
    rw [div_lt_iff₀ hd']
    calc (a : ℚ) < 2 ^ (x + 1) := ha2'
      _ = (2 : ℚ) ^ ((x : Int) - y + 1) * 2 ^ y := by
          rw [← zpow_natCast, ← zpow_natCast, ← zpow_add₀ (ne_of_gt h2)]
          congr 1; push_cast; ring
      _ ≤ (2 : ℚ) ^ ((x : Int) - y + 1) * d :=
          mul_le_mul_of_nonneg_left hd1' (zpow_pos h2 _).le
  have hiff : d * 2 ^ ((x : Int) - y).toNat ≤ a * 2 ^ (-((x : Int) - y)).toNat ↔
      (2 : ℚ) ^ ((x : Int) - y) ≤ (a : ℚ) / d := by
    have hp : (2 : ℚ) ^ ((x : Int) - y) * (2 ^ (-((x : Int) - y)).toNat : ℚ) =
        2 ^ ((x : Int) - y).toNat := by
      rw [← zpow_natCast, ← zpow_natCast, ← zpow_add₀ (ne_of_gt h2)]
      congr 1; omega
    have hpos : (0 : ℚ) < 2 ^ (-((x : Int) - y)).toNat := by positivity
    rw [le_div_iff₀ hd', ← mul_le_mul_iff_left₀ hpos,
      show (2 : ℚ) ^ ((x : Int) - y) * d * 2 ^ (-((x : Int) - y)).toNat =
        d * ((2 : ℚ) ^ ((x : Int) - y) * 2 ^ (-((x : Int) - y)).toNat) by ring, hp]
    exact_mod_cast Iff.rfl
  unfold floorLog2
  rw [hx, hy]
  simp only
  split
  · rename_i h
    exact ⟨hiff.mp h, hupp⟩
  · rename_i h
    have h' := fun hc => h (hiff.mpr hc)
    exact ⟨hlow.le, by rw [sub_add_cancel]; exact lt_of_not_ge h'⟩

/-! ### Conversion to fixed point -/

/-- The clamped and rounded product (40_quantizer.md R165). -/
theorem clampRound_spec (num exp : Int) :
    clampRound num exp ≤ 32767 ∧ -32768 ≤ clampRound num exp ∧
      abs ((clampRound num exp : ℚ) - max (-32768) (min 32767 (realOf num exp))) ≤ 1 / 2 ∧
      (abs ((clampRound num exp : ℚ) - max (-32768) (min 32767 (realOf num exp))) = 1 / 2 →
        abs (max (-32768) (min 32767 (realOf num exp))) < abs (clampRound num exp : ℚ)) := by
  have hd : 0 < 2 ^ (-exp).toNat := by positivity
  have hd' : (0 : ℚ) < ((2 ^ (-exp).toNat : ℕ) : ℚ) := by exact_mod_cast hd
  have hreal : ((num * (2 ^ exp.toNat : Nat) : Int) : ℚ) / ((2 ^ (-exp).toNat : ℕ) : ℚ) =
      realOf num exp := by
    rw [div_eq_iff (ne_of_gt hd'), realOf]
    push_cast
    rw [mul_assoc, ← zpow_natCast, ← zpow_natCast, ← zpow_add₀ (by norm_num : (2 : ℚ) ≠ 0)]
    congr 2; omega
  unfold clampRound
  simp only
  generalize hdd : 2 ^ (-exp).toNat = d at *
  generalize hss : num * ((2 ^ exp.toNat : ℕ) : Int) = z at *
  have hy : ((min (32767 * (d : Int)) (max (-32768 * (d : Int)) z) : Int) : ℚ) / (d : ℚ) =
      max (-32768) (min 32767 (realOf num exp)) := by
    rw [← hreal]
    push_cast
    rw [← min_div_div_right hd'.le, ← max_div_div_right hd'.le,
      mul_div_cancel_right₀ _ (ne_of_gt hd'), mul_div_cancel_right₀ _ (ne_of_gt hd')]
    rcases le_total ((z : ℚ) / d) 32767 with h | h
    · rw [min_eq_right h, min_eq_right (max_le (by norm_num) h)]
    · rw [min_eq_left h, max_eq_right (a := (-32768 : ℚ)) (b := (z : ℚ) / d) (by linarith),
        min_eq_left h, max_eq_right (by norm_num)]
  have hc := roundQ_clamped (n := min (32767 * (d : Int)) (max (-32768 * (d : Int)) z)) hd
    (by omega) (by omega)
  have hs := roundQ_spec (min (32767 * (d : Int)) (max (-32768 * (d : Int)) z)) hd
  rw [hy] at hs
  exact ⟨hc.2, hc.1, hs.1, hs.2⟩

/-! ### Conversion to floating point -/

/-- Decoding the pattern of a sign, an exponent field and a fraction (40_quantizer.md R161). -/
theorem fdecSample_packFloat (fmt : FloatFmt) (neg : Bool) {e f : Nat} (he : e < 2 ^ expBits fmt)
    (hf : f < 2 ^ fracBits fmt) :
    fdecSample fmt (packFloat fmt neg e f) =
        (if e = 2 ^ expBits fmt - 1 then (if f = 0 then .inf neg else .nan)
         else if e = 0 then
          .finite ((if neg then -1 else 1) * f) (1 - expBias fmt - fracBits fmt)
         else .finite ((if neg then -1 else 1) * (2 ^ fracBits fmt + f : Nat))
          (e - expBias fmt - fracBits fmt)) ∧
      (packFloat fmt neg e f).getLsbD 15 = neg ∧
      (packFloat fmt neg e f).getLsbD 0 = decide (f % 2 = 1) := by
  have hn : (packFloat fmt neg e f).toNat =
      (if neg then 2 ^ 15 else 0) + e * 2 ^ fracBits fmt + f := by
    simp only [packFloat, BitVec.toNat_ofNat]
    cases fmt <;> cases neg <;> simp [fracBits, expBits] at * <;> omega
  have h15 : (packFloat fmt neg e f).toNat.testBit 15 = neg := by
    rw [hn, Nat.testBit_eq_decide_div_mod_eq]
    cases fmt <;> cases neg <;> simp [fracBits, expBits] at * <;> omega
  have h0 : (packFloat fmt neg e f).toNat.testBit 0 = decide (f % 2 = 1) := by
    rw [hn, Nat.testBit_eq_decide_div_mod_eq]
    cases fmt <;> cases neg <;> simp [fracBits, expBits] at * <;> omega
  refine ⟨?_, h15, h0⟩
  have hs : expBits fmt + fracBits fmt = 15 := by cases fmt <;> rfl
  have hE : (packFloat fmt neg e f).toNat / 2 ^ fracBits fmt % 2 ^ expBits fmt = e := by
    rw [hn]; cases fmt <;> cases neg <;> simp [fracBits, expBits] at * <;> omega
  have hF : (packFloat fmt neg e f).toNat % 2 ^ fracBits fmt = f := by
    rw [hn]; cases fmt <;> cases neg <;> simp [fracBits, expBits] at * <;> omega
  simp only [fdecSample, fdec, hs, hE, hF, h15]

/-- The end of `RNE` (40_quantizer.md R162): a rounded significand `m` of exponent `e` becomes ±inf
above the range, and otherwise a pattern that decodes to `m · 2^(e − fb)` with its sign; the lowest bit
of the pattern is that of `m`. -/
theorem rneFinish_spec (fmt : FloatFmt) (neg : Bool) {m : Nat} {e : Int}
    (hm : m ≤ 2 ^ (fracBits fmt + 1)) (he : 1 - (expBias fmt : Int) ≤ e)
    (hn : 1 - (expBias fmt : Int) < e → 2 ^ fracBits fmt ≤ m) :
    (rneFinish fmt neg m e).getLsbD 15 = neg ∧
      ((expBias fmt < e ∨ (e = expBias fmt ∧ m = 2 ^ (fracBits fmt + 1))) →
        fdecSample fmt (rneFinish fmt neg m e) = .inf neg) ∧
      ((e < expBias fmt ∨ (e = expBias fmt ∧ m < 2 ^ (fracBits fmt + 1))) →
        (rneFinish fmt neg m e).getLsbD 0 = decide (m % 2 = 1) ∧
        ∃ n x, fdecSample fmt (rneFinish fmt neg m e) = .finite n x ∧
          realOf n x = (if neg then -1 else 1) * (m : ℚ) * (2 : ℚ) ^ (e - fracBits fmt)) := by
  have hfb : 1 ≤ fracBits fmt := by cases fmt <;> decide
  have heb : 2 ^ expBits fmt = 2 * expBias fmt + 2 := by cases fmt <;> rfl
  have hbias : 1 ≤ expBias fmt := by cases fmt <;> decide
  have hpos : 0 < 2 ^ fracBits fmt := by positivity
  have hpp : 2 ^ (fracBits fmt + 1) = 2 * 2 ^ fracBits fmt := by rw [pow_succ]; ring
  have heven : 2 ^ fracBits fmt % 2 = 0 := by cases fmt <;> rfl
  have hinf := fdecSample_packFloat fmt neg (e := 2 ^ expBits fmt - 1) (f := 0) (by omega) hpos
  unfold rneFinish
  simp only
  by_cases hcarry : m = 2 ^ (fracBits fmt + 1)
  · simp only [if_pos hcarry]
    by_cases hover : e + 1 > expBias fmt
    · rw [if_pos hover]
      refine ⟨hinf.2.1, fun _ => by rw [hinf.1]; simp, fun h => by omega⟩
    · rw [if_neg hover, if_neg (lt_irrefl _), Nat.sub_self]
      have hpk := fdecSample_packFloat fmt neg (e := (e + 1 + expBias fmt).toNat) (f := 0)
        (by omega) hpos
      refine ⟨hpk.2.1, fun h => by omega, fun _ => ⟨?_, ?_⟩⟩
      · rw [hpk.2.2, hcarry, hpp]; simp
      · rw [hpk.1, if_neg (by omega), if_neg (by omega)]
        refine ⟨_, _, rfl, ?_⟩
        have hx : ((e + 1 + expBias fmt).toNat : Int) - expBias fmt - fracBits fmt =
            (e - fracBits fmt) + 1 := by omega
        rw [realOf, hx, zpow_add_one₀ (by norm_num), hcarry, hpp]
        cases neg <;> (push_cast; simp; ring)
  · simp only [if_neg hcarry]
    by_cases hover : e > expBias fmt
    · rw [if_pos hover]
      refine ⟨hinf.2.1, fun _ => by rw [hinf.1]; simp, fun h => by omega⟩
    · rw [if_neg hover]
      by_cases hsub : m < 2 ^ fracBits fmt
      · rw [if_pos hsub]
        have hpk := fdecSample_packFloat fmt neg (e := 0) (f := m) (by omega) hsub
        refine ⟨hpk.2.1, fun h => by omega, fun _ => ⟨hpk.2.2, ?_⟩⟩
        rw [hpk.1, if_neg (by omega), if_pos rfl]
        refine ⟨_, _, rfl, ?_⟩
        have hee : e = 1 - (expBias fmt : Int) := by
          by_contra hc
          have := hn (by omega)
          omega
        rw [realOf, hee]
        cases neg <;> (push_cast; simp)
      · rw [if_neg hsub]
        have hpk := fdecSample_packFloat fmt neg (e := (e + expBias fmt).toNat)
          (f := m - 2 ^ fracBits fmt) (by omega) (by omega)
        refine ⟨hpk.2.1, fun h => by omega, fun _ => ⟨?_, ?_⟩⟩
        · rw [hpk.2.2]
          congr 1
          exact propext ⟨fun _ => by omega, fun _ => by omega⟩
        · rw [hpk.1, if_neg (by omega), if_neg (by omega)]
          refine ⟨_, _, rfl, ?_⟩
          have hx : ((e + expBias fmt).toNat : Int) - expBias fmt - fracBits fmt =
              e - fracBits fmt := by omega
          have hm' : 2 ^ fracBits fmt + (m - 2 ^ fracBits fmt) = m := by omega
          rw [realOf, hx, hm']
          cases neg <;> (push_cast; simp)

end Sys2Proof.Machine
end

