-- ==== Sys2Proof/Tests/Slice0.lean ====
section
/-!
SUPPORT. Tests: ill-formed commands, decoding of words written out from 30_encoding.md R110 and R116,
one step of each command on the vectors of 95_test_vectors.md (each theorem names its vector), and for
every obligation with hypotheses a state that meets them (`witness_…`).
-/

namespace Sys2Proof.Tests

open Sys2Proof.Machine

-- One proof after another: each `decide +kernel` waits for every proof before it.
set_option Elab.async false

/-! ### Helpers -/

/-- A bank of registers from its first values. -/
def bank (v : List Word) : Bank :=
  ⟨v.getD 0 0, v.getD 1 0, v.getD 2 0, v.getD 3 0, v.getD 4 0, v.getD 5 0, v.getD 6 0, v.getD 7 0⟩

/-- The active configuration that INIT makes of the reset configuration (95_test_vectors.md). -/
def cfg0 : ActiveCfg :=
  { method := 1#4, bw := 9#5, dyn := false, decDir := true, encDir := false, version := 1#3,
    encFilter := 0#4, mu := 1#3, syms := 14#7, nofPrb := 273#11, maxSec := 16#16,
    scale := 0x3F800000#32, tier := .baseline }

/-- A configured unit that runs a command with arguments `a`, WMEM from 0 on holding `ws`, BMEM from 0
on holding `bs`. -/
def busy (c : ActiveCfg) (a : List Word) (ws : List Sample) (bs : List Byte) : State :=
  { State.reset with
    cfg := c
    cfgOk := true
    phase := .busy
    engArg := bank a
    wmem := Memory.writeRange [] 0 ws
    bmem := Memory.writeRange [] 0 bs }

/-- What an observation gives in the next state, if there is one. -/
def got {α : Type} (r : Result) (f : State → α) : Option α :=
  match r with
  | .next t => some (f t)
  | .fault _ => none
  | .refused _ => none

/-- The code a command ends with. -/
def endsWith (r : Result) : Option Code := got r State.code

/-- `n` WMEM words from `a` on after a step. -/
def words (r : Result) (a n : Nat) : Option (List Sample) := got r fun t => Memory.readRange t.wmem a n

/-- `n` BMEM bytes from `a` on after a step. -/
def bytes (r : Result) (a n : Nat) : Option (List Byte) := got r fun t => Memory.readRange t.bmem a n

/-! ### Well-formedness: each check refuses an ill-formed command -/

theorem test_wf_pack_zero : (Instr.pack 0#5).wf = false := by decide
theorem test_wf_unpack_17 : (Instr.unpack 17#5).wf = false := by decide
theorem test_wf_bfpx_31 : (Instr.bfpx 31#5).wf = false := by decide
theorem test_wf_bfpcI_zero : (Instr.bfpcI 0#5).wf = false := by decide
theorem test_wf_bfpcF_17 : (Instr.bfpcF 17#5).wf = false := by decide
theorem test_wf_bfpdF_zero : (Instr.bfpdF 0#5).wf = false := by decide
theorem test_wf_bfpdRaw_17 : (Instr.bfpdRaw 17#5).wf = false := by decide
theorem test_wf_prbSize_width : (Instr.prbSize 0#5 1#4).wf = false := by decide
theorem test_wf_prbSize_method : (Instr.prbSize 9#5 7#4).wf = false := by decide
theorem test_wf_msgEnc_width : (Instr.msgEnc 17#5 1#4).wf = false := by decide
theorem test_wf_msgEnc_method : (Instr.msgEnc 9#5 15#4).wf = false := by decide

/-! ### Decoding: words written out as reserved, E8, METH, W, OPC -/

theorem test_decode_nop :
    decode 0b0000000_00000000_0000_00000_00000000#32 = .ok .nop := by decide
theorem test_decode_init :
    decode 0b0000000_00000000_0000_00000_00000001#32 = .ok .init := by decide
theorem test_decode_quant :
    decode 0b0000000_00000000_0000_00000_00010000#32 = .ok .quant := by decide
theorem test_decode_dequant :
    decode 0b0000000_10000111_0000_00000_00010001#32 = .ok (.dequant 0x87#8) := by decide
theorem test_decode_pack :
    decode 0b0000000_00000000_0000_00011_00100000#32 = .ok (.pack 3#5) := by decide
theorem test_decode_unpack :
    decode 0b0000000_00000000_0000_10000_00100001#32 = .ok (.unpack 16#5) := by decide
theorem test_decode_bfpx :
    decode 0b0000000_00000000_0000_00001_00110000#32 = .ok (.bfpx 1#5) := by decide
theorem test_decode_bfpcI :
    decode 0b0000000_00000000_0000_01001_00110001#32 = .ok (.bfpcI 9#5) := by decide
theorem test_decode_bfpcF :
    decode 0b0000000_00000000_0000_01110_00110010#32 = .ok (.bfpcF 14#5) := by decide
theorem test_decode_bfpdF :
    decode 0b0000000_00000000_0000_00111_00110011#32 = .ok (.bfpdF 7#5) := by decide
theorem test_decode_bfpdRaw :
    decode 0b0000000_00000000_0000_01000_00110100#32 = .ok (.bfpdRaw 8#5) := by decide
theorem test_decode_prbSize :
    decode 0b0000000_00000000_0101_01001_01000000#32 = .ok (.prbSize 9#5 5#4) := by decide
theorem test_decode_msgDec :
    decode 0b0000000_00000000_0000_00000_01000001#32 = .ok .msgDec := by decide
theorem test_decode_msgEnc :
    decode 0b0000000_00000000_0110_10000_01000010#32 = .ok (.msgEnc 16#5 6#4) := by decide

/-- 30_encoding.md R117, one word for each kind of ILLEGAL (95_test_vectors.md C8 to C13). -/
theorem test_decode_refuses :
    [0x02000010#32, 0x000000FF#32, 0x00000110#32, 0x00002010#32, 0x00020010#32, 0x00001120#32,
      0x0000E940#32].map (fun c => decode c) =
    [.error .reservedBits, .error .unassignedOpcode, .error .unusedWidth, .error .unusedMethod,
      .error .unusedExponent, .error .illegalWidth, .error .illegalMethod] := by decide

/-- A word whose bits above the table's count are dropped. -/
theorem test_decodeTableWord : decodeTableWord 32 0x00000920 = some (.pack 9#5) := by decide

/-- The accepted word is what the next step runs. -/
theorem test_withFetchWord :
    endsWith (step (State.reset.withFetchWord 32 0x00000000)) = some .ok := by decide +kernel

/-! ### One step of each command, on the vectors of 95_test_vectors.md -/

/-- The block X: `−12000 + 1000·i`. -/
def blockX : List Int := (List.range 24).map (fun i => -12000 + 1000 * (i : Int))

/-- X compressed at 9 bits (vector B1). -/
def blockB1 : List Byte :=
  [0x06, 0xA2, 0x55, 0x2C, 0x77, 0x3C, 0x1E, 0x4B, 0x45, 0xB1, 0xE0, 0xF4, 0x7C, 0x1F, 0x00, 0x00,
    0x3C, 0x3E, 0x2E, 0x1F, 0x13, 0x8B, 0xA6, 0xD3, 0xEA, 0x31, 0x38, 0xAB]

/-- The float samples F of section 7, sample j of block r. -/
def floatF (r j : Nat) : Sample :=
  [0x3F80#16, 0xBF80#16, 0x3F00#16, 0x3E80#16, 0x0000#16, 0xBE00#16].getD ((r + j) % 6) 0

/-- `n` blocks of the float samples. -/
def floatBlocks (n : Nat) : List Sample :=
  (List.range n).flatMap (fun r => (List.range 24).map (floatF r))

/-- Vector C1. -/
theorem test_nop : endsWith (exec .nop State.reset) = some .ok := by decide

/-- Vector C3: STATUS 0x0000000A, and the configuration of `cfg0`. -/
theorem test_init :
    got (exec .init State.reset) (fun t => (statusWord t, t.cfg)) = some (0x0000000A#32, cfg0) := by
  decide +kernel

/-- Vector C5. -/
theorem test_init_reports :
    got (exec .init { State.reset with
        engCfgRegs := { CfgRegs.reset with comp := 0x07F#10, maxsec := 0#16 } })
      (fun t => (t.code, t.res.r0)) = some (.configError, 0x041#32) := by decide +kernel

/-- Vectors Q1 to Q9: 1, −1, −2, 0.5, −0.5, NaN, +inf, −inf, the smallest subnormal. -/
theorem test_quant :
    words (exec .quant (busy cfg0 [0, 0x40, 9]
        [0x3F80, 0xBF80, 0xC000, 0x3F00, 0xBF00, 0x7FC0, 0x7F80, 0xFF80, 0x0001] [])) 0x40 9 =
      some [0x7FFF, 0x8001, 0x8000, 0x4000, 0xC000, 0, 0x7FFF, 0x8000, 0] := by decide +kernel

/-- Vectors Q17 and Q19: a negative scale, and an infinity times a scale of 0. -/
theorem test_quant_scale :
    (words (exec .quant (busy { cfg0 with scale := 0xBF800000 } [0, 0, 1] [0x3F80] [])) 0 1,
      words (exec .quant (busy { cfg0 with scale := 0 } [0, 0, 1] [0x7F80] [])) 0 1) =
    (some [0x8001], some [0]) := by decide +kernel

/-- Vectors Q20, Q21, Q26, Q28 in FP16: subnormal results and signs. -/
theorem test_dequant_fp16 :
    words (exec (.dequant 0#8)
      { busy cfg0 [0, 8, 4] [0x7FFF, 0x0001, 0x8000, 0xFFFF] [] with
        params := { Params.default with floatFmt := .fp16 } }) 8 4 =
      some [0x3C00, 0x0200, 0xBC00, 0x8200] := by decide +kernel

/-- Vectors Q32, Q33 in BF16: overflow to both infinities. -/
theorem test_dequant_overflow :
    words (exec (.dequant 143#8) (busy cfg0 [0, 8, 2] [0x0001, 0x8000] [])) 8 2 =
      some [0x7F80, 0xFF80] := by decide +kernel

/-- Vector P3. -/
theorem test_pack :
    bytes (exec (.pack 9#5) (busy cfg0 [0, 2, 3, 4] [0x00FF, 0xFF00, 0x0001] [])) 2 4 =
      some [0x7F, 0xC0, 0x00, 0x20] := by decide +kernel

/-- The contract case of section 3: 4 does not fit 3 bits. -/
theorem test_pack_misfit :
    endsWith (exec (.pack 3#5) (busy cfg0 [0, 0, 1, 1] [0x0004] [])) = some .contractViolation := by
  decide +kernel

/-- Section 3: W = 3, pad bits that are not 0. -/
theorem test_unpack :
    words (exec (.unpack 3#5) (busy cfg0 [0, 8, 4, 2] [] [0x3C, 0x3F])) 8 4 =
      some [0x0001, 0xFFFF, 0x0000, 0x0003] := by decide +kernel

/-- Section 4: the exponent of X at 9 bits. -/
theorem test_bfpx :
    words (exec (.bfpx 9#5) (busy cfg0 [0, 0x40, 1] (blockX.map tc16) [])) 0x40 1 = some [6] := by
  decide +kernel

/-- Vector B7a: the two exponent rules. -/
theorem test_exponent_rules :
    (exponent .signed (-256 :: List.replicate 23 0) 8,
      exponent .magnitude (-256 :: List.replicate 23 0) 8) = (1, 2) := by decide +kernel

/-- Vector B1. -/
theorem test_bfpcI :
    bytes (exec (.bfpcI 9#5) (busy cfg0 [0, 0, 1, 28] (blockX.map tc16) [])) 0 28 = some blockB1 := by
  decide +kernel

/-- The BFPC_F block of section 4. -/
theorem test_bfpcF :
    bytes (exec (.bfpcF 9#5) (busy cfg0 [0, 0, 1, 28] (floatBlocks 1) [])) 0 28 =
      some [0x07, 0x7F, 0xC0, 0x10, 0x04, 0x00, 0x07, 0x81, 0xFF, 0x00, 0x40, 0x10, 0x00, 0x1E, 0x07,
        0xFC, 0x01, 0x00, 0x40, 0x00, 0x78, 0x1F, 0xF0, 0x04, 0x01, 0x00, 0x01, 0xE0] := by
  decide +kernel

/-- BFPD_F of B1, section 4. -/
theorem test_bfpdF :
    words (exec (.bfpdF 9#5) (busy cfg0 [0, 0, 1, 28] [] blockB1)) 0 4 =
      some [0xBEBC, 0xBEAC, 0xBE9D, 0xBE8D] := by decide +kernel

/-- BFPD_RAW of B1, section 4: the exponent, −188, −172, −157. -/
theorem test_bfpdRaw :
    words (exec (.bfpdRaw 9#5) (busy cfg0 [0, 0, 1, 28] [] blockB1)) 0 4 =
      some [0x0006, 0xFF44, 0xFF54, 0xFF63] := by decide +kernel

/-- Vectors C15 and C17. -/
theorem test_prbSize :
    (got (exec (.prbSize 9#5 5#4) (busy cfg0 [] [] [])) (fun t => (t.res.r0, t.res.r1, t.res.r2)),
      got (exec (.prbSize 16#5 0#4) (busy cfg0 [] [] [])) (fun t => (t.res.r0, t.res.r1, t.res.r2))) =
    (some (28, 1, 6), some (48, 0, 4)) := by decide +kernel

/-- The message of vector D1. -/
def messageD1 : List Byte := [0x91, 0x05, 0x34, 0x81, 0x00, 0x10, 0x00, 0x01] ++ blockB1

/-- Vector D5: a complete section and a cut one. -/
theorem test_msgDec_truncated :
    got (exec .msgDec (busy { cfg0 with mu := 5#3 } [0, 50, 0x1000, 0x2000, 24] []
        (messageD1 ++ [0x00, 0x20, 0x01, 0x01] ++ blockB1.take 10)))
      (fun t => (t.code, t.res, Memory.readRange t.wmem 0x1000 8, Memory.readRange t.wmem 0x2000 4)) =
    some (.ok, bank [1, 0x05230513, 24, 36, 1, 36], [1, 3, 0, 1, 0x91, 0, 0, 0],
      [0xBEBC, 0xBEAC, 0xBE9D, 0xBE8D]) := by decide +kernel

/-- Vectors D19 and D20: method none at 16 bits, dynamic and static; each value is two bytes, the high one
first. -/
theorem test_msgDec_none :
    let x := blockX.flatMap (fun v => [BitVec.ofInt 8 (v / 256), BitVec.ofInt 8 v])
    let ends := fun (c : ActiveCfg) (l : Word) (msg : List Byte) =>
      got (exec .msgDec (busy { c with mu := 5#3 } [0, l, 0x1000, 0x2000, 24] [] msg))
        (fun t => (t.code, t.res, Memory.readRange t.wmem 0x1000 8, Memory.readRange t.wmem 0x2000 4))
    let want := fun (l : Word) => some (Code.ok, bank [1, 0x05230513, 24, 0, 0, l],
      [4#16, 3, 5, 1, 0x100, 0, 0, 0], [0xBEBC#16, 0xBEAC, 0xBE9C, 0xBE8D])
    ends { cfg0 with dyn := true } 58
      ([0x91, 0x05, 0x34, 0x81, 0x00, 0x40, 0x05, 0x01, 0x00, 0x00] ++ x) = want 58 ∧
    ends { cfg0 with method := 0#4, bw := 16#5 } 56
      ([0x91, 0x05, 0x34, 0x81, 0x00, 0x40, 0x05, 0x01] ++ x) = want 56 := by decide +kernel

/-- Vector D12: a selective method with its length field. -/
theorem test_msgDec_unsupported :
    got (exec .msgDec (busy { cfg0 with mu := 5#3, dyn := true } [0, 40, 0x1000, 0x2000, 24] []
        (messageD1.take 8 ++ [0x95, 0x00, 0x12, 0x34] ++ blockB1)))
      (fun t => (t.code, t.res)) =
    some (.unsupportedMethod, bank [0, 0x05230513, 0, 4]) := by decide +kernel

/-- Vector E11: one buffer, the section id wraps. -/
theorem test_msgEnc_out_of_buffers :
    got (exec (.msgEnc 9#5 1#4)
      { busy { cfg0 with nofPrb := 3#11 } [0, 0, 64, 1, 0x00041305, 0x200] (floatBlocks 3) [] with
        secId := 4095#12 })
      (fun t => (t.code, t.res, t.secId, Memory.readRange t.wmem 0x200 2,
        Memory.readRange t.bmem 0 12)) =
    some (.outOfBuffers, bank [1, 64, 2, 4095], 0, [64, 0],
      [0x10, 0x05, 0x30, 0x41, 0xFF, 0xF0, 0x00, 0x02, 0x07, 0x7F, 0xC0, 0x10]) := by decide +kernel

/-- Vector E7: method none at 16 bits, dynamic mode. -/
theorem test_msgEnc_none :
    got (exec (.msgEnc 16#5 0#4)
      (busy { cfg0 with nofPrb := 3#11, dyn := true } [0, 0, 200, 3, 0x00041305, 0x200]
        (floatBlocks 3) []))
      (fun t => (t.code, t.res, Memory.readRange t.bmem 0 16)) =
    some (.ok, bank [1, 154, 3, 0], [0x10, 0x05, 0x30, 0x41, 0x00, 0x00, 0x00, 0x03, 0x00, 0x00,
      0x7F, 0xFF, 0x80, 0x01, 0x40, 0x00]) := by decide +kernel

/-- 30_encoding.md R122: a line of program 1 of section 8. -/
theorem test_assemble :
    (AsmCommand.events { opc := 0x31, w := 9, meth := 0, e8 := 0, operands := [0x40, 0, 1, 28] }) =
      [.host (.writeReg .word 0x020 0x40), .host (.writeReg .word 0x024 0),
        .host (.writeReg .word 0x028 1), .host (.writeReg .word 0x02C 28),
        .host (.writeReg .word 0x018 0x00000931)] := by decide

/-- The text of that line (30_encoding.md R122). -/
theorem test_assemble_text :
    parseLine "RUN BFPC_I w9 0x040, 0x000, 1, 28".toList =
      some (.pseudo (.run
        { opc := 0x31, w := 9, meth := 0, e8 := 0, operands := [0x40, 0, 1, 28] })) := by
  decide +kernel

/-! ### Witnesses: words and the life of a command -/

theorem witness_DecodeOfEncodeGivesTheCommand :
    (Instr.pack 1#5).wf = true ∧ (Instr.prbSize 16#5 6#4).wf = true := by decide

theorem witness_EncodeOfDecodeGivesTheWord : decode 0x00060011#32 = .ok (.dequant 3#8) := by decide

/-- A unit that runs QUANT of one word, in place at the last word of a WMEM of 16 words. -/
def quantAtEnd : State :=
  { busy cfg0 [15, 15, 1] [] [] with
    params := { Params.default with wmemLast := 15#32 }, engCmd := 0x00000010#32 }

theorem witness_StepRunsTheAcceptedCommand :
    quantAtEnd.phase = .busy ∧ quantAtEnd.engView = none ∧ quantAtEnd.inputs = [] ∧
      (∃ rest, { quantAtEnd with inputs := [.engine, .hardReset] }.inputs = .engine :: rest) ∧
      decode quantAtEnd.engCmd = .ok .quant ∧ State.reset.inputs = [] ∧ State.reset.phase = .idle :=
  ⟨rfl, rfl, rfl, ⟨_, rfl⟩, by decide, rfl, rfl⟩

theorem witness_IllegalWordCompletesAndChangesNothingElse :
    let s := { busy cfg0 [] [] [] with engCmd := 0x02000010#32 }
    s.phase = .busy ∧ s.inputs = [] ∧ decode s.engCmd = .error .reservedBits := by decide

theorem witness_CmdWriteIsAcceptedOrDropped :
    let s := { State.reset with inputs := [.host (.writeReg .word 0x018#32 0x10#32)] }
    s.inputs = .host (.writeReg .word 0x018#32 0x10#32) :: [] ∧ s.phase = .idle ∧
      { s with phase := .busy }.phase = .busy := by decide

theorem witness_EveryCommandCompletes : Instr.nop ≠ .init := by decide

theorem witness_CommandsLeaveTheOtherRegisters :
    (∃ t, exec .quant quantAtEnd = .next t) ∧ Instr.quant ≠ .init ∧
      ∀ w m, Instr.quant ≠ .msgEnc w m := ⟨⟨_, rfl⟩, by decide, fun _ _ h => nomatch h⟩

theorem witness_CommandsWriteOnlyTheirOutputRegions :
    (∃ t, exec .quant quantAtEnd = .next t) ∧
      (∀ r ∈ (commandRegions .quant quantAtEnd).outs, r.mem = .b → 15 < r.base ∨ r.base + r.len ≤ 15) ∧
      (∀ r ∈ (commandRegions .quant quantAtEnd).outs, r.mem = .w → 14 < r.base ∨ r.base + r.len ≤ 14) ∧
      (∀ r ∈ (commandRegions .quant quantAtEnd).outs, r.mem = .w → 16 < r.base ∨ r.base + r.len ≤ 16) :=
  ⟨⟨_, rfl⟩, by decide, by decide, by decide⟩

theorem witness_FailedCommandLeavesMemoriesAndSecId :
    ∃ t, exec (.pack 3#5) (busy cfg0 [0, 0, 1, 0] [4] []) = .next t ∧ t.code ≠ .ok ∧
      t.code ≠ .outOfBuffers := ⟨_, rfl, by decide +kernel, by decide +kernel⟩

/-- Each clause, the range and overlap clauses one address past and one short of a legal region; for two
outputs, the last word of MSG_DEC's one descriptor as its sample area. -/
theorem witness_DataCommandChecksComeInOrder :
    Instr.quant ≠ .nop ∧ Instr.quant ≠ .init ∧ (Instr.pack 0#5).wf = false ∧
    Instr.quant.wf = true ∧ State.reset.cfgOk = false ∧
    (∃ r ∈ (commandRegions .quant { quantAtEnd with engArg := bank [0, 15, 2] }).ins ++
        (commandRegions .quant { quantAtEnd with engArg := bank [0, 15, 2] }).outs,
      ¬ InRange (Params.sizeOf quantAtEnd.params r.mem) r.base r.len) ∧
    (∀ r ∈ (commandRegions .quant { quantAtEnd with engArg := bank [13, 14, 2] }).ins ++
        (commandRegions .quant { quantAtEnd with engArg := bank [13, 14, 2] }).outs,
      InRange (Params.sizeOf quantAtEnd.params r.mem) r.base r.len) ∧
    ¬ Apart 13 2 14 2 ∧
    (let s := busy { cfg0 with maxSec := 1#16 } [0, 0, 0, 7, 1] [] []
     Instr.msgDec.wf = true ∧ s.cfgOk = true ∧
      (∀ r ∈ (commandRegions .msgDec s).ins ++ (commandRegions .msgDec s).outs,
        InRange (Params.sizeOf s.params r.mem) r.base r.len) ∧
      ¬ (commandRegions .msgDec s).outs.Pairwise (fun a b =>
        a.mem = b.mem → Apart a.base a.len b.base b.len)) := by
  unfold InRange Apart
  decide

theorem witness_RegisterWritesDoNotReachTheRunningCommand : ∃ t, exec .quant quantAtEnd = .next t :=
  ⟨_, rfl⟩

theorem witness_TierChangesNoResult : Instr.quant ≠ .init ∧ ∃ t, exec .quant quantAtEnd = .next t :=
  ⟨by decide, _, rfl⟩

/-! ### Witnesses: the whole machine and the host -/

/-- The invariant holds of a configured unit that runs a command. -/
theorem witness_StepKeepsTheInvariant :
    Inv (busy cfg0 [] [1, 2] [3]) ∧ ∃ t, step (busy cfg0 [] [1, 2] [3]) = .next t :=
  ⟨⟨by unfold MemoriesWf; decide +kernel, by unfold CfgSound LegalCfg; decide +kernel,
    by unfold StatusSound; decide, ⟨by decide, fun _ h => nomatch h⟩⟩, _, rfl⟩

/-- Both kinds of stop, at the first address that does not exist. -/
theorem witness_StepStopsOnlyOnAMissingAddress :
    let s := { State.reset with params := { Params.default with bmemLast := 7#32, wmemLast := 7#32 } }
    step { s with inputs := [.host (.readByte 8#32)] } = .fault (.hostAddress .b 8#32) ∧
    step { s with inputs := [.host (.writeByte 8#32 1#8)] } = .fault (.hostAddress .b 8#32) ∧
    step { s with inputs := [.host (.readWord 8#32)] } = .fault (.hostAddress .w 8#32) ∧
    step { s with inputs := [.host (.writeWord 8#32 1#16)] } = .fault (.hostAddress .w 8#32) ∧
    ∃ t, step { s with inputs := [.host (.readByte 7#32)] } = .next t :=
  ⟨rfl, rfl, rfl, rfl, _, rfl⟩

theorem witness_OnlyInitAndResetChangeTheConfiguration :
    (∃ t, step { State.reset with phase := .busy, engCmd := 1#32 } = .next t ∧
      t.cfg ≠ State.reset.cfg ∧ t.cfgOk = true) ∧
    (∃ t, step { quantAtEnd with inputs := [.hardReset] } = .next t ∧ t.cfg ≠ quantAtEnd.cfg) ∧
    ∃ t, step { quantAtEnd with
        phase := .idle, inputs := [.host (.writeReg .word 0x010#32 2#32)] } = .next t ∧
      t.cfg ≠ quantAtEnd.cfg :=
  ⟨⟨_, rfl, by decide +kernel, by decide +kernel⟩, ⟨_, rfl, by decide +kernel⟩,
    ⟨_, rfl, by decide +kernel⟩⟩

theorem witness_InterruptFollowsEnableAndDone :
    (∃ t, exec .nop State.reset = .next t) ∧ (0x00000001#32).getLsbD 1 = false ∧
      (0x00000002#32).getLsbD 1 = true ∧ State.reset.phase = .idle :=
  ⟨⟨_, rfl⟩, by decide, by decide, rfl⟩

/-- The offsets at the ends of each range. -/
theorem witness_UnsupportedRegisterAccessesDoNothing :
    AccessWidth.byte ≠ .word ∧ (0x016#32).toNat % 4 ≠ 0 ∧ (0x01C#32).toNat = 0x01C ∧
    (0x060 ≤ (0x060#32).toNat ∧ (0x07C#32).toNat < 0x080) ∧ 0x09C ≤ (0x09C#32).toNat ∧
    (0x00C#32).toNat < 0x010 ∧ (0x040 ≤ (0x040#32).toNat ∧ (0x05C#32).toNat < 0x060) ∧
    { State.reset with inputs := [.host (.readReg .word 0x014#32)] }.inputs =
      .host (.readReg .word 0x014#32) :: [] ∧
    { State.reset with inputs := [.host (.writeReg .byte 0x01C#32 1#32)] }.inputs =
      .host (.writeReg .byte 0x01C#32 1#32) :: [] := by decide

theorem witness_StatusReadsItsFieldsAndClearsByOnes :
    { State.reset with code := .notConfigured }.code = .notConfigured ∧
      { State.reset with selTier := .tier2 }.selTier = .tier2 := by decide

theorem witness_SecIdIsWritableOnlyWhileIdle :
    State.reset.phase = .idle ∧ quantAtEnd.phase = .busy := by decide

theorem witness_CtrlWriteEnablesOrResets :
    (0x00000001#32).getLsbD 1 = false ∧ (0x00000003#32).getLsbD 1 = true := by decide

theorem witness_ResetsLeaveResetRegistersAndMemories :
    State.reset.phase = .idle ∧
      { quantAtEnd with inputs := [.hardReset] }.inputs = .hardReset :: [] ∧
      (∀ r ∈ (runningRegions quantAtEnd).outs, r.mem = .b → 15 < r.base ∨ r.base + r.len ≤ 15) ∧
      (∀ r ∈ (runningRegions quantAtEnd).outs, r.mem = .w → 14 < r.base ∨ r.base + r.len ≤ 14) := by
  decide

/-- The last address of each memory, and the word just before the one the engine owns; any word while
the block is idle. -/
theorem witness_HostReachesMemoryOutsideOwnedRegions :
    let s := { quantAtEnd with params := { quantAtEnd.params with bmemLast := 15#32 } }
    let rs := runningRegions s
    decode s.engCmd = .ok .quant ∧ s.cfgOk = true ∧
    (∀ r ∈ rs.ins ++ rs.outs, r.mem = .b → 15 < r.base ∨ r.base + r.len ≤ 15) ∧
      15 < s.params.bmemSize ∧ Memory.wf s.bmem ∧ Memory.wf s.wmem ∧
      (∀ r ∈ rs.ins ++ rs.outs, r.mem = .w → 14 < r.base ∨ r.base + r.len ≤ 14) ∧
      14 < s.params.wmemSize ∧ { s with phase := .idle }.phase = .idle ∧ 15 < s.params.wmemSize ∧
      { s with inputs := [.host (.readByte 15#32)] }.inputs = .host (.readByte 15#32) :: [] ∧
      { s with inputs := [.host (.writeWord 14#32 1#16)] }.inputs =
        .host (.writeWord 14#32 1#16) :: [] := by decide

/-- The engine's turn with and without inputs left; the word QUANT owns and the byte PACK owns, each the
last of its memory. -/
theorem witness_HostWriteIntoOwnedRegionFreesOnlyOutputs :
    let v : View := { bmem := [], wmem := [(15, 0x3F80#16)] }
    let s := { quantAtEnd with engView := some v }
    let s' := { s with inputs := [.engine, .hardReset] }
    let p := { quantAtEnd with
      params := { quantAtEnd.params with bmemLast := 15#32 }
      engCmd := 0x00000920#32
      engArg := bank [0, 15, 0, 1] }
    (s.phase = .busy ∧ s.engView = some v ∧ s.inputs = [] ∧ s'.inputs = .engine :: [.hardReset] ∧
      decode s.engCmd = .ok .quant ∧
      (∃ u, exec .quant { s with inputs := s.inputs.tail, bmem := v.bmem, wmem := v.wmem } = .next u) ∧
      (∃ u, exec .quant { s' with inputs := s'.inputs.tail, bmem := v.bmem, wmem := v.wmem } = .next u) ∧
      (∀ r ∈ (runningRegions s).outs, r.mem = .w → 14 < r.base ∨ r.base + r.len ≤ 14)) ∧
    ((∃ r ∈ (runningRegions s).ins ++ (runningRegions s).outs,
        r.mem = .w ∧ r.base ≤ 15 ∧ 15 < r.base + r.len) ∧
      15 < s.params.wmemSize ∧ Memory.wf s.wmem ∧ p.phase = .busy ∧
      (∃ r ∈ (runningRegions p).ins ++ (runningRegions p).outs,
        r.mem = .b ∧ r.base ≤ 15 ∧ 15 < r.base + r.len) ∧
      15 < p.params.bmemSize ∧ Memory.wf p.bmem) :=
  ⟨⟨rfl, rfl, rfl, rfl, by decide, ⟨_, rfl⟩, ⟨_, rfl⟩, by decide⟩, by decide⟩

/-- The least and the greatest legal values, and each way to select a tier. -/
theorem witness_InitLatchesALegalConfiguration :
    let low : CfgRegs :=
      { comp := 0x010#10, hdr := 0x01000#19, prb := 1#11, maxsec := 1#16, scale := 0#32, strat := 0#3 }
    let high : CfgRegs :=
      { comp := 0x306#10, hdr := 0x40DDF#19, prb := 1024#11, maxsec := 0xFFFF#16,
        scale := 0xFF7FFFFF#32, strat := 3#3 }
    (∀ r ∈ [low, high], r.comp.toNat % 16 < 7 ∧ 1 ≤ r.comp.toNat / 16 % 32 ∧
      r.comp.toNat / 16 % 32 ≤ 16 ∧ r.hdr.toNat / 32 % 16 ≠ 15 ∧ r.hdr.toNat / 512 % 8 < 7 ∧
      1 ≤ r.hdr.toNat / 4096 ∧ r.hdr.toNat / 4096 ≤ 64 ∧ 1 ≤ r.prb.toNat ∧ r.prb.toNat ≤ 1024 ∧
      r.maxsec.toNat ≠ 0 ∧ r.scale.toNat / 8388608 % 256 ≠ 255) ∧
    low.strat.toNat = 0 ∧ (1#3).toNat = 1 ∧
    ((2#3).toNat = 2 ∧ { Params.default with hwTier1 := true }.hwTier1 = true) ∧
    (high.strat.toNat = 3 ∧ { Params.default with hwTier2 := true }.hwTier2 = true) := by
  decide +kernel

/-- Each check, failing alone at the first illegal value. -/
theorem witness_InitReportsEveryFailingCheck :
    let r := CfgRegs.reset
    7 ≤ { r with comp := 0x097#10 }.comp.toNat % 16 ∧
    { r with comp := 0x001#10 }.comp.toNat / 16 % 32 = 0 ∧
    16 < { r with comp := 0x111#10 }.comp.toNat / 16 % 32 ∧
    { r with hdr := 0x0E3E5#19 }.hdr.toNat / 32 % 16 = 15 ∧
    7 ≤ { r with hdr := 0x0EE05#19 }.hdr.toNat / 512 % 8 ∧
    { r with hdr := 0x00205#19 }.hdr.toNat / 4096 = 0 ∧
    64 < { r with hdr := 0x41205#19 }.hdr.toNat / 4096 ∧
    { r with prb := 0#11 }.prb.toNat = 0 ∧ 1024 < { r with prb := 1025#11 }.prb.toNat ∧
    { r with maxsec := 0#16 }.maxsec.toNat = 0 ∧
    { r with scale := 0x7F800000#32 }.scale.toNat / 8388608 % 256 = 255 ∧
    4 ≤ { r with strat := 4#3 }.strat.toNat ∧
    ({ r with strat := 2#3 }.strat.toNat = 2 ∧ Params.default.hwTier1 = false) ∧
    ({ r with strat := 3#3 }.strat.toNat = 3 ∧ Params.default.hwTier2 = false) := by decide

/-! ### Witnesses: the data commands -/

/-- `busy` in an instance with memories of 64 bytes and 64 words. -/
def small (c : ActiveCfg) (a : List Word) (ws : List Sample) (bs : List Byte) : State :=
  { busy c a ws bs with params := { Params.default with bmemLast := 63#32, wmemLast := 63#32 } }

/-- 0.5 at scale 1 is the tie: the product 16383.5 goes away from zero (vector Q4). The exponent fields
at both ends and beside them: −inf and the greatest finite value, the least normal and the greatest
subnormal value, in each format. -/
theorem witness_ToFixedClampsAndRounds :
    (toFixed (.finite 1 (-1)) (.finite 1 0) = 16384 ∧
      max (-32768) (min 32767 (realOf 1 (-1) * realOf 1 0 * 32767)) = 16383.5) ∧
    ([0xFF80#16, 0x7F7F, 0x0080, 0x007F].map (fun x => x.toNat / 2 ^ 7 % 2 ^ 8) = [255, 254, 1, 0] ∧
      [0xFC00#16, 0x7BFF, 0x0400, 0x03FF].map (fun x => x.toNat / 2 ^ 10 % 2 ^ 5) = [31, 30, 1, 0] ∧
      [0xFF800000#32, 0x7F7FFFFF, 0x00800000, 0x007FFFFF].map (fun x => x.toNat / 2 ^ 23 % 2 ^ 8) =
        [255, 254, 1, 0]) := by
  refine ⟨⟨by decide +kernel, ?_⟩, by decide⟩
  norm_num [realOf]

/-- A quotient past the top; 1.0, in the binade of exponent 0; 257, a tie in BF16; the FP16 quotient
1/32767, below the least normal. -/
theorem witness_ToFloatIsTheNearestFloat :
    (2 - (2 : ℚ) ^ (-(7 : Int) - 1)) * 2 ^ 127 ≤
      abs ((1 : ℚ) * 2 ^ 255 / 32767) ∧
    ((32767 : Int) ≠ 0 ∧ abs ((32767 : ℚ) * 2 ^ 0 / 32767) <
        (2 - (2 : ℚ) ^ (-(7 : Int) - 1)) * 2 ^ 127 ∧
      1 - (127 : Int) ≤ 0 ∧ abs ((32767 : ℚ) * 2 ^ 0 / 32767) < (2 : ℚ) ^ ((0 : Int) + 1) ∧
      (2 : ℚ) ^ (0 : Int) ≤ abs ((32767 : ℚ) * 2 ^ 0 / 32767)) ∧
    (fdecSample .bf16 (toFloat .bf16 (32767 * 257) 0) = .finite 128 1 ∧
      abs (realOf 128 1 - ((32767 * 257 : ℚ) * 2 ^ 0 / 32767)) = (2 : ℚ) ^ ((8 : Int) - 7) / 2) ∧
    abs ((1 : ℚ) * 2 ^ 0 / 32767) < (2 : ℚ) ^ ((1 - (15 : Int)) + 1) := by
  refine ⟨?_, ⟨by decide, ?_, by decide, ?_, ?_⟩, ⟨by decide +kernel, ?_⟩, ?_⟩ <;>
    norm_num [realOf]

/-- In place at the last words, side by side, and with N = 0 from addresses that do not exist. -/
theorem witness_QuantWritesFixedSamples :
    let s := small cfg0 [62, 62, 2] [1] []
    s.cfgOk = true ∧ Memory.wf s.wmem ∧ InRange s.params.wmemSize 62 2 ∧
      ((62 : Nat) = 62 ∨ Apart 62 2 62 2) ∧ Apart 60 2 62 2 ∧ InRange s.params.wmemSize 1000 0 ∧
      Apart 0 0 1000 0 := by
  unfold InRange Apart
  decide +kernel

theorem witness_DequantWritesFloatSamples :
    let s := small cfg0 [60, 62, 2] [1] []
    s.cfgOk = true ∧ Memory.wf s.wmem ∧ InRange s.params.wmemSize 60 2 ∧
      InRange s.params.wmemSize 62 2 ∧ Apart 60 2 62 2 := by
  unfold InRange Apart
  decide +kernel

/-- Both ends of the range of 3-bit values, into the last two bytes. -/
theorem witness_PackWritesTheBitStream :
    let s := small cfg0 [0, 62, 3, 2] [3, 0xFFFC, 0] [7]
    1 ≤ (3#5).toNat ∧ (16#5).toNat ≤ 16 ∧ s.cfgOk = true ∧ Memory.wf s.bmem ∧
      InRange s.params.wmemSize 0 3 ∧ InRange s.params.bmemSize 62 2 ∧ (3 * 3 + 7) / 8 ≤ 2 ∧
      (∀ k, k < 3 → -(2 : Int) ^ (3 - 1) ≤ (Memory.read s.wmem (0 + k)).toInt ∧
        (Memory.read s.wmem (0 + k)).toInt ≤ (2 : Int) ^ (3 - 1) - 1) := by
  unfold InRange
  decide +kernel

/-- A capacity one short, and the first values past each end of the range of 3-bit values. -/
theorem witness_PackReportsContractViolations :
    let s := small cfg0 [0, 0, 2, 1] [4, 0xFFFB] []
    s.cfgOk = true ∧ InRange s.params.wmemSize 0 2 ∧ InRange s.params.bmemSize 0 1 ∧
      1 < (3 * 3 + 7) / 8 ∧ (2 : Int) ^ (3 - 1) - 1 < (Memory.read s.wmem 0).toInt ∧
      (Memory.read s.wmem 1).toInt < -(2 : Int) ^ (3 - 1) := by
  unfold InRange
  decide +kernel

theorem witness_UnpackWritesSignExtendedFields :
    let s := small cfg0 [62, 60, 4, 2] [1] []
    1 ≤ (3#5).toNat ∧ (3#5).toNat ≤ 16 ∧ s.cfgOk = true ∧ Memory.wf s.wmem ∧
      InRange s.params.bmemSize 62 2 ∧ InRange s.params.wmemSize 60 4 ∧ (4 * 3 + 7) / 8 ≤ 2 := by
  unfold InRange
  decide +kernel

/-- The values of vector P1, and its bytes with their pad bits 0. -/
theorem witness_PackAndUnpackAreInverse :
    (∀ v ∈ [(3 : Int), -4, 0, 3], fits v 3 = true) ∧ [0x3C#8, 0x30#8].length = (4 * 3 + 7) / 8 ∧
      (∀ k, 4 * 3 ≤ k → k < 8 * [0x3C#8, 0x30#8].length →
        ([0x3C#8, 0x30#8].getD (k / 8) 0#8).getLsbD (7 - k % 8) = false) := by
  refine ⟨by decide, by decide, ?_⟩
  intro k h1 h2
  have : k = 12 ∨ k = 13 ∨ k = 14 ∨ k = 15 := by simp at h2; omega
  rcases this with rfl | rfl | rfl | rfl <;> rfl

/-- The ends of the int16 range. -/
def extremes : List Int := -32768 :: 32767 :: List.replicate 22 1

theorem witness_ExponentBoundsTheShiftedValues :
    1 ≤ 16 ∧ ∀ v ∈ extremes, -32768 ≤ v ∧ v ≤ 32767 := by decide

/-- The largest magnitude 2^15, where the cap holds; −2^7 beside 127 at width 8, the least k for which the
rules differ. -/
theorem witness_SignedExponentIsMinimal :
    (0 < exponentSigned extremes 1) ∧ exponentSigned extremes 16 = 0 ∧
    ((∀ v ∈ extremes, -((32768 : Nat) : Int) ≤ v ∧ v ≤ (32768 : Nat)) ∧
      -((32768 : Nat) : Int) ∈ extremes ∧ 32768 < 2 ^ 16 ∧ 2 ^ (16 - 1) ≤ 32768) ∧
    (let x : List Int := [-128, 127]
     (∀ v ∈ x, -32768 ≤ v ∧ v ≤ 32767) ∧ 8 - 1 ≤ 7 ∧ 7 < 15 ∧ -(2 : Int) ^ 7 ∈ x ∧
      ∀ v ∈ x, -(2 : Int) ^ 7 ≤ v ∧ v < 2 ^ 7) ∧
    (∀ v ∈ extremes, -32768 ≤ v ∧ v ≤ 32767) ∧ ∀ k, k < 15 → -(2 : Int) ^ k ∉ extremes := by
  decide +kernel

theorem witness_ReconstructionLosesLessThanOneStep :
    extremes.length = 24 ∧ ∀ v ∈ extremes, -32768 ≤ v ∧ v ≤ 32767 := by decide

/-- Vector B8: at width 1 the second compression gives other bytes. -/
theorem witness_CompressionIsIdempotent :
    (List.replicate 24 (1 : Int)).length = 24 ∧
      (∀ v ∈ List.replicate 24 (1 : Int), -32768 ≤ v ∧ v ≤ 32767) ∧
      compressRb .signed (List.replicate 24 1) 1 = [1, 0, 0, 0] ∧
      compressRb .signed (List.replicate 24 0) 1 = [0, 0, 0, 0] := by decide +kernel

theorem witness_BfpxWritesExponents :
    let s := small cfg0 [0, 24, 1] [1] []
    s.cfgOk = true ∧ Memory.wf s.wmem ∧ InRange s.params.wmemSize 0 (24 * 1) ∧
      InRange s.params.wmemSize 24 1 ∧ Apart 0 (24 * 1) 24 1 := by
  unfold InRange Apart
  decide +kernel

/-- A block into the last bytes, with the capacity it needs; BFPC_F takes the same regions. -/
theorem witness_BfpcIWritesCompressedBlocks :
    let s := small cfg0 [40, 36, 1, 28] [] [1]
    1 ≤ (9#5).toNat ∧ (9#5).toNat ≤ 16 ∧ s.cfgOk = true ∧ Memory.wf s.bmem ∧
      InRange s.params.wmemSize 40 (24 * 1) ∧ InRange s.params.bmemSize 36 28 ∧
      1 * (1 + 3 * 9) ≤ 28 := by
  unfold InRange
  decide +kernel

theorem witness_BfpcFWritesCompressedBlocks :
    let s := small cfg0 [40, 15, 1, 49] [] [1]
    1 ≤ (16#5).toNat ∧ (16#5).toNat ≤ 16 ∧ s.cfgOk = true ∧ Memory.wf s.bmem ∧
      InRange s.params.wmemSize 40 (24 * 1) ∧ InRange s.params.bmemSize 15 49 ∧
      1 * (1 + 3 * 16) ≤ 49 := by
  unfold InRange
  decide +kernel

/-- A block of mantissas 0 but the first, which is −1. -/
theorem witness_BfpdFWritesFloatSamples :
    let s := small cfg0 [60, 40, 1, 4] [1] (List.replicate 61 0 ++ [0x80])
    1 ≤ (1#5).toNat ∧ s.cfgOk = true ∧ Memory.wf s.wmem ∧ InRange s.params.bmemSize 60 4 ∧
      InRange s.params.wmemSize 40 (24 * 1) ∧ 1 * (1 + 3 * 1) ≤ 4 ∧
      Machine.IsField s.bmem (60 + 0 * 4 + 1) 1 0 0xFFFF#16 := by
  unfold InRange Machine.IsField
  decide +kernel

theorem witness_BfpdRawWritesExponentAndMantissas :
    let s := small cfg0 [36, 39, 1, 28] [1] []
    1 ≤ (9#5).toNat ∧ (9#5).toNat ≤ 16 ∧ s.cfgOk = true ∧ Memory.wf s.wmem ∧
      InRange s.params.bmemSize 36 28 ∧ InRange s.params.wmemSize 39 (25 * 1) ∧
      1 * (1 + 3 * 9) ≤ 28 := by
  unfold InRange
  decide +kernel

/-- Lengths one short: of the stream of UNPACK, and of a block of 9 bits, read and written. -/
theorem witness_ShortBuffersAreContractViolations :
    let s := small cfg0 [0, 0, 1, 27] [] []
    s.cfgOk = true ∧ 1 < (1 * 9 + 7) / 8 ∧ InRange s.params.bmemSize 0 1 ∧
      InRange s.params.wmemSize 0 1 ∧ 27 < 1 * (1 + 3 * 9) ∧
      InRange s.params.wmemSize 0 (24 * 1) ∧ InRange s.params.bmemSize 0 27 ∧
      InRange s.params.wmemSize 0 (25 * 1) := by
  unfold InRange
  decide +kernel

theorem witness_PrbSizeReportsTheSizes :
    1 ≤ (1#5).toNat ∧ (16#5).toNat ≤ 16 ∧ (6#4).toNat < 7 ∧ (busy cfg0 [] [] []).cfgOk = true := by
  decide

/-! ### Witnesses: messages -/

/-- A unit with one section at most that decodes `msg`, and the header it reads. -/
def decoding (msg : List Byte) : State :=
  small { cfg0 with maxSec := 1#16 } [0, BitVec.ofNat 32 msg.length, 0, 8, 48] [5] msg

/-- The header of a decoding unit. -/
def headerIn (s : State) : MsgHeader :=
  parseHeader (Memory.read s.bmem 0) (Memory.read s.bmem 1) (Memory.read s.bmem 2)
    (Memory.read s.bmem 3)

/-- The regions, then the first message of each clause: 3 bytes; another direction; another version;
filter 15; subframe 10; slot 2^MU; symbol 14. -/
theorem witness_MsgDecRejectsBadHeaders :
    let s := decoding [0x91, 0x05, 0xA0, 0x01]
    let h := fun (msg : List Byte) => headerIn (decoding msg)
    let good := fun (x : MsgHeader) => x.direction = cfg0.decDir ∧ x.version = cfg0.version ∧
      x.filter ≠ 15#4
    s.cfgOk = true ∧ InRange s.params.bmemSize 0 4 ∧ InRange s.params.wmemSize 0 (8 * 1) ∧
      InRange s.params.wmemSize 8 48 ∧ Apart 0 (8 * 1) 8 48 ∧
    (decoding [0x91, 0x05, 0x34]).engArg.r1.toNat < 4 ∧ 4 ≤ s.engArg.r1.toNat ∧
    (h [0x11, 0x05, 0x30, 0x41]).direction ≠ cfg0.decDir ∧
    (h [0xA1, 0x05, 0x30, 0x41]).version ≠ cfg0.version ∧
    (h [0x9F, 0x05, 0x30, 0x41]).filter = 15#4 ∧
    (good (h [0x91, 0x05, 0xA0, 0x01]) ∧ 10 ≤ (h [0x91, 0x05, 0xA0, 0x01]).subframe.toNat) ∧
    (good (h [0x91, 0x05, 0x30, 0x81]) ∧
      2 ^ cfg0.mu.toNat ≤ (h [0x91, 0x05, 0x30, 0x81]).slot.toNat) ∧
    (good (h [0x91, 0x05, 0x90, 0x4E]) ∧ (h [0x91, 0x05, 0x90, 0x4E]).subframe.toNat < 10 ∧
      (h [0x91, 0x05, 0x90, 0x4E]).slot.toNat < 2 ^ cfg0.mu.toNat ∧
      cfg0.syms.toNat ≤ (h [0x91, 0x05, 0x90, 0x4E]).symbol.toNat) := by
  unfold InRange Apart
  decide +kernel

/-- A header the configuration `cfg0` accepts. -/
def header0 : MsgHeader :=
  { direction := true, version := 1#3, filter := 1#4, frame := 5#8, subframe := 3#4, slot := 1#6,
    symbol := 1#6 }

/-- A section of one PRB, and one of all configured PRBs, of method BFP at width 1. -/
def sections0 : List WireSection :=
  [ { header := { sectionId := 1#12, rb := false, symInc := false, startPrb := 0#10, nofPrb := 1#8 }
      method := 1#4, code := 1#4, reserved := 0#8, payload := [2, 0, 0xFF, 0] },
    { header := { sectionId := 2#12, rb := true, symInc := true, startPrb := 9#10, nofPrb := 0#8 }
      method := 1#4, code := 1#4, reserved := 0#8, payload := [1, 0xF0, 0, 0] } ]

/-- A configuration of one PRB, width 1, at most two sections. -/
def cfg1 : ActiveCfg := { cfg0 with bw := 1#5, nofPrb := 1#11, maxSec := 2#16 }

/-- The message of `header0` and `sections0`, in static or dynamic mode. -/
def message1 (dyn : Bool) : List Byte := buildHeader header0 ++ sections0.flatMap (WireSection.bytes dyn)

/-- A unit that decodes it: two descriptors, then a sample area of just the 48 samples. -/
def decoding1 (dyn : Bool) : State :=
  { busy { cfg1 with dyn := dyn } [0, BitVec.ofNat 32 (message1 dyn).length, 0, 16, 48] [5]
      (message1 dyn) with
    params := { Params.default with bmemLast := 63#32, wmemLast := 63#32 } }

/-- A message of two sections in both modes. Its samples' clause: the last value of the first section,
0 under the exponent byte 2, at BMEM byte 8 (static) or 10 (dynamic). -/
theorem witness_MsgDecDecodesCompleteMessages :
    ∀ dyn : Bool,
      let s := decoding1 dyn
      s.cfgOk = true ∧ Memory.wf s.wmem ∧ s.engArg.r1.toNat = (message1 dyn).length ∧
      Holds s.bmem 0 (message1 dyn) ∧ InRange s.params.bmemSize 0 (message1 dyn).length ∧
      InRange s.params.wmemSize 0 (8 * s.cfg.maxSec.toNat) ∧ InRange s.params.wmemSize 16 48 ∧
      Apart 0 (8 * s.cfg.maxSec.toNat) 16 48 ∧ header0.direction = s.cfg.decDir ∧
      header0.version = s.cfg.version ∧ header0.filter ≠ 15#4 ∧ header0.subframe.toNat < 10 ∧
      header0.slot.toNat < 2 ^ s.cfg.mu.toNat ∧ header0.symbol.toNat < s.cfg.syms.toNat ∧
      sections0 ≠ [] ∧ sections0.length ≤ s.cfg.maxSec.toNat ∧
      (∀ x ∈ sections0, x.Complete s.cfg) ∧ samplesBefore s.cfg sections0 sections0.length ≤ 48 ∧
      (∀ x ∈ sections0, x.widthIn s.cfg = 1 ∧ x.methodIn s.cfg = 1 ∧ x.prbs s.cfg = 1) ∧
      Machine.IsField s.bmem ((if dyn then 10 else 8) + 1) 1 23 0#16 ∧
      Memory.read s.bmem (if dyn then 10 else 8) = 2#8 := by
  unfold InRange Apart Holds WireSection.Complete Machine.IsField
  decide +kernel

/-- A unit that decodes a header, complete sections and a tail: two descriptors, then the sample area. -/
def decodingTail (c : ActiveCfg) (cap : Word) (xs : List WireSection) (tail : List Byte) : State :=
  let msg := buildHeader header0 ++ xs.flatMap (WireSection.bytes c.dyn) ++ tail
  { busy c [0, BitVec.ofNat 32 msg.length, 0, 16, cap] [5] msg with
    params := { Params.default with bmemLast := 63#32, wmemLast := 63#32 } }

/-- What a message of `header0`, `xs` and `tail` must meet, and the method, the bytes before a length
field and the bytes of a whole section that `tail` stands for. -/
def TailIs (c : ActiveCfg) (cap : Word) (xs : List WireSection) (tail : List Byte)
    (method head full : Nat) : Prop :=
  let s := decodingTail c cap xs tail
  let msg := buildHeader header0 ++ xs.flatMap (WireSection.bytes c.dyn) ++ tail
  let m := if c.dyn = true then (tail.getD 4 0#8).toNat % 16 else c.method.toNat
  let w := if c.dyn = false then c.bw.toNat else (tail.getD 4 0#8).toNat / 16
  (s.cfgOk = true ∧ Memory.wf s.wmem ∧ s.engArg.r1.toNat = msg.length ∧ Holds s.bmem 0 msg ∧
    InRange s.params.bmemSize 0 msg.length ∧
    InRange s.params.wmemSize 0 (8 * c.maxSec.toNat) ∧ InRange s.params.wmemSize 16 s.engArg.r4.toNat ∧
    Apart 0 (8 * c.maxSec.toNat) 16 s.engArg.r4.toNat ∧ header0.direction = c.decDir ∧
    header0.version = c.version ∧ header0.filter ≠ 15#4 ∧ header0.subframe.toNat < 10 ∧
    header0.slot.toNat < 2 ^ c.mu.toNat ∧ header0.symbol.toNat < c.syms.toNat ∧
    xs.length ≤ c.maxSec.toNat ∧ (∀ x ∈ xs, x.Complete c) ∧
    samplesBefore c xs xs.length ≤ s.engArg.r4.toNat) ∧
  m = method ∧ head = 4 + (if c.dyn = true then 2 else 0) ∧
  (tail.getD 3 0#8 = 1#8 ∨ tail.length < head) ∧
  full = head + (if m = 5 ∨ m = 6 then 2 else 0) + 1 * (3 * w + if m = 1 ∨ m = 5 then 1 else 0)

/-- The section header of one PRB and `k` bytes. -/
def secTail (k : Nat) : List Byte := [0, 0, 0, 1] ++ List.replicate k 0#8

/-- The same with first the byte of the compression header that holds the method. -/
def compTail (b : Byte) (k : Nat) : List Byte := [0, 0, 0, 1, b] ++ List.replicate k 0#8

/-- A dynamic configuration, and one complete section. -/
def cfgDyn : ActiveCfg := { cfg1 with dyn := true }
def section0 : List WireSection := sections0.take 1

/-- The cut tails beside their bounds: 1 and 3 bytes of a section header, a payload one byte short, 5 of
the 6 bytes up to the compression header's end, 1 byte of the length field, its payload one byte
short. -/
theorem witness_cutTails :
    ∀ xs ∈ [[], section0],
      (TailIs cfg1 48 xs [0] 1 4 8 ∧ TailIs cfg1 48 xs (List.replicate 3 0) 1 4 8) ∧
      (TailIs cfg1 48 xs (secTail 3) 1 4 8 ∧ (secTail 3).length < 8) ∧
      (TailIs cfgDyn 48 xs (compTail 0x11 0) 1 6 10 ∧ (compTail 0x11 0).length < 6) ∧
      (TailIs cfgDyn 48 xs (compTail 0x15 2) 5 6 12 ∧ TailIs cfgDyn 48 xs (compTail 0x15 6) 5 6 12 ∧
        (compTail 0x15 6).length < 12) := by
  intro xs h
  obtain rfl | rfl : xs = [] ∨ xs = section0 := by simpa using h
  all_goals
    refine ⟨⟨?_, ?_⟩, ⟨?_, ?_⟩, ⟨?_, ?_⟩, ?_, ?_, ?_⟩ <;>
      first
      | decide
      | unfold TailIs InRange Apart Holds WireSection.Complete
        decide +kernel

/-- The other clauses beside their bounds. No tail. Reserved: methods 7 and 15. Unsupported: methods 2, 5
and 6, whole. A sample area one word short, and a section past the greatest number of them. -/
theorem witness_MsgDecReportsEmptyAndCutMessages :
    TailIs cfg1 48 [] [] 1 4 8 ∧
    (TailIs cfgDyn 48 section0 (compTail 0x17 1) 7 6 9 ∧
      TailIs cfgDyn 48 section0 (compTail 0x1F 1) 15 6 9 ∧ 6 ≤ (compTail 0x1F 1).length) ∧
    (TailIs cfgDyn 48 section0 (compTail 0x12 4) 2 6 9 ∧ 9 ≤ (compTail 0x12 4).length ∧
      TailIs cfgDyn 48 section0 (compTail 0x15 7) 5 6 12 ∧ 12 ≤ (compTail 0x15 7).length ∧
      TailIs cfgDyn 48 section0 (compTail 0x16 6) 6 6 11 ∧ 11 ≤ (compTail 0x16 6).length) ∧
    (TailIs cfg1 47 section0 (secTail 4) 1 4 8 ∧ 8 ≤ (secTail 4).length ∧ 47 < 24 + 24 * 1) ∧
    (TailIs { cfg1 with maxSec := 1#16 } 48 section0 (secTail 4) 1 4 8 ∧ 24 + 24 * 1 ≤ 48 ∧
      section0.length = 1) := by
  refine ⟨?_, ⟨?_, ?_, ?_⟩, ⟨?_, ?_, ?_, ?_, ?_, ?_⟩, ⟨?_, ?_, ?_⟩, ?_, ?_, ?_⟩ <;>
    first
    | decide
    | unfold TailIs InRange Apart Holds WireSection.Complete
      decide +kernel

/-- The same message elsewhere in memory and under another tier. -/
theorem witness_MsgDecDependsOnlyOnTheMessage :
    let s := decoding1 false
    let t := { decoding1 false with
      bmem := Memory.writeRange [] 8 (message1 false)
      engArg := { s.engArg with r0 := 8#32 }
      cfg := { s.cfg with tier := .tier2 } }
    precheck .msgDec s = none ∧ precheck .msgDec t = none ∧ t.engArg.r1 = s.engArg.r1 ∧
      t.engArg.r4 = s.engArg.r4 ∧ t.cfg = { s.cfg with tier := .tier2 } ∧
      t.params.floatFmt = s.params.floatFmt ∧ t.res = s.res ∧
      (∀ k, k < s.engArg.r1.toNat →
        Memory.read t.bmem (t.engArg.r0.toNat + k) = Memory.read s.bmem (s.engArg.r0.toNat + k)) ∧
      (∃ s', exec .msgDec s = .next s') ∧ ∃ t', exec .msgDec t = .next t' :=
  ⟨by decide +kernel, by decide +kernel, by decide, by decide, by decide, by decide, by decide,
    by decide +kernel, (exec_shaped _ (by decide) _).imp fun _ h => h.1,
    (exec_shaped _ (by decide) _).imp fun _ h => h.1⟩

theorem witness_MessageBytesFollowTheWireLayout : 1023 < 1024 ∧ 255 ≤ 255 := by decide

/-- A unit of two PRBs of width 1 that encodes them into `slots` buffers of `size` bytes each. -/
def encoding1 (size slots ctx : Word) : State :=
  small { cfg1 with nofPrb := 2#11 } [0, 0, size, slots, ctx, 48] (floatBlocks 2) []

/-- The regions, then the first request of each clause: subframe 10, slot 2, symbol 14, a reserved
context bit, a buffer of 65536 bytes, a width that is not the configured one; method 2 in dynamic
mode; a buffer of 11 bytes, one short of one PRB. -/
theorem witness_MsgEncRejectsBadRequests :
    let s := encoding1 11 2 0x00041305
    let ctx := fun (c : Nat) => c / 16777216 = 0 ∧ c / 256 % 16 < 10 ∧
      c / 4096 % 64 < 2 ^ s.cfg.mu.toNat ∧ c / 262144 % 64 < s.cfg.syms.toNat
    s.cfgOk = true ∧ InRange s.params.wmemSize 0 (24 * 2) ∧ InRange s.params.bmemSize 0 (2 * 11) ∧
      InRange s.params.wmemSize 48 2 ∧ Apart 0 (24 * 2) 48 2 ∧
    ¬ ctx 0x00041A05 ∧ ¬ ctx 0x00042305 ∧ ¬ ctx 0x00381305 ∧ ¬ ctx 0x01041305 ∧ ¬ 65536 ≤ 65535 ∧
    ¬ (s.cfg.dyn = false → (1#4) = s.cfg.method ∧ (2#5) = s.cfg.bw) ∧
    (ctx 0x00041305 ∧ s.engArg.r2.toNat ≤ 65535 ∧
      (s.cfg.dyn = false → (1#4) = s.cfg.method ∧ (1#5) = s.cfg.bw)) ∧
    ({ s.cfg with dyn := true }.dyn = false → (2#4) = s.cfg.method ∧ (1#5) = s.cfg.bw) ∧
    ¬ ((2#4) = 1#4 ∨ ((2#4) = 0#4 ∧ (1#5) = 16#5)) ∧
    s.engArg.r2.toNat < 8 + (if s.cfg.dyn = true then 2 else 0) + (3 * 1 + 1) := by
  unfold InRange Apart
  decide +kernel

/-- One PRB in a message: with two buffers all is sent, with one the second PRB is left. -/
theorem witness_MsgEncWritesTheFragmentedMessages :
    let ok := fun (s : State) =>
      s.cfgOk = true ∧ Memory.wf s.bmem ∧ Memory.wf s.wmem ∧
      InRange s.params.wmemSize 0 (24 * s.cfg.nofPrb.toNat) ∧
      InRange s.params.bmemSize 0 (s.engArg.r3.toNat * s.engArg.r2.toNat) ∧
      InRange s.params.wmemSize 48 s.engArg.r3.toNat ∧
      Apart 0 (24 * s.cfg.nofPrb.toNat) 48 s.engArg.r3.toNat ∧
      s.engArg.r4.toNat / 16777216 = 0 ∧ s.engArg.r4.toNat / 256 % 16 < 10 ∧
      s.engArg.r4.toNat / 4096 % 64 < 2 ^ s.cfg.mu.toNat ∧
      s.engArg.r4.toNat / 262144 % 64 < s.cfg.syms.toNat ∧ s.engArg.r2.toNat ≤ 65535 ∧
      (s.cfg.dyn = false → (1#4) = s.cfg.method ∧ (1#5) = s.cfg.bw) ∧
      8 + (3 * 1 + 1) ≤ s.engArg.r2.toNat
    ok (encoding1 12 1 0x00041305) ∧ ok (encoding1 12 2 0x00041305) := by
  unfold InRange Apart
  decide +kernel

/-- The message the encoder makes of a block of ones, by BFP at width 1 and by method none at width 16, in
both modes. -/
theorem witness_EncodedMessageDecodes :
    ∀ dyn : Bool, ∀ p ∈ [(1#4, 1#5), (0#4, 16#5)],
      let c := { cfg1 with dyn := dyn, encDir := true, method := p.1, bw := p.2 }
      let msg := messageBytes c .signed 0x00041305 p.2 p.1 (fun _ => List.replicate 24 1) 7#12 1023 1
      let s := small c [0, BitVec.ofNat 32 msg.length, 0, 16, 24] [] msg
      s.cfgOk = true ∧ Memory.wf s.wmem ∧ LegalCfg s.params s.cfg ∧ s.cfg.decDir = s.cfg.encDir ∧
      1 ≤ p.2.toNat ∧ p.2.toNat ≤ 16 ∧ (p.1 = 1#4 ∨ (p.1 = 0#4 ∧ p.2 = 16#5)) ∧
      (s.cfg.dyn = false → s.cfg.method = p.1 ∧ s.cfg.bw = p.2) ∧
      (0x00041305 : Nat) / 256 % 16 < 10 ∧ 0x00041305 / 4096 % 64 < 2 ^ s.cfg.mu.toNat ∧
      0x00041305 / 262144 % 64 < s.cfg.syms.toNat ∧ s.params.expRule = .signed ∧
      ((List.replicate 24 (1 : Int)).length = 24 ∧
        ∀ v ∈ List.replicate 24 (1 : Int), -32768 ≤ v ∧ v ≤ 32767) ∧
      s.engArg.r1.toNat = msg.length ∧ Holds s.bmem 0 msg ∧
      InRange s.params.bmemSize 0 msg.length ∧
      InRange s.params.wmemSize 0 (8 * s.cfg.maxSec.toNat) ∧ InRange s.params.wmemSize 16 24 ∧
      24 * 1 ≤ s.engArg.r4.toNat ∧ Apart 0 (8 * s.cfg.maxSec.toNat) 16 24 := by
  unfold InRange Apart Holds LegalCfg
  decide +kernel

/-- A line with every argument register. -/
theorem witness_CommandLineWritesArgumentsThenCmd :
    ({ opc := 0x42, w := 9, meth := 1, e8 := 0, operands := List.replicate 8 0 } :
      AsmCommand).operands.length ≤ 8 := by decide

end Sys2Proof.Tests
end

section
/-!
PROOFS. The frame of a command and the invariant of the block: what an answered command has done, what
every completion keeps (60_exceptions.md R352), and one lemma for each kind of step (10_state.md R39,
R41, R53; 20_memory.md R81, R82; 43_control.md R251).
-/

namespace Sys2Proof.Machine

/-! ### What an answered command has done -/

/-- A failed INIT, a successful INIT, or a command of the shape every other one has. -/
theorem exec_next_cases {i : Instr} {s t : State} (h : exec i s = .next t) :
    (i = .init ∧ ∃ mask, t = initFail mask s) ∨
    (i = .init ∧ ∃ u, selectTier s.params s.engCfgRegs.strat = some u ∧
      initMask s.params s.engCfgRegs = 0#32 ∧ t = initOk u s) ∨
    (i ≠ .init ∧ Shaped i s t) := by
  by_cases hi : i = .init
  · subst hi
    rcases execInit_cases s with ⟨mask, -, he⟩ | ⟨u, hu, hm, he⟩
    · rw [he] at h; cases h; exact .inl ⟨rfl, mask, rfl⟩
    · rw [he] at h; cases h; exact .inr (.inl ⟨rfl, u, hu, hm, rfl⟩)
  · obtain ⟨t', he, hs⟩ := exec_shaped i hi s
    rw [he] at h; cases h; exact .inr (.inr ⟨hi, hs⟩)

/-- The checks before a command put its output regions inside their memories (60_exceptions.md R351);
NOP has none. -/
theorem precheck_none_outs_inRange {i : Instr} {s : State} (h : precheck i s = none) :
    ∀ r ∈ (commandRegions i s).outs, Region.inRange s.params r = true := by
  obtain ⟨-, -, hr, -⟩ := precheck_none_iff.mp h
  simp only [Regions.inRange, Bool.and_eq_true, List.all_eq_true] at hr
  exact hr.2

/-- A command keeps the memories in canonical form and inside their sizes. -/
theorem exec_keeps_memories {i : Instr} {s t : State} (hs : MemoriesWf s) (h : exec i s = .next t) :
    MemoriesWf t := by
  obtain ⟨hb, hbs, hw, hws⟩ := hs
  have shaped : (∀ r ∈ (commandRegions i s).outs, Region.inRange s.params r = true) →
      Shaped i s t → MemoriesWf t := by
    rintro hin ⟨c, b, m, r, sid, sh⟩
    rw [sh.eq]
    exact ⟨sh.writes.bmemWf hb, sh.writes.bmemBelow hin hbs, sh.writes.wmemWf hw,
      sh.writes.wmemBelow hin hws⟩
  rcases exec_next_cases h with ⟨-, mask, rfl⟩ | ⟨-, u, -, -, rfl⟩ | ⟨hi, sh⟩
  · exact ⟨hb, hbs, hw, hws⟩
  · exact ⟨hb, hbs, hw, hws⟩
  · by_cases hn : i = .nop
    · subst hn
      exact shaped (fun _ hr => nomatch hr) sh
    · cases hp : precheck i s with
      | none => exact shaped (precheck_none_outs_inRange hp) sh
      | some c =>
        rw [exec_fail hn hi hp] at h
        cases h
        exact ⟨hb, hbs, hw, hws⟩

/-- A command ends in a completion, of a state whose configuration is as sound as before (43_control.md
R251, R252). -/
theorem exec_completes {i : Instr} {s t : State} (hs : CfgSound s) (h : exec i s = .next t) :
    ∃ c u, t = complete c u ∧ u.params = s.params ∧ CfgSound u := by
  rcases exec_next_cases h with ⟨-, mask, rfl⟩ | ⟨-, tier, ht, hm, rfl⟩ | ⟨-, c, b, m, r, sid, sh⟩
  · exact ⟨_, _, rfl, rfl, nofun, fun _ => rfl⟩
  · exact ⟨_, _, rfl, rfl, fun _ => ⟨latchCfg_legal hm ht, rfl⟩, nofun⟩
  · exact ⟨_, _, sh.eq, rfl, hs⟩

/-! ### What keeps the invariant -/

/-- The invariant after a completion asks for sound memories and configuration only. -/
theorem inv_complete {c : Code} {s : State} (hm : MemoriesWf s) (hc : CfgSound s) :
    Inv (complete c s) where
  memories := hm
  config := hc
  status := ⟨nofun, fun h => by simpa using h⟩
  view := ⟨fun _ => rfl, nofun⟩

/-- The invariant speaks of no input still to come. -/
theorem Inv.with_inputs {s : State} (h : Inv s) (l : List Event) : Inv { s with inputs := l } :=
  ⟨h.memories, h.config, h.status, h.view⟩

/-- Making regions free keeps the memories canonical and inside their sizes. -/
theorem FreesIn.memoriesWf {rs : List Region} {s t : State} (h : FreesIn rs s t.bmem t.wmem)
    (hp : t.params = s.params) (hs : MemoriesWf s) : MemoriesWf t := by
  obtain ⟨hb, hbs, hw, hws⟩ := hs
  unfold MemoriesWf
  rw [hp]
  exact ⟨h.bmemWf hb, h.bmemBelow hbs, h.wmemWf hw, h.wmemBelow hws⟩

/-- A command whose regions the host has written into leaves the host's memories, its own output
regions free (20_memory.md R94, R95). -/
theorem violatedResult_memoriesWf {s t : State} (hp : t.params = s.params) (hs : MemoriesWf s) :
    MemoriesWf (violatedResult s t) :=
  FreesIn.memoriesWf (freeOutputs_freesIn s) hp hs

/-- A turn of a busy engine keeps the invariant. -/
theorem runEngine_keeps_inv {s t : State} (h : Inv s) (ht : runEngine s = .next t) : Inv t := by
  rcases runEngine_cases s with ⟨e, -, he⟩ | ⟨i, u, -, -, hx, he⟩ | ⟨i, v, u, -, hv, hx, he⟩ <;>
    rw [he] at ht <;> cases ht
  · exact inv_complete h.memories h.config
  · obtain ⟨c, u, rfl, -, hc⟩ := exec_completes h.config hx
    have hm : MemoriesWf (complete c u) := exec_keeps_memories h.memories hx
    exact inv_complete hm hc
  · have hcfg : CfgSound { s with bmem := v.bmem, wmem := v.wmem } := h.config
    obtain ⟨c, u, rfl, hp, hc⟩ := exec_completes hcfg hx
    have hm : MemoriesWf (violatedResult s (complete c u)) :=
      violatedResult_memoriesWf hp h.memories
    exact inv_complete (s := { u with
      bmem := (freeOutputs s).bmem, wmem := (freeOutputs s).wmem,
      freeCtr := (freeOutputs s).freeCtr }) hm hc

/-- A hardware reset meets the invariant from any state (70_reset_and_hazards.md R380). -/
theorem inv_hardReset (s : State) : Inv (hardReset s) where
  memories := ⟨Memory.wf_nil, Memory.below_nil _, Memory.wf_nil, Memory.below_nil _⟩
  config := ⟨nofun, fun _ => rfl⟩
  status := ⟨nofun, nofun⟩
  view := ⟨fun _ => rfl, nofun⟩

/-- A soft reset keeps what the invariant says of the memories and resets the rest
(70_reset_and_hazards.md R381). -/
theorem inv_softReset {s : State} (hm : MemoriesWf s) : Inv (softReset s) where
  memories := FreesIn.memoriesWf (softReset_freesIn s) (softReset_params s) hm
  config := ⟨nofun, fun _ => rfl⟩
  status := ⟨nofun, nofun⟩
  view := ⟨fun _ => rfl, nofun⟩

/-- Acceptance sets the status flags of a busy block and keeps no memories (10_state.md R41). -/
theorem inv_accept {s : State} (h : Inv s) (c : Word) : Inv (accept c s) where
  memories := h.memories
  config := h.config
  status := ⟨fun _ => ⟨rfl, rfl, rfl, rfl⟩, nofun⟩
  view := ⟨fun _ => rfl, nofun⟩

/-- Clearing flags by ones keeps the invariant: no flag is set (10_state.md R40). -/
theorem inv_clearStatus {s : State} (h : Inv s) (v : Word) : Inv (clearStatus v s) where
  memories := h.memories
  config := h.config
  status := by
    obtain ⟨hbusy, herr⟩ := h.status
    refine ⟨fun hp => ?_, fun he => ?_⟩
    · obtain ⟨hd, he, hc, hr⟩ := hbusy hp
      exact ⟨by simp [hd], by simp [he], hc, hr⟩
    · exact herr (Bool.and_elim_left he)
  view := h.view

/-- A host register write keeps the invariant. -/
theorem writeReg_keeps_inv {s : State} (h : Inv s) (width : AccessWidth) (offset v : Word) :
    Inv (writeReg width offset v s) := by
  rcases writeReg_cases width offset v s with e | ⟨-, -, -, e⟩ | ⟨b, e⟩ | e | ⟨-, e⟩ | ⟨-, e⟩ |
    ⟨a, e⟩ | ⟨r, e⟩ | ⟨-, x, e⟩ <;> rw [e]
  · exact h
  · exact inv_softReset h.memories
  · exact ⟨h.memories, h.config, h.status, h.view⟩
  · exact inv_clearStatus h v
  · exact ⟨h.memories, h.config, h.status, h.view⟩
  · exact inv_accept h v
  · exact ⟨h.memories, h.config, h.status, h.view⟩
  · exact ⟨h.memories, h.config, h.status, h.view⟩
  · exact ⟨h.memories, h.config, h.status, h.view⟩

/-- A host write to memory keeps canonical memories for the running command alone (20_memory.md
R94). -/
theorem noteHostWrite_viewSound {s : State} (hm : MemoriesWf s) (hv : ViewSound s) (m : MemId)
    (a : Nat) : ViewSound (noteHostWrite s m a) := by
  obtain ⟨hidle, hview⟩ := hv
  unfold noteHostWrite
  split
  · rename_i how
    have hbusy : s.phase = .busy := (owns_iff.mp how).1
    refine ⟨fun hp => absurd (hbusy.symm.trans hp) (by decide), fun v hv => ?_⟩
    cases he : s.engView with
    | none =>
      simp only [he, Option.getD_none, Option.some.injEq] at hv
      subst hv
      exact hm
    | some v' =>
      simp only [he, Option.getD_some, Option.some.injEq] at hv
      subst hv
      exact hview v' he
  · exact ⟨hidle, hview⟩

/-- Noting a host write keeps the invariant. -/
theorem inv_noteHostWrite {s : State} (h : Inv s) (m : MemId) (a : Nat) :
    Inv (noteHostWrite s m a) where
  memories := by simpa [MemoriesWf] using h.memories
  config := by simpa [CfgSound] using h.config
  status := by simpa [StatusSound] using h.status
  view := noteHostWrite_viewSound h.memories h.view m a

/-- A host access that goes on keeps the invariant. -/
theorem hostAccess_keeps_inv {a : HostAccess} {s t : State} (h : Inv s)
    (ht : hostAccess a s = .next t) : Inv t := by
  obtain ⟨hb, hbs, hw, hws⟩ := h.memories
  rcases hostAccess_cases ht with ⟨d, n, rfl⟩ | ⟨width, offset, v, -, rfl⟩ | ⟨x, v, -, hx, rfl⟩ |
    ⟨x, v, -, hx, rfl⟩
  · exact ⟨h.memories, h.config, h.status, h.view⟩
  · exact writeReg_keeps_inv h width offset v
  · have hn := inv_noteHostWrite h .b x.toNat
    refine ⟨?_, hn.config, hn.status, hn.view⟩
    simpa [MemoriesWf] using
      (⟨Memory.write_wf hb _ v, Memory.write_below hbs v hx, hw, hws⟩ :
        MemoriesWf { s with bmem := Memory.write s.bmem x.toNat v })
  · have hn := inv_noteHostWrite h .w x.toNat
    refine ⟨?_, hn.config, hn.status, hn.view⟩
    simpa [MemoriesWf] using
      (⟨hb, hbs, Memory.write_wf hw _ v, Memory.write_below hws v hx⟩ :
        MemoriesWf { s with wmem := Memory.write s.wmem x.toNat v })

/-- Settles O16, by the kinds of step: the engine's turn, a reset, a host access. -/
theorem stepKeepsTheInvariant : Obligations.StepKeepsTheInvariant := by
  intro s t h hstep
  rcases step_cases hstep with ⟨-, rfl⟩ | ⟨-, hrun⟩ | ⟨rest, -, rfl⟩ | ⟨a, rest, -, hacc⟩
  · exact h.with_inputs _
  · exact runEngine_keeps_inv (h.with_inputs _) hrun
  · exact inv_hardReset _
  · exact hostAccess_keeps_inv (h.with_inputs _) hacc

/-! ### The frame of a command -/

/-- Settles O9: both ends of INIT, and the shape of every other command. -/
theorem commandsLeaveTheOtherRegisters : Obligations.CommandsLeaveTheOtherRegisters := by
  intro i s t h
  rcases exec_next_cases h with ⟨hi, mask, rfl⟩ | ⟨hi, u, -, -, rfl⟩ | ⟨-, c, b, m, r, sid, sh⟩
  · simp [initFail, hi]
  · simp [initOk, hi]
  · rw [sh.eq]
    simpa using sh.secId

end Sys2Proof.Machine
end

section
/-!
PROOFS. The running command reads no register the host can write while it runs (10_state.md R42, R51;
20_memory.md R99): each command's run commutes with a change of ARG, the configuration registers and CMD.
-/

namespace Sys2Proof.Machine

/-- `s` with other values in ARG, the configuration registers and CMD. -/
def withHostRegs (a : Bank) (r : CfgRegs) (c : Word) (s : State) : State :=
  { s with arg := a, cfgRegs := r, cmd := c }

section
variable (a : Bank) (r : CfgRegs) (c : Word) (s : State)

theorem precheck_withHostRegs (i : Instr) : precheck i (withHostRegs a r c s) = precheck i s := rfl

/-- A data command commutes with the change when its run does: its checks do not read the registers. -/
theorem guarded_withHostRegs {i : Instr} {run : State → State} {t : State}
    (hrun : run (withHostRegs a r c s) = withHostRegs a r c (run s))
    (h : guarded i s run = .next t) :
    guarded i (withHostRegs a r c s) run = .next (withHostRegs a r c t) := by
  rcases guarded_cases i s run with ⟨k, hp, hg⟩ | ⟨hp, hg⟩ <;> rw [hg] at h <;> cases h
  · exact guarded_fail ((precheck_withHostRegs a r c s i).trans hp)
  · rw [← hrun]
    exact guarded_run ((precheck_withHostRegs a r c s i).trans hp)

theorem packRun_withHostRegs (w : BitVec 5) :
    packRun w (withHostRegs a r c s) = withHostRegs a r c (packRun w s) := by
  simp only [packRun, apply_ite (withHostRegs a r c)]
  rfl

theorem unpackRun_withHostRegs (w : BitVec 5) :
    unpackRun w (withHostRegs a r c s) = withHostRegs a r c (unpackRun w s) := by
  simp only [unpackRun, apply_ite (withHostRegs a r c)]
  rfl

theorem compressRun_withHostRegs (w : BitVec 5) (rb : Nat → List Int) :
    compressRun w rb (withHostRegs a r c s) = withHostRegs a r c (compressRun w rb s) := by
  simp only [compressRun, apply_ite (withHostRegs a r c)]
  rfl

theorem decompressRun_withHostRegs (w : BitVec 5) (words : List Byte → List Sample) :
    decompressRun w words (withHostRegs a r c s) = withHostRegs a r c (decompressRun w words s) := by
  simp only [decompressRun, apply_ite (withHostRegs a r c)]
  rfl

theorem finishDecode_withHostRegs (wk : DecWork) :
    finishDecode (withHostRegs a r c s) wk = withHostRegs a r c (finishDecode s wk) := by
  obtain ⟨state, cur, nsect, nsamp, trunc, sections⟩ := wk
  cases state with
  | rejected k off => rfl
  | _ =>
    simp only [finishDecode, apply_ite (withHostRegs a r c)]
    rfl

theorem msgDecRun_withHostRegs :
    msgDecRun (withHostRegs a r c s) = withHostRegs a r c (msgDecRun s) := by
  simp only [msgDecRun, apply_ite (withHostRegs a r c), ← finishDecode_withHostRegs]
  rfl

theorem msgEncRun_withHostRegs (w : BitVec 5) (meth : BitVec 4) :
    msgEncRun w meth (withHostRegs a r c s) = withHostRegs a r c (msgEncRun w meth s) := by
  simp only [msgEncRun, apply_ite (withHostRegs a r c)]
  rfl

theorem execInit_withHostRegs {t : State} (h : exec .init s = .next t) :
    exec .init (withHostRegs a r c s) = .next (withHostRegs a r c t) := by
  by_cases hm : initMask s.params s.engCfgRegs = 0#32
  · have hsome : (selectTier s.params s.engCfgRegs.strat).isNone = false :=
      (initMask_eq_zero_iff _ _).mp hm _ (by simp [initChecks])
    obtain ⟨u, hu⟩ := Option.isSome_iff_exists.mp (Option.isNone_eq_false_iff.mp hsome)
    rw [execInit_ok hm hu] at h; cases h
    exact execInit_ok (s := withHostRegs a r c s) hm hu
  · rw [execInit_fail hm] at h; cases h
    exact execInit_fail (s := withHostRegs a r c s) hm

end

/-- Settles O13, command by command. -/
theorem registerWritesDoNotReachTheRunningCommand :
    Obligations.RegisterWritesDoNotReachTheRunningCommand := by
  intro i s t a r c h
  change exec i (withHostRegs a r c s) = .next (withHostRegs a r c t)
  cases i with
  | nop => cases h; rfl
  | init => exact execInit_withHostRegs a r c s h
  | quant => exact guarded_withHostRegs a r c s rfl h
  | dequant e8 => exact guarded_withHostRegs a r c s rfl h
  | pack w => exact guarded_withHostRegs a r c s (packRun_withHostRegs a r c s w) h
  | unpack w => exact guarded_withHostRegs a r c s (unpackRun_withHostRegs a r c s w) h
  | bfpx w => exact guarded_withHostRegs a r c s rfl h
  | bfpcI w => exact guarded_withHostRegs a r c s (compressRun_withHostRegs a r c s w _) h
  | bfpcF w => exact guarded_withHostRegs a r c s (compressRun_withHostRegs a r c s w _) h
  | bfpdF w => exact guarded_withHostRegs a r c s (decompressRun_withHostRegs a r c s w _) h
  | bfpdRaw w => exact guarded_withHostRegs a r c s (decompressRun_withHostRegs a r c s w _) h
  | prbSize w meth => exact guarded_withHostRegs a r c s rfl h
  | msgDec => exact guarded_withHostRegs a r c s (msgDecRun_withHostRegs a r c s) h
  | msgEnc w meth => exact guarded_withHostRegs a r c s (msgEncRun_withHostRegs a r c s w meth) h

end Sys2Proof.Machine
end

section
/-!
PROOFS. The engine's turn and the acceptance of a command, as whole steps (10_state.md R41, R54;
60_exceptions.md R350, R366).
-/

namespace Sys2Proof.Machine

/-! ### The event a step takes -/

/-- With the engine's turn next, or no input left, a step is the engine's turn. -/
theorem step_engine {s : State} (h : s.inputs = [] ∨ ∃ rest, s.inputs = .engine :: rest) :
    step s = engineTurn { s with inputs := s.inputs.tail } := by
  rcases h with h | ⟨rest, h⟩
  · have hs : ({ s with inputs := s.inputs.tail } : State) = s := by cases s; simp_all
    rw [hs]
    simp only [step, h]
  · simp only [step, h, handle, List.tail_cons]

/-- With a host access next, a step is that access. -/
theorem step_host {s : State} {a : HostAccess} {rest : List Event}
    (h : s.inputs = .host a :: rest) : step s = hostAccess a { s with inputs := rest } := by
  simp only [step, h, handle]

theorem engineTurn_idle {s : State} (h : s.phase = .idle) : engineTurn s = .next s := by
  simp [engineTurn, h]

/-- A busy engine runs the command of its word, on memories the host has not written into. -/
theorem engineTurn_busy {s : State} (hp : s.phase = .busy) (hv : s.engView = none) {i : Instr}
    (hd : decode s.engCmd = .ok i) : engineTurn s = exec i s := by
  simp only [engineTurn, hp, if_true, runEngine, hd, runCommand, hv]

/-- Settles O5: the step is the engine's turn, which a busy and an idle block take differently. -/
theorem stepRunsTheAcceptedCommand : Obligations.StepRunsTheAcceptedCommand := by
  intro s hin
  rw [step_engine hin]
  exact ⟨fun _ hp hv hd => engineTurn_busy (s := { s with inputs := s.inputs.tail }) hp hv hd,
    fun hp => engineTurn_idle (s := { s with inputs := s.inputs.tail }) hp⟩

/-! ### Acceptance -/

theorem writeCmd_idle {s : State} (h : s.phase = .idle) (c : Word) : writeCmd c s = accept c s := by
  simp [writeCmd, h]

theorem writeCmd_busy {s : State} (h : s.phase = .busy) (c : Word) :
    writeCmd c s = { s with ovr := true } := by
  simp [writeCmd, h]

/-- Settles O7: the step is a write of CMD, in either phase. -/
theorem cmdWriteIsAcceptedOrDropped : Obligations.CmdWriteIsAcceptedOrDropped := by
  intro s c rest hin
  have hstep : step s = .next (writeCmd c { s with inputs := rest }) := step_host hin
  refine ⟨fun hp => ?_, fun hp => ?_⟩
  · rw [writeCmd_idle (s := { s with inputs := rest }) hp] at hstep
    exact ⟨_, hstep, rfl, rfl⟩
  · rw [writeCmd_busy (s := { s with inputs := rest }) hp] at hstep
    exact ⟨_, hstep, rfl, rfl⟩

end Sys2Proof.Machine
end

section
/-!
PROOFS. The host's registers (10_state.md R32 to R51): which register an access reaches, the bits of
STATUS, CAP and CTRL, and what a write of each register changes.
-/

namespace Sys2Proof.Machine

/-! ### The register map -/

/-- Every entry of the map is the register its offset reaches (10_state.md R32). -/
theorem regAt_of_mem {n : Nat} {r : Reg} (h : (n, r) ∈ regMap) :
    regAt .word (BitVec.ofNat 32 n) = some r := by
  have table : ∀ p ∈ regMap, regAt .word (BitVec.ofNat 32 p.1) = some p.2 := by decide
  exact table _ h

theorem readReg_of_mem {n : Nat} {r : Reg} (h : (n, r) ∈ regMap) (s : State) :
    readReg s .word (BitVec.ofNat 32 n) = regValue s r := by
  simp only [readReg, regAt_of_mem h]

theorem writeReg_of_mem {n : Nat} {r : Reg} (h : (n, r) ∈ regMap) (v : Word) (s : State) :
    writeReg .word (BitVec.ofNat 32 n) v s = writeRegister r v s := by
  simp only [writeReg, regAt_of_mem h]

/-- An access that reaches a register is a word access to an offset of the map. -/
theorem mem_of_regAt {width : AccessWidth} {offset : Word} {r : Reg}
    (h : regAt width offset = some r) : width = .word ∧ (offset.toNat, r) ∈ regMap := by
  unfold regAt at h
  split at h
  · obtain ⟨⟨n, q⟩, hf, hq⟩ := Option.map_eq_some_iff.mp h
    have hn : n = offset.toNat := by simpa using List.find?_some hf
    subst hn hq
    exact ⟨‹_›, List.mem_of_find?_eq_some hf⟩
  · cases h

/-- Narrow, misaligned and unmapped accesses reach no register (10_state.md R33). -/
theorem regAt_unmapped {width : AccessWidth} {offset : Word}
    (h : width ≠ .word ∨ offset.toNat % 4 ≠ 0 ∨ offset.toNat = 0x01C ∨
      (0x060 ≤ offset.toNat ∧ offset.toNat < 0x080) ∨ 0x09C ≤ offset.toNat) :
    regAt width offset = none := by
  have table : ∀ p ∈ regMap,
      p.1 % 4 = 0 ∧ p.1 ≠ 0x01C ∧ (p.1 < 0x060 ∨ 0x080 ≤ p.1) ∧ p.1 < 0x09C := by decide
  cases hr : regAt width offset with
  | none => rfl
  | some r =>
    obtain ⟨hw, hm⟩ := mem_of_regAt hr
    have := table _ hm
    simp only [hw, ne_eq, not_true_eq_false, false_or] at h
    omega

/-- The identification registers and RES ignore writes (10_state.md R33). -/
theorem writeReg_readOnly {offset : Word}
    (h : offset.toNat < 0x010 ∨ (0x040 ≤ offset.toNat ∧ offset.toNat < 0x060)) (v : Word) (s : State) :
    writeReg .word offset v s = s := by
  have table : ∀ p ∈ regMap, (p.1 < 0x010 ∨ (0x040 ≤ p.1 ∧ p.1 < 0x060)) →
      writeRegister p.2 v s = s := by
    simp [regMap, writeRegister]
  cases hr : regAt .word offset with
  | none => simp only [writeReg, hr]
  | some r =>
    simp only [writeReg, hr]
    exact table _ (mem_of_regAt hr).2 h

/-! ### The bits of STATUS and CAP -/

/-- STATUS bit by bit: the flags, three unnamed bits, CODE, SEL_TIER (10_state.md R39). -/
theorem statusWord_getLsbD (s : State) (k : Nat) :
    (statusWord s).getLsbD k =
      if k < 5 then [s.phase == .busy, s.done, s.err, s.cfgOk, s.ovr].getD k false
      else if k < 8 then false
      else if k < 16 then s.code.bits.getLsbD (k - 8)
      else s.selTier.bits.getLsbD (k - 16) := by
  have h : (statusWord s).getLsbD k =
      (0#14 ++ s.selTier.bits ++ s.code.bits ++ 0#3 ++ BitVec.ofBool s.ovr ++ BitVec.ofBool s.cfgOk ++
        BitVec.ofBool s.err ++ BitVec.ofBool s.done ++ BitVec.ofBool (s.phase == .busy) :
        BitVec (14 + 2 + 8 + 3 + 1 + 1 + 1 + 1 + 1)).getLsbD k := rfl
  rw [h]
  simp only [BitVec.getLsbD_append]
  by_cases h5 : k < 5
  · interval_cases k <;> simp
  · simp only [h5, if_false, show ¬ k < 1 by omega, show ¬ k - 1 < 1 by omega,
      show ¬ k - 1 - 1 < 1 by omega, show ¬ k - 1 - 1 - 1 < 1 by omega,
      show ¬ k - 1 - 1 - 1 - 1 < 1 by omega,
      show k - 1 - 1 - 1 - 1 - 1 = k - 5 by omega, show k - 5 - 3 = k - 8 by omega,
      show k - 8 - 8 = k - 16 by omega, BitVec.getLsbD_zero]
    by_cases h8 : k < 8
    · simp [h8, show k - 5 < 3 by omega]
    · by_cases h16 : k < 16
      · simp [h8, h16, show ¬ k - 5 < 3 by omega, show k - 8 < 8 by omega]
      · simp only [h8, h16, show ¬ k - 5 < 3 by omega, show ¬ k - 8 < 8 by omega, if_false]
        by_cases h18 : k - 16 < 2
        · simp [h18]
        · simp [h18, BitVec.getLsbD_of_ge s.selTier.bits (k - 16) (by omega)]

theorem statusWord_code (s : State) : (statusWord s).extractLsb' 8 8 = s.code.bits := by
  apply BitVec.eq_of_getLsbD_eq
  intro k hk
  simp only [BitVec.getLsbD_extractLsb', hk, decide_true, Bool.true_and, statusWord_getLsbD]
  rw [if_neg (by omega), if_neg (by omega), if_pos (by omega), Nat.add_sub_cancel_left]

theorem statusWord_selTier (s : State) : (statusWord s).extractLsb' 16 2 = s.selTier.bits := by
  apply BitVec.eq_of_getLsbD_eq
  intro k hk
  simp only [BitVec.getLsbD_extractLsb', hk, decide_true, Bool.true_and, statusWord_getLsbD]
  rw [if_neg (by omega), if_neg (by omega), if_neg (by omega), Nat.add_sub_cancel_left]

/-- The unnamed bits of STATUS read 0 (10_state.md R33). -/
theorem statusWord_unnamed (s : State) : statusWord s &&& 0xFFFC00E0#32 = 0#32 := by
  have mask : ∀ k < 32, (0xFFFC00E0#32).getLsbD k = true → (5 ≤ k ∧ k < 8) ∨ 18 ≤ k := by decide
  apply BitVec.eq_of_getLsbD_eq
  intro k hk
  rw [BitVec.getLsbD_and, BitVec.getLsbD_zero, Bool.and_eq_false_iff, or_iff_not_imp_right,
    Bool.not_eq_false, statusWord_getLsbD]
  intro hm
  rcases mask k hk hm with ⟨h5, h8⟩ | h18
  · rw [if_neg (by omega), if_pos h8]
  · rw [if_neg (by omega), if_neg (by omega), if_neg (by omega), BitVec.getLsbD_of_ge _ _ (by omega)]

/-- CAP field by field, its unnamed bits 0 (10_state.md R33, R35). -/
theorem capWord_fields (p : Params) :
    (capWord p).getLsbD 0 = true ∧ (capWord p).getLsbD 1 = p.hwTier1 ∧
    (capWord p).getLsbD 2 = p.hwTier2 ∧
    (capWord p).extractLsb' 8 2 = (bif p.floatFmt == .bf16 then 0#2 else 1#2) ∧
    (capWord p).getLsbD 10 = (p.expRule == .magnitude) ∧
    capWord p &&& 0xFFFFF8F8#32 = 0#32 := by
  obtain ⟨fmt, rule, t1, t2, -, -⟩ := p
  simp only [capWord]
  cases fmt <;> cases rule <;> revert t1 t2 <;> decide

end Sys2Proof.Machine
end

section
/-!
PROOFS. Host reads and writes of each register (10_state.md R32 to R51), from the register map and the
bits of the registers.
-/

namespace Sys2Proof.Machine

/-! ### Cutting a written value to a register's named bits -/

/-- A register of `n` bits takes no other bit of the value written to it. -/
theorem setWidth_ofNat_mod (v : Word) {n : Nat} (hn : n ≤ 32) :
    (BitVec.ofNat 32 (v.toNat % 2 ^ n)).setWidth n = v.setWidth n := by
  have hle : 2 ^ n ≤ 2 ^ 32 := Nat.pow_le_pow_right (by decide) hn
  have hlt : v.toNat % 2 ^ n < 2 ^ n := Nat.mod_lt _ (Nat.two_pow_pos n)
  apply BitVec.eq_of_toNat_eq
  rw [BitVec.toNat_setWidth, BitVec.toNat_setWidth, BitVec.toNat_ofNat,
    Nat.mod_eq_of_lt (Nat.lt_of_lt_of_le hlt hle), Nat.mod_mod]

/-- What a register of `n` bits reads back. -/
theorem setWidth_setWidth_word (v : Word) (n : Nat) :
    (v.setWidth n).setWidth 32 = BitVec.ofNat 32 (v.toNat % 2 ^ n) := by
  apply BitVec.eq_of_toNat_eq
  simp only [BitVec.toNat_setWidth, BitVec.toNat_ofNat]

/-- A register of `n` bits reads as its own value. -/
theorem toNat_setWidth_word {n : Nat} (x : BitVec n) (hn : n ≤ 32) :
    (x.setWidth 32).toNat = x.toNat := by
  have hle : 2 ^ n ≤ 2 ^ 32 := Nat.pow_le_pow_right (by decide) hn
  rw [BitVec.toNat_setWidth, Nat.mod_eq_of_lt (Nat.lt_of_lt_of_le x.isLt hle)]

theorem toNat_setWidth_word_lt {n : Nat} (x : BitVec n) : (x.setWidth 32).toNat < 2 ^ n := by
  rw [BitVec.toNat_setWidth]
  exact Nat.lt_of_le_of_lt (Nat.mod_le _ _) x.isLt

/-! ### CTRL, STATUS and SECID -/

/-- A write to CTRL depends on bits 0 and 1 alone (10_state.md R38). -/
theorem writeCtrl_congr {u v : Word} (h0 : u.getLsbD 0 = v.getLsbD 0) (h1 : u.getLsbD 1 = v.getLsbD 1)
    (s : State) : writeCtrl u s = writeCtrl v s := by
  simp only [writeCtrl, h0, h1]

/-- A write to STATUS depends on bits 1, 2 and 4 alone (10_state.md R40). -/
theorem clearStatus_congr {u v : Word} (h1 : u.getLsbD 1 = v.getLsbD 1)
    (h2 : u.getLsbD 2 = v.getLsbD 2) (h4 : u.getLsbD 4 = v.getLsbD 4) (s : State) :
    clearStatus u s = clearStatus v s := by
  simp only [clearStatus, h1, h2, h4]

theorem readReg_ctrl (s : State) :
    readReg s .word 0x010#32 = (BitVec.ofBool s.irqEn).setWidth 32 :=
  readReg_of_mem (r := .ctrl) (by decide) s

theorem readReg_status (s : State) : readReg s .word 0x014#32 = statusWord s :=
  readReg_of_mem (r := .status) (by decide) s

theorem readReg_cap (s : State) : readReg s .word 0x004#32 = capWord s.params :=
  readReg_of_mem (r := .cap) (by decide) s

theorem writeReg_ctrl (v : Word) (s : State) : writeReg .word 0x010#32 v s = writeCtrl v s :=
  writeReg_of_mem (r := .ctrl) (by decide) v s

theorem writeReg_status (v : Word) (s : State) : writeReg .word 0x014#32 v s = clearStatus v s :=
  writeReg_of_mem (r := .status) (by decide) v s

theorem writeReg_secId (v : Word) (s : State) : writeReg .word 0x098#32 v s = writeSecId v s :=
  writeReg_of_mem (r := .secId) (by decide) v s

/-! ### The configuration registers -/

/-- The configuration registers, each with the number of its named bits (10_state.md R44 to R49). -/
inductive FieldReg : Reg → Nat → Prop where
  | comp : FieldReg .cfgComp 10
  | hdr : FieldReg .cfgHdr 19
  | prb : FieldReg .cfgPrb 11
  | maxsec : FieldReg .cfgMaxsec 16
  | scale : FieldReg .cfgScale 32
  | strat : FieldReg .cfgStrat 3

theorem FieldReg.width_le {r : Reg} {n : Nat} (h : FieldReg r n) : n ≤ 32 := by
  cases h <;> decide

theorem FieldReg.only_cfgRegs {r : Reg} {n : Nat} (h : FieldReg r n) (v : Word) (s : State) :
    writeRegister r v s = { s with cfgRegs := (writeRegister r v s).cfgRegs } := by
  cases h <;> rfl

/-- A configuration register reads back the named bits written (10_state.md R51). -/
theorem FieldReg.regValue_same {r : Reg} {n : Nat} (h : FieldReg r n) (v : Word) (s : State) :
    regValue (writeRegister r v s) r = BitVec.ofNat 32 (v.toNat % 2 ^ n) := by
  cases h with
  | scale => exact (BitVec.setWidth_eq v).symm.trans (setWidth_setWidth_word v 32)
  | _ => exact setWidth_setWidth_word v _

/-- A write to a configuration register leaves the value of every other register. -/
theorem FieldReg.regValue_other {r q : Reg} {n : Nat} (h : FieldReg r n) (hq : q ≠ r) (v : Word)
    (s : State) : regValue (writeRegister r v s) q = regValue s q := by
  cases h with
  | comp => cases q with | cfgComp => exact absurd rfl hq | _ => rfl
  | hdr => cases q with | cfgHdr => exact absurd rfl hq | _ => rfl
  | prb => cases q with | cfgPrb => exact absurd rfl hq | _ => rfl
  | maxsec => cases q with | cfgMaxsec => exact absurd rfl hq | _ => rfl
  | scale => cases q with | cfgScale => exact absurd rfl hq | _ => rfl
  | strat => cases q with | cfgStrat => exact absurd rfl hq | _ => rfl

/-- A write of a configuration register ignores the unnamed bits (10_state.md R33). -/
theorem FieldReg.writeRegister_named {r : Reg} {n : Nat} (h : FieldReg r n) (v : Word) (s : State) :
    writeRegister r (BitVec.ofNat 32 (v.toNat % 2 ^ n)) s = writeRegister r v s := by
  have hv := setWidth_ofNat_mod v h.width_le
  cases h with
  | scale =>
    rw [← setWidth_setWidth_word v 32, BitVec.setWidth_eq, BitVec.setWidth_eq]
  | _ => simp only [writeRegister, hv]

/-- The unnamed bits of a configuration register read 0 (10_state.md R33). -/
theorem FieldReg.regValue_lt {r : Reg} {n : Nat} (h : FieldReg r n) (s : State) :
    (regValue s r).toNat < 2 ^ n := by
  cases h with
  | scale => exact s.cfgRegs.scale.isLt
  | _ => exact toNat_setWidth_word_lt _

/-- Their offsets, each with the number of its named bits (10_state.md R32). -/
abbrev configFields : List (Nat × Nat) :=
  [(0x080, 10), (0x084, 19), (0x088, 11), (0x08C, 16), (0x090, 32), (0x094, 3)]

theorem fieldReg_of_mem {p : Nat × Nat} (h : p ∈ configFields) :
    ∃ r, (p.1, r) ∈ regMap ∧ FieldReg r p.2 := by
  simp only [List.mem_cons, List.not_mem_nil, or_false] at h
  rcases h with rfl | rfl | rfl | rfl | rfl | rfl
  · exact ⟨.cfgComp, by decide, .comp⟩
  · exact ⟨.cfgHdr, by decide, .hdr⟩
  · exact ⟨.cfgPrb, by decide, .prb⟩
  · exact ⟨.cfgMaxsec, by decide, .maxsec⟩
  · exact ⟨.cfgScale, by decide, .scale⟩
  · exact ⟨.cfgStrat, by decide, .strat⟩

/-- Different configuration fields lie in different registers. -/
theorem configFields_inj {p q : Nat × Nat} (hp : p ∈ configFields) (hq : q ∈ configFields) {r : Reg}
    (hpr : (p.1, r) ∈ regMap) (hqr : (q.1, r) ∈ regMap) : p = q := by
  have registers : ∀ x ∈ regMap, ∀ y ∈ regMap, x.2 = y.2 → x.1 = y.1 := by decide
  have fields : ∀ x ∈ configFields, ∀ y ∈ configFields, x.1 = y.1 → x = y := by decide
  exact fields p hp q hq (registers _ hpr _ hqr rfl)

/-! ### The argument registers -/

/-- Register j of a bank after register k is set. -/
theorem Bank.get_set (b : Bank) (j k : Fin 8) (v : Word) :
    (b.set k v).get j = if j = k then v else b.get j := by
  fin_cases k <;> fin_cases j <;> rfl

theorem arg_mem_regMap (k : Fin 8) : (0x020 + 4 * k.val, Reg.arg k) ∈ regMap := by
  revert k; decide

theorem res_mem_regMap (k : Fin 8) : (0x040 + 4 * k.val, Reg.res k) ∈ regMap := by
  revert k; decide

/-! ### The obligations -/

/-- Settles O20, from the map's entries and the fields of CAP. -/
theorem identificationRegistersReadTheInstance :
    Obligations.IdentificationRegistersReadTheInstance := by
  intro s
  obtain ⟨h0, h1, h2, hf, hr, -⟩ := capWord_fields s.params
  refine ⟨readReg_of_mem (r := .id) (by decide) s, ?_, ?_, ?_⟩
  · simp only [readReg_cap]
    refine ⟨h0, h1, h2, ?_, ?_⟩
    · rw [hf]; cases s.params.floatFmt <;> rfl
    · rw [hr]; cases s.params.expRule <;> rfl
  · rw [readReg_of_mem (n := 0x008) (r := .bmemLast) (by decide)]; rfl
  · rw [readReg_of_mem (n := 0x00C) (r := .wmemLast) (by decide)]; rfl

/-- Settles O25, by bit 1 of the written value and by IRQ_EN. -/
theorem ctrlWriteEnablesOrResets : Obligations.CtrlWriteEnablesOrResets := by
  intro s v
  simp only [writeReg_ctrl, readReg_ctrl]
  refine ⟨fun h => if_neg (by rw [h]; decide), fun h => if_pos h, ?_, ?_,
    fun h => by simp [irq, h], fun h => by simp [irq, h]⟩
  · cases s.irqEn <;> rfl
  · cases s.irqEn <;> rfl

/-- Settles O24, in either phase. -/
theorem secIdIsWritableOnlyWhileIdle : Obligations.SecIdIsWritableOnlyWhileIdle := by
  intro s v
  rw [readReg_of_mem (n := 0x098) (r := .secId) (by decide)]
  simp only [writeReg_secId]
  exact ⟨toNat_setWidth_word s.secId (by decide), fun h => by simp [writeSecId, h],
    fun h => by simp [writeSecId, h]⟩

/-- Settles O23, from the bits of STATUS. -/
theorem statusReadsItsFieldsAndClearsByOnes : Obligations.StatusReadsItsFieldsAndClearsByOnes := by
  simp only [Obligations.StatusReadsItsFieldsAndClearsByOnes, readReg_status, writeReg_status,
    statusWord_code, statusWord_selTier]
  refine ⟨fun p hp s hs => ?_, fun p hp s hs => ?_, fun s v => ?_⟩
  · rw [hs]; clear hs; revert p; decide
  · rw [hs]; clear hs; revert p; decide
  · simp only [statusWord_getLsbD]
    refine ⟨?_, rfl, rfl, rfl, rfl, rfl⟩
    cases s.phase <;> rfl

/-- Settles O21, clause by clause: the map, the steps of a host access, the unnamed bits. -/
theorem unsupportedRegisterAccessesDoNothing : Obligations.UnsupportedRegisterAccessesDoNothing := by
  refine ⟨fun s width offset v h => ?_, fun s offset v h => writeReg_readOnly h v s,
    fun s width offset rest h => step_host h, fun s width offset v rest h => step_host h,
    fun s v p hp => ?_, fun s v => ⟨readReg_ctrl s, ?_⟩, fun s => ⟨?_, ?_⟩, fun s v => ?_⟩
  · simp only [readReg, writeReg, regAt_unmapped h, and_self]
  · have kinds : ∀ q ∈ [(0x080, 10), (0x084, 19), (0x088, 11), (0x08C, 16), (0x094, 3), (0x098, 12)],
        q ∈ configFields ∨ q = (0x098, 12) := by decide
    rcases kinds p hp with hp | rfl
    · obtain ⟨r, hr, hf⟩ := fieldReg_of_mem hp
      rw [readReg_of_mem hr, writeReg_of_mem hr, writeReg_of_mem hr]
      exact ⟨hf.regValue_lt s, (hf.writeRegister_named v s).symm⟩
    · rw [readReg_of_mem (r := .secId) (by decide), writeReg_secId, writeReg_secId]
      refine ⟨toNat_setWidth_word_lt s.secId, ?_⟩
      simp only [writeSecId, setWidth_ofNat_mod v (by decide : 12 ≤ 32)]
  · simp only [writeReg_ctrl]
    exact writeCtrl_congr (by simp) (by simp) s
  · rw [readReg_status, statusWord_unnamed]
  · obtain ⟨-, -, -, -, -, hu⟩ := capWord_fields s.params
    rw [readReg_cap, hu]
  · simp only [writeReg_status]
    exact clearStatus_congr (by simp) (by simp) (by simp) s

/-- Settles O22: what each offset reads, then a write of an argument and of a configuration register. -/
theorem writableRegistersReadBack : Obligations.WritableRegistersReadBack := by
  intro s v fields
  refine ⟨?_, fun k => ?_, fun p hp => ?_⟩
  · have arg (k : Fin 8) : (readReg s .word (BitVec.ofNat 32 (0x020 + 4 * k.val))).toNat =
        (s.arg.get k).toNat := congrArg _ (readReg_of_mem (arg_mem_regMap k) s)
    have res (k : Fin 8) : (readReg s .word (BitVec.ofNat 32 (0x040 + 4 * k.val))).toNat =
        (s.res.get k).toNat := congrArg _ (readReg_of_mem (res_mem_regMap k) s)
    have field {n w : Nat} {r : Reg} {x : BitVec w} (hr : (n, r) ∈ regMap)
        (hx : regValue s r = x.setWidth 32) (hw : w ≤ 32) :
        (readReg s .word (BitVec.ofNat 32 n)).toNat = x.toNat := by
      rw [readReg_of_mem hr, hx, toNat_setWidth_word x hw]
    refine ⟨⟨arg 0, arg 1, arg 2, arg 3, arg 4, arg 5, arg 6, arg 7⟩,
      ⟨res 0, res 1, res 2, res 3, res 4, res 5, res 6, res 7⟩, ?_⟩
    exact ⟨field (r := .cfgComp) (by decide) rfl (by decide),
      field (r := .cfgHdr) (by decide) rfl (by decide),
      field (r := .cfgPrb) (by decide) rfl (by decide),
      field (r := .cfgMaxsec) (by decide) rfl (by decide),
      field (r := .cfgScale) (by decide) (BitVec.setWidth_eq _).symm (by decide),
      field (r := .cfgStrat) (by decide) rfl (by decide)⟩
  · simp only [writeReg_of_mem (arg_mem_regMap _), readReg_of_mem (arg_mem_regMap _)]
    exact ⟨rfl, fun j => Bank.get_set s.arg j k v⟩
  · obtain ⟨r, hr, hf⟩ := fieldReg_of_mem hp
    simp only [writeReg_of_mem hr]
    refine ⟨hf.only_cfgRegs v s, fun q hq => ?_⟩
    split
    · rename_i heq
      subst heq
      rw [readReg_of_mem hr, hf.regValue_same]
    · rename_i hne
      obtain ⟨r', hr', -⟩ := fieldReg_of_mem hq
      rw [readReg_of_mem hr', readReg_of_mem hr']
      refine hf.regValue_other (fun heq => hne ?_) v s
      subst heq
      exact configFields_inj hq hp hr' hr

end Sys2Proof.Machine
end

section
/-!
PROOFS. The two memories (20_memory.md R80 to R96): where a command writes, what a host access to an
address does, free, owned or missing, and how a command ends after the host has written into its regions.
-/

namespace Sys2Proof.Machine

/-! ### Where a command writes -/

/-- A command writes inside its output regions only; INIT writes no memory (20_memory.md R90). -/
theorem exec_writesIn {i : Instr} {s t : State} (h : exec i s = .next t) :
    WritesIn (commandRegions i s).outs s t.bmem t.wmem := by
  rcases exec_next_cases h with ⟨-, mask, rfl⟩ | ⟨-, u, -, -, rfl⟩ | ⟨-, c, b, m, r, sid, sh⟩
  · exact WritesIn.refl _ s
  · exact WritesIn.refl _ s
  · rw [sh.eq]
    exact sh.writes

/-- Settles O10: every command writes inside its output regions only. -/
theorem commandsWriteOnlyTheirOutputRegions : Obligations.CommandsWriteOnlyTheirOutputRegions := by
  intro i s t a h
  have hw := exec_writesIn h
  exact ⟨fun ha => hw.bmem a fun r hr => Region.holds_eq_false_iff.mpr (ha r hr),
    fun ha => hw.wmem a fun r hr => Region.holds_eq_false_iff.mpr (ha r hr)⟩

/-! ### Host accesses to the memories, one equation per case -/

theorem noteHostWrite_free {s : State} {m : MemId} {a : Nat} (h : owns s m a = false) :
    noteHostWrite s m a = s := by simp [noteHostWrite, h]

/-- The first write into an owned region keeps the memories; a later one keeps those kept before
(log 14). -/
theorem noteHostWrite_owned {s : State} {m : MemId} {a : Nat} (h : owns s m a = true) :
    noteHostWrite s m a = { s with engView := some (s.engView.getD ⟨s.bmem, s.wmem⟩) } := by
  simp [noteHostWrite, h]

section
variable {s : State} {a : Word}

theorem readByte_missing (h : s.params.bmemSize ≤ a.toNat) :
    readByte a s = .fault (.hostAddress .b a) := if_pos h

theorem readByte_free (h : a.toNat < s.params.bmemSize) (ho : owns s .b a.toNat = false) :
    readByte a s = .next { s with readData := (Memory.read s.bmem a.toNat).setWidth 32 } := by
  simp [readByte, Nat.not_le.mpr h, ho]

theorem readByte_owned (h : a.toNat < s.params.bmemSize) (ho : owns s .b a.toNat = true) :
    readByte a s = .next
      { s with readData := (Config.freeByte s.freeCtr).setWidth 32, freeCtr := s.freeCtr + 1 } := by
  simp [readByte, Nat.not_le.mpr h, ho]

theorem writeByte_missing {v : Byte} (h : s.params.bmemSize ≤ a.toNat) :
    writeByte a v s = .fault (.hostAddress .b a) := if_pos h

theorem writeByte_present {v : Byte} (h : a.toNat < s.params.bmemSize) :
    writeByte a v s =
      .next { noteHostWrite s .b a.toNat with bmem := Memory.write s.bmem a.toNat v } :=
  if_neg (Nat.not_le.mpr h)

theorem writeByte_free {v : Byte} (h : a.toNat < s.params.bmemSize) (ho : owns s .b a.toNat = false) :
    writeByte a v s = .next { s with bmem := Memory.write s.bmem a.toNat v } := by
  rw [writeByte_present h, noteHostWrite_free ho]

theorem writeByte_owned {v : Byte} (h : a.toNat < s.params.bmemSize) (ho : owns s .b a.toNat = true) :
    writeByte a v s = .next
      { s with
        bmem := Memory.write s.bmem a.toNat v
        engView := some (s.engView.getD ⟨s.bmem, s.wmem⟩) } := by
  rw [writeByte_present h, noteHostWrite_owned ho]

theorem readWord_missing (h : s.params.wmemSize ≤ a.toNat) :
    readWord a s = .fault (.hostAddress .w a) := if_pos h

theorem readWord_free (h : a.toNat < s.params.wmemSize) (ho : owns s .w a.toNat = false) :
    readWord a s = .next { s with readData := (Memory.read s.wmem a.toNat).setWidth 32 } := by
  simp [readWord, Nat.not_le.mpr h, ho]

theorem readWord_owned (h : a.toNat < s.params.wmemSize) (ho : owns s .w a.toNat = true) :
    readWord a s = .next
      { s with readData := (Config.freeSample s.freeCtr).setWidth 32, freeCtr := s.freeCtr + 1 } := by
  simp [readWord, Nat.not_le.mpr h, ho]

theorem writeWord_missing {v : Sample} (h : s.params.wmemSize ≤ a.toNat) :
    writeWord a v s = .fault (.hostAddress .w a) := if_pos h

theorem writeWord_present {v : Sample} (h : a.toNat < s.params.wmemSize) :
    writeWord a v s =
      .next { noteHostWrite s .w a.toNat with wmem := Memory.write s.wmem a.toNat v } :=
  if_neg (Nat.not_le.mpr h)

theorem writeWord_free {v : Sample} (h : a.toNat < s.params.wmemSize) (ho : owns s .w a.toNat = false) :
    writeWord a v s = .next { s with wmem := Memory.write s.wmem a.toNat v } := by
  rw [writeWord_present h, noteHostWrite_free ho]

theorem writeWord_owned {v : Sample} (h : a.toNat < s.params.wmemSize) (ho : owns s .w a.toNat = true) :
    writeWord a v s = .next
      { s with
        wmem := Memory.write s.wmem a.toNat v
        engView := some (s.engView.getD ⟨s.bmem, s.wmem⟩) } := by
  rw [writeWord_present h, noteHostWrite_owned ho]

theorem readByte_next (h : a.toNat < s.params.bmemSize) : ∃ t, readByte a s = .next t := by
  cases ho : owns s .b a.toNat with
  | false => exact ⟨_, readByte_free h ho⟩
  | true => exact ⟨_, readByte_owned h ho⟩

theorem readWord_next (h : a.toNat < s.params.wmemSize) : ∃ t, readWord a s = .next t := by
  cases ho : owns s .w a.toNat with
  | false => exact ⟨_, readWord_free h ho⟩
  | true => exact ⟨_, readWord_owned h ho⟩

end

/-! ### Where a step stops -/

/-- The engine's turn always answers (60_exceptions.md R350, R366). -/
theorem engineTurn_next (s : State) : ∃ t, engineTurn s = .next t := by
  unfold engineTurn
  split
  · rcases runEngine_cases s with ⟨_, _, h⟩ | ⟨_, _, _, _, _, h⟩ | ⟨_, _, _, _, _, _, h⟩ <;>
      exact ⟨_, h⟩
  · exact ⟨s, rfl⟩

/-- A host access that does not answer reaches past the end of BMEM or WMEM (log 12). -/
theorem hostAccess_next_or_missing (h : HostAccess) (s : State) :
    (∃ t, hostAccess h s = .next t) ∨
    (∃ a, (h = .readByte a ∨ ∃ v, h = .writeByte a v) ∧ s.params.bmemSize ≤ a.toNat ∧
      hostAccess h s = .fault (.hostAddress .b a)) ∨
    (∃ a, (h = .readWord a ∨ ∃ v, h = .writeWord a v) ∧ s.params.wmemSize ≤ a.toNat ∧
      hostAccess h s = .fault (.hostAddress .w a)) := by
  cases h with
  | readReg width offset => exact .inl ⟨_, rfl⟩
  | writeReg width offset v => exact .inl ⟨_, rfl⟩
  | readByte a =>
    rcases Nat.lt_or_ge a.toNat s.params.bmemSize with ha | ha
    · exact .inl (readByte_next ha)
    · exact .inr (.inl ⟨a, .inl rfl, ha, readByte_missing ha⟩)
  | writeByte a v =>
    rcases Nat.lt_or_ge a.toNat s.params.bmemSize with ha | ha
    · exact .inl ⟨_, writeByte_present ha⟩
    · exact .inr (.inl ⟨a, .inr ⟨v, rfl⟩, ha, writeByte_missing ha⟩)
  | readWord a =>
    rcases Nat.lt_or_ge a.toNat s.params.wmemSize with ha | ha
    · exact .inl (readWord_next ha)
    · exact .inr (.inr ⟨a, .inl rfl, ha, readWord_missing ha⟩)
  | writeWord a v =>
    rcases Nat.lt_or_ge a.toNat s.params.wmemSize with ha | ha
    · exact .inl ⟨_, writeWord_present ha⟩
    · exact .inr (.inr ⟨a, .inr ⟨v, rfl⟩, ha, writeWord_missing ha⟩)

/-- Settles O17, by the event the step takes: only a host access can stop. -/
theorem stepStopsOnlyOnAMissingAddress : Obligations.StepStopsOnlyOnAMissingAddress := by
  intro s
  cases hin : s.inputs with
  | nil =>
    rw [step_engine (.inl hin)]
    exact .inl (engineTurn_next _)
  | cons e rest =>
    cases e with
    | engine =>
      rw [step_engine (.inr ⟨rest, hin⟩)]
      exact .inl (engineTurn_next _)
    | hardReset =>
      exact .inl ⟨hardReset { s with inputs := rest }, by simp only [step, hin, handle]⟩
    | host h =>
      rw [step_host hin]
      rcases hostAccess_next_or_missing h { s with inputs := rest } with hn | ⟨a, hk, ha, hf⟩ |
        ⟨a, hk, ha, hf⟩
      · exact .inl hn
      · exact .inr (.inl ⟨a, rest, by simpa using hk, ha, hf⟩)
      · exact .inr (.inr ⟨a, rest, by simpa using hk, ha, hf⟩)

/-! ### Host accesses outside the owned regions -/

/-- Where the block is configured, the regions the running command owns are those of its checks
(20_memory.md R95, 60_exceptions.md R351). -/
theorem runningRegions_eq_commandRegions {s : State} {i : Instr} (hd : decode s.engCmd = .ok i)
    (hc : s.cfgOk = true) : runningRegions s = commandRegions i s := by
  simp [runningRegions, commandRegions, hd, hc]

/-- Settles O27: no region of a running command holds the address, so the block does not own it. -/
theorem hostReachesMemoryOutsideOwnedRegions : Obligations.HostReachesMemoryOutsideOwnedRegions := by
  intro s a rest free
  have unowned {m : MemId} (h : free m) : owns { s with inputs := rest } m a.toNat = false :=
    owns_eq_false_iff.mpr h
  refine ⟨fun i hd hc => runningRegions_eq_commandRegions hd hc,
    fun hf ha => ⟨fun hin => ?_, fun v hin => ⟨?_, fun hw b => Memory.read_write hw _ b v⟩⟩,
    fun hf ha => ⟨fun hin => ?_, fun v hin => ⟨?_, fun hw b => Memory.read_write hw _ b v⟩⟩⟩ <;>
    rw [step_host hin]
  · exact readByte_free ha (unowned hf)
  · exact writeByte_free ha (unowned hf)
  · exact readWord_free ha (unowned hf)
  · exact writeWord_free ha (unowned hf)

/-! ### Host accesses to owned regions -/

/-- A command into whose regions the host has written runs on the memories kept for it (log 14). -/
theorem runCommand_kept {s u : State} {v : View} {i : Instr} (hv : s.engView = some v)
    (hx : exec i { s with bmem := v.bmem, wmem := v.wmem } = .next u) :
    runCommand i s = .next (violatedResult s u) := by
  unfold runCommand
  split
  · rename_i hn
    cases hv.symm.trans hn
  · rename_i w hw
    cases hv.symm.trans hw
    rw [hx]

theorem engineTurn_kept {s u : State} {v : View} {i : Instr} (hp : s.phase = .busy)
    (hv : s.engView = some v) (hd : decode s.engCmd = .ok i)
    (hx : exec i { s with bmem := v.bmem, wmem := v.wmem } = .next u) :
    engineTurn s = .next (violatedResult s u) := by
  simp only [engineTurn, hp, if_true, runEngine, hd, runCommand_kept hv hx]

/-- Settles O28: the engine's turn on kept memories frees the output regions only; then a host write and
a host read of an owned address. -/
theorem hostWriteIntoOwnedRegionFreesOnlyOutputs :
    Obligations.HostWriteIntoOwnedRegionFreesOnlyOutputs := by
  refine ⟨fun s u v i hp hv hin hd hx => ?_, ?_⟩
  · have hf := freeOutputs_freesIn { s with inputs := s.inputs.tail }
    refine ⟨violatedResult { s with inputs := s.inputs.tail } u, ?_, rfl,
      fun a ha => hf.bmem a fun r hr => Region.holds_eq_false_iff.mpr (ha r hr),
      fun a ha => hf.wmem a fun r hr => Region.holds_eq_false_iff.mpr (ha r hr)⟩
    rw [step_engine hin]
    exact engineTurn_kept (s := { s with inputs := s.inputs.tail }) hp hv hd hx
  · intro s a rest kept owned
    have owns_of {m : MemId} (h : owned m) : owns { s with inputs := rest } m a.toNat = true :=
      owns_iff.mpr h
    refine ⟨fun ho ha => ⟨fun v hin => ⟨_, ?_, fun hw b => Memory.read_write hw _ b v⟩,
        fun hin => ⟨Config.freeByte s.freeCtr, ?_⟩⟩,
      fun ho ha => ⟨fun v hin => ⟨_, ?_, fun hw b => Memory.read_write hw _ b v⟩,
        fun hin => ⟨Config.freeSample s.freeCtr, ?_⟩⟩⟩ <;>
      rw [step_host hin]
    · exact writeByte_owned ha (owns_of ho)
    · exact readByte_owned ha (owns_of ho)
    · exact writeWord_owned ha (owns_of ho)
    · exact readWord_owned ha (owns_of ho)

end Sys2Proof.Machine
end

section
/-!
PROOFS. Command words: what the decoder reads from a word, row by row of the opcode map
(30_encoding.md R114 to R118).
-/

namespace Sys2Proof

/-! ### Numbers of fields -/

theorem toNat_append {m n : Nat} (x : BitVec m) (y : BitVec n) :
    (x ++ y).toNat = x.toNat * 2 ^ n + y.toNat := by
  rw [BitVec.toNat_append, ← Nat.shiftLeft_add_eq_or_of_lt y.isLt, Nat.shiftLeft_eq]

theorem toNat_getLsbD {n : Nat} (x : BitVec n) (k : Nat) :
    (x.getLsbD k).toNat = x.toNat / 2 ^ k % 2 := Nat.toNat_testBit _ _

theorem toNat_bool_inj {a b : Bool} : a.toNat = b.toNat ↔ a = b := by
  cases a <;> cases b <;> simp

/-- The number a command word stands for (30_encoding.md R110). -/
theorem commandWord_toNat (o : Byte) (w : BitVec 5) (m : BitVec 4) (e : BitVec 8) :
    (commandWord o w m e).toNat =
      o.toNat + 256 * w.toNat + 8192 * m.toNat + 131072 * e.toNat := by
  simp only [commandWord, toNat_append, BitVec.toNat_ofNat]
  omega

/-! ### The rows of the opcode map -/

/-- The fields a row accepts, in the order of its checks (30_encoding.md R117): 0 where it does not use
them, legal where it does. -/
def OpcodeRow.Admits (r : OpcodeRow) (w : BitVec 5) (m : BitVec 4) (e : BitVec 8) : Prop :=
  (r.usesW = false → w = 0#5) ∧ (r.usesMeth = false → m = 0#4) ∧ (r.usesE8 = false → e = 0#8) ∧
    (r.usesW = true → legalWidth w = true) ∧ (r.usesMeth = true → legalMethod m = true)

/-- A check that stops with an error is passed by exactly what goes on. -/
theorem check_eq_ok_iff {ε α : Type} {b : Bool} {x : ε} {y : Except ε α} {a : α} :
    (if b then .error x else y) = .ok a ↔ b = false ∧ y = .ok a := by
  cases b <;> simp

/-- The checks of a row pass exactly the fields it admits. -/
theorem decodeRow_eq_ok_iff {r : OpcodeRow} {w : BitVec 5} {m : BitVec 4} {e : BitVec 8} {i : Instr} :
    decodeRow r w m e = .ok i ↔ r.Admits w m e ∧ r.make w m e = i := by
  simp only [decodeRow, check_eq_ok_iff, OpcodeRow.Admits, Except.ok.injEq, and_assoc,
    Bool.and_eq_false_imp, Bool.not_eq_true', Bool.not_eq_false', bne_eq_false_iff_eq]

/-- No two rows have one opcode, so each row is the row of its opcode. -/
theorem rowOf_opc {r : OpcodeRow} (h : r ∈ opcodeMap) : rowOf r.opc = some r := by
  revert r
  simp only [opcodeMap, List.forall_mem_cons]
  exact ⟨rfl, rfl, rfl, rfl, rfl, rfl, rfl, rfl, rfl, rfl, rfl, rfl, rfl, rfl, nofun⟩

theorem rowOf_eq_some_iff {o : Byte} {r : OpcodeRow} :
    rowOf o = some r ↔ r ∈ opcodeMap ∧ r.opc = o :=
  ⟨fun h => ⟨List.mem_of_find?_eq_some h, by simpa using List.find?_some h⟩,
    fun ⟨hr, ho⟩ => ho ▸ rowOf_opc hr⟩

/-- The words that decode to a command: reserved bits 0, and a row of the word's opcode that admits its
fields and makes the command of them. -/
theorem decode_eq_ok_iff {c : Word} {i : Instr} :
    decode c = .ok i ↔ reservedOf c = 0#7 ∧ ∃ r, (r ∈ opcodeMap ∧ r.opc = opcOf c) ∧
      r.Admits (widthOf c) (methOf c) (exp8Of c) ∧
      r.make (widthOf c) (methOf c) (exp8Of c) = i := by
  simp only [← rowOf_eq_some_iff]
  by_cases hz : reservedOf c = 0#7
  · cases hr : rowOf (opcOf c) <;> simp [decode, hz, hr, decodeRow_eq_ok_iff]
  · simp [decode, hz]

/-- The word built from a row's opcode decodes to what the row makes of fields it admits. -/
theorem decode_commandWord {o : Byte} {r : OpcodeRow} (hr : rowOf o = some r) {w : BitVec 5}
    {m : BitVec 4} {e : BitVec 8} {i : Instr} :
    decode (commandWord o w m e) = .ok i ↔ r.Admits w m e ∧ r.make w m e = i := by
  simp [decode, hr, decodeRow_eq_ok_iff]

/-! ### Encoding, row by row -/

/-- The command a row makes of fields it admits is well formed and its word has the row's opcode and
those fields. -/
theorem encode_make {r : OpcodeRow} (hr : r ∈ opcodeMap) {w : BitVec 5} {m : BitVec 4} {e : BitVec 8}
    (h : r.Admits w m e) :
    (r.make w m e).wf = true ∧ encode (r.make w m e) = commandWord r.opc w m e := by
  revert r
  simp only [opcodeMap, List.forall_mem_cons]
  -- In each row the fields it does not use are 0, as they are in the word.
  simp +contextual [OpcodeRow.Admits, Instr.wf, encode]

/-- Settles O1, command by command: its word has the opcode of the row that makes it. -/
theorem decodeOfEncodeGivesTheCommand : Obligations.DecodeOfEncodeGivesTheCommand := by
  intro i hi
  cases i with
  | nop | init | quant | dequant | msgDec =>
    exact (decode_commandWord rfl).mpr ⟨by simp [OpcodeRow.Admits], rfl⟩
  | pack | unpack | bfpx | bfpcI | bfpcF | bfpdF | bfpdRaw | prbSize | msgEnc =>
    exact (decode_commandWord rfl).mpr ⟨by simpa [OpcodeRow.Admits, Instr.wf] using hi, rfl⟩

/-- Settles O2: the row that decodes the word makes a command whose word has the same fields. -/
theorem encodeOfDecodeGivesTheWord : Obligations.EncodeOfDecodeGivesTheWord := by
  intro c i h
  obtain ⟨hz, r, ⟨hr, ho⟩, ha, rfl⟩ := decode_eq_ok_iff.mp h
  obtain ⟨hwf, henc⟩ := encode_make hr ha
  exact ⟨hwf, by rw [henc, ho, commandWord_of_fields hz]⟩

/-! ### The words that decode, as numbers -/

theorem opcOf_toNat (c : Word) : (opcOf c).toNat = c.toNat % 256 := by
  simp [opcOf]

theorem widthOf_toNat (c : Word) : (widthOf c).toNat = c.toNat / 256 % 32 :=
  toNat_extractLsb' ..

theorem methOf_toNat (c : Word) : (methOf c).toNat = c.toNat / 8192 % 16 :=
  toNat_extractLsb' ..

theorem exp8Of_toNat (c : Word) : (exp8Of c).toNat = c.toNat / 131072 % 256 :=
  toNat_extractLsb' ..

theorem reservedOf_eq_zero_iff (c : Word) : reservedOf c = 0#7 ↔ c.toNat / 33554432 = 0 := by
  rw [← BitVec.toNat_inj, reservedOf, toNat_extractLsb', BitVec.toNat_ofNat]
  omega

/-- The opcodes of the map (30_encoding.md R116). -/
theorem exists_row_iff {o : Byte} : (∃ r ∈ opcodeMap, r.opc = o) ↔ o.toNat ∈
    [0x00, 0x01, 0x10, 0x11, 0x20, 0x21, 0x30, 0x31, 0x32, 0x33, 0x34, 0x40, 0x41, 0x42] := by
  have opcs : opcodeMap.map (fun r => r.opc.toNat) =
      [0x00, 0x01, 0x10, 0x11, 0x20, 0x21, 0x30, 0x31, 0x32, 0x33, 0x34, 0x40, 0x41, 0x42] := rfl
  simp only [← opcs, List.mem_map, BitVec.toNat_inj]

/-- Which fields a row uses, and their legal values, by its opcode (30_encoding.md R111 to R113,
R116). -/
theorem OpcodeRow.admits_iff {r : OpcodeRow} (hr : r ∈ opcodeMap) {w : BitVec 5} {m : BitVec 4}
    {e : BitVec 8} : r.Admits w m e ↔
      (if r.opc.toNat ∈ [0x20, 0x21, 0x30, 0x31, 0x32, 0x33, 0x34, 0x40, 0x42]
        then 1 ≤ w.toNat ∧ w.toNat ≤ 16 else w.toNat = 0) ∧
      (if r.opc.toNat ∈ [0x40, 0x42] then m.toNat < 7 else m.toNat = 0) ∧
      (r.opc.toNat ≠ 0x11 → e.toNat = 0) := by
  have uses : ∀ r ∈ opcodeMap,
      r.usesW = decide (r.opc.toNat ∈ [0x20, 0x21, 0x30, 0x31, 0x32, 0x33, 0x34, 0x40, 0x42]) ∧
      r.usesMeth = decide (r.opc.toNat ∈ [0x40, 0x42]) ∧
      r.usesE8 = decide (r.opc.toNat = 0x11) := by decide
  obtain ⟨hw, hm, he⟩ := uses r hr
  simp only [OpcodeRow.Admits, hw, hm, he, decide_eq_true_eq, decide_eq_false_iff_not, legalWidth,
    legalMethod, Bool.and_eq_true, ← BitVec.toNat_inj, BitVec.toNat_ofNat, Nat.zero_mod,
    ite_prop_iff_and]
  tauto

/-- Settles O3: some row has the word's opcode and admits its fields, both written as numbers. -/
theorem decodeAcceptsExactlyLegalWords : Obligations.DecodeAcceptsExactlyLegalWords := by
  intro c
  simp only [← opcOf_toNat, ← widthOf_toNat, ← methOf_toNat, ← exp8Of_toNat,
    ← reservedOf_eq_zero_iff, ← exists_row_iff, decode_eq_ok_iff]
  constructor
  · rintro ⟨i, hz, r, ⟨hr, ho⟩, ha, -⟩
    exact ⟨hz, ⟨r, hr, ho⟩, ho ▸ (OpcodeRow.admits_iff hr).mp ha⟩
  · rintro ⟨hz, ⟨r, hr, ho⟩, hf⟩
    exact ⟨_, hz, r, ⟨hr, ho⟩, (OpcodeRow.admits_iff hr).mpr (ho ▸ hf), rfl⟩

/-- Settles O4: each word is closed. -/
theorem exampleWordsDecode : Obligations.ExampleWordsDecode := by
  refine ⟨?_, ?_, ?_, ?_, ?_, ?_, ?_, ?_, ?_, ⟨.reservedBits, ?_⟩, ⟨.unusedWidth, ?_⟩⟩ <;> decide

end Sys2Proof
end

section
/-!
PROOFS. A word that is no command (30_encoding.md R114), and what a command line assembles to (R122).
-/

namespace Sys2Proof.Machine

/-! ### The engine's turn -/

/-- A busy engine whose word is no command completes with ILLEGAL_COMMAND (30_encoding.md R114). -/
theorem engineTurn_illegal {s : State} (hp : s.phase = .busy) {e : DecodeError}
    (hd : decode s.engCmd = .error e) : engineTurn s = .next (complete .illegalCommand s) := by
  simp only [engineTurn, hp, if_true, runEngine, hd]

/-- Settles O6: the step is the engine's turn, which completes the command. -/
theorem illegalWordCompletesAndChangesNothingElse :
    Obligations.IllegalWordCompletesAndChangesNothingElse := by
  intro s e hp hin hd
  rw [step_engine hin]
  exact engineTurn_illegal (s := { s with inputs := s.inputs.tail }) hp hd

/-! ### Command lines -/

/-- A register of the map has the offset its entry gives (10_state.md R32). -/
theorem regOffset_of_mem {n : Nat} {r : Reg} (h : (n, r) ∈ regMap) : regOffset r = BitVec.ofNat 32 n := by
  have table : ∀ p ∈ regMap, regOffset p.2 = BitVec.ofNat 32 p.1 := by decide
  exact table _ h

/-- The writes of operands that the argument registers from k on can hold (30_encoding.md R122). -/
theorem operandEvents_eq {k : Nat} {vs : List Word} (h : k + vs.length ≤ 8) :
    operandEvents k vs = (vs.zipIdx k).map fun p =>
      Event.host (.writeReg .word (BitVec.ofNat 32 (0x020 + 4 * p.2)) p.1) := by
  induction vs generalizing k with
  | nil => rfl
  | cons v rest ih =>
    rw [List.length_cons] at h
    have arg : regOffset (.arg (Fin.ofNat 8 k)) = BitVec.ofNat 32 (0x020 + 4 * k) := by
      rw [show Fin.ofNat 8 k = ⟨k, by omega⟩ from Fin.ext (Nat.mod_eq_of_lt (by omega))]
      exact regOffset_of_mem (arg_mem_regMap ⟨k, _⟩)
    rw [operandEvents, List.zipIdx_cons, List.map_cons, ih (by omega), setEvent, arg]

/-- Settles O60, by the writes of the operands and the number of the command word. -/
theorem commandLineWritesArgumentsThenCmd : Obligations.CommandLineWritesArgumentsThenCmd := by
  intro c h
  rw [AsmCommand.events, operandEvents_eq (by omega), ← commandWord_toNat, BitVec.ofNat_toNat,
    BitVec.setWidth_eq]
  rfl

end Sys2Proof.Machine
end

section
/-!
PROOFS. The headers of a message (30_encoding.md R126, R128, R140): their fields as numbers of their
bytes, and building as the inverse of extraction. Equal fields are equal numbers, so each law is
linear arithmetic with division by powers of 2.
-/

namespace Sys2Proof.Machine

theorem parseHeader_fields (b0 b1 b2 b3 : Byte) :
    let h := parseHeader b0 b1 b2 b3
    h.direction = b0.getLsbD 7 ∧ h.version.toNat = b0.toNat / 16 % 8 ∧
    h.filter.toNat = b0.toNat % 16 ∧ h.frame = b1 ∧ h.subframe.toNat = b2.toNat / 16 ∧
    h.slot.toNat = 4 * (b2.toNat % 16) + b3.toNat / 64 ∧ h.symbol.toNat = b3.toNat % 64 := by
  simp only [parseHeader, toNat_append, toNat_extractLsb', true_and]
  omega

theorem parseSecHeader_fields (c0 c1 c2 c3 : Byte) :
    let h := parseSecHeader c0 c1 c2 c3
    h.sectionId.toNat = 16 * c0.toNat + c1.toNat / 16 ∧ h.rb = c1.getLsbD 3 ∧
    h.symInc = c1.getLsbD 2 ∧ h.startPrb.toNat = 256 * (c1.toNat % 4) + c2.toNat ∧
    h.nofPrb = c3 := by
  simp only [parseSecHeader, toNat_append, toNat_extractLsb', true_and, and_true]
  omega

theorem buildHeader_parseHeader (b0 b1 b2 b3 : Byte) :
    buildHeader (parseHeader b0 b1 b2 b3) = [b0, b1, b2, b3] := by
  simp only [buildHeader, parseHeader, List.cons.injEq, and_true, true_and, ← BitVec.toNat_inj,
    toNat_append, toNat_extractLsb', BitVec.toNat_ofBool, toNat_getLsbD]
  omega

theorem buildSecHeader_parseSecHeader (c0 c1 c2 c3 : Byte) :
    buildSecHeader (parseSecHeader c0 c1 c2 c3) = [c0, c1, c2, c3] := by
  simp only [buildSecHeader, parseSecHeader, List.cons.injEq, and_true, ← BitVec.toNat_inj,
    toNat_append, toNat_extractLsb', BitVec.toNat_ofBool, toNat_getLsbD]
  omega

theorem parseHeader_buildHeader (h : MsgHeader) :
    ∃ b0 b1 b2 b3, buildHeader h = [b0, b1, b2, b3] ∧ parseHeader b0 b1 b2 b3 = h := by
  refine ⟨_, _, _, _, rfl, ?_⟩
  obtain ⟨direction, version, filter, frame, subframe, slot, symbol⟩ := h
  have := direction.toNat_lt
  simp only [parseHeader, MsgHeader.mk.injEq, ← BitVec.toNat_inj, ← toNat_bool_inj, toNat_append,
    toNat_extractLsb', BitVec.toNat_ofBool, toNat_getLsbD, true_and]
  omega

theorem parseSecHeader_buildSecHeader (h : SecHeader) :
    ∃ c0 c1 c2 c3, buildSecHeader h = [c0, c1, c2, c3] ∧ parseSecHeader c0 c1 c2 c3 = h := by
  refine ⟨_, _, _, _, rfl, ?_⟩
  obtain ⟨sectionId, rb, symInc, startPrb, nofPrb⟩ := h
  have := rb.toNat_lt
  have := symInc.toNat_lt
  simp only [parseSecHeader, SecHeader.mk.injEq, ← BitVec.toNat_inj, ← toNat_bool_inj, toNat_append,
    toNat_extractLsb', BitVec.toNat_ofBool, toNat_getLsbD, and_true]
  omega

theorem headerWord_fields (h : MsgHeader) :
    let r := headerWord h
    r.getLsbD 0 = h.direction ∧ r.extractLsb' 1 3 = h.version ∧ r.extractLsb' 4 4 = h.filter ∧
    r.extractLsb' 8 8 = h.frame ∧ r.extractLsb' 16 4 = h.subframe ∧ r.extractLsb' 20 6 = h.slot ∧
    r.extractLsb' 26 6 = h.symbol := by
  have := h.direction.toNat_lt
  simp only [headerWord, ← BitVec.toNat_inj, ← toNat_bool_inj, toNat_append, toNat_extractLsb',
    BitVec.toNat_ofBool, toNat_getLsbD]
  omega

/-- The PRBs of a section as numbers of its bytes; `nof_prb = 0` stands for all configured PRBs from 0
(30_encoding.md R128). -/
theorem parseSecHeader_prbs (c0 c1 c2 c3 : Byte) (nof : Nat) :
    let h := parseSecHeader c0 c1 c2 c3
    h.prbCount nof = (if c3.toNat = 0 then nof else c3.toNat) ∧
    h.firstPrb = if c3.toNat = 0 then 0 else 256 * (c1.toNat % 4) + c2.toNat := by
  obtain ⟨-, -, -, hstart, hnof⟩ := parseSecHeader_fields c0 c1 c2 c3
  have hz : c3 = 0#8 ↔ c3.toNat = 0 := BitVec.toNat_inj.symm
  simp only [SecHeader.prbCount, SecHeader.firstPrb, hstart, hnof, hz, and_self]

/-- Settles O50, header by header. -/
theorem headersParseAndBuildAreInverse : Obligations.HeadersParseAndBuildAreInverse := by
  refine ⟨parseHeader_fields, fun c0 c1 c2 c3 nof => ?_, buildHeader_parseHeader,
    parseHeader_buildHeader, buildSecHeader_parseSecHeader, parseSecHeader_buildSecHeader, by decide,
    headerWord_fields, by decide⟩
  obtain ⟨hid, hrb, hsym, hstart, hnof⟩ := parseSecHeader_fields c0 c1 c2 c3
  exact ⟨hid, hrb, hsym, hstart, hnof, parseSecHeader_prbs c0 c1 c2 c3 nof⟩

end Sys2Proof.Machine
end

section
/-!
PROOFS. The quantizer (40_quantizer.md): what the bits of a float stand for and what `to_fixed` rounds
(R160 to R165); QUANT and DEQUANT, which convert word by word (R167, R168).
-/

namespace Sys2Proof.Machine

/-! ### Conversion to fixed point -/

/-- The real number of a product of two decoded values and a count. -/
theorem realOf_mul (xn xe cn ce n : Int) :
    realOf (xn * cn * n) (xe + ce) = realOf xn xe * realOf cn ce * n := by
  rw [realOf, realOf, realOf, zpow_add₀ two_ne_zero]
  push_cast
  ring

/-- What `fdec` reads off a pattern, by its sign, exponent and fraction (40_quantizer.md R161). -/
theorem fdec_standsFor {eb : Nat} (heb : 0 < eb) (bias fb bits : Nat) :
    let negative : Bool := decide (bits / 2 ^ (eb + fb) % 2 = 1)
    let sign : ℚ := if negative then -1 else 1
    let e := bits / 2 ^ fb % 2 ^ eb
    let f := bits % 2 ^ fb
    (e = 2 ^ eb - 1 → fdec eb bias fb bits = if f = 0 then .inf negative else .nan) ∧
    (e = 0 → ∃ n y, fdec eb bias fb bits = .finite n y ∧
      realOf n y = sign * f * 2 ^ (1 - bias - fb : Int)) ∧
    (e ≠ 0 → e ≠ 2 ^ eb - 1 → ∃ n y, fdec eb bias fb bits = .finite n y ∧
      realOf n y = sign * (2 ^ fb + f) * 2 ^ (e - bias - fb : Int)) := by
  intro negative sign e f
  have hones : 2 ^ eb - 1 ≠ 0 := by
    have := Nat.pow_le_pow_right two_pos heb
    omega
  have hfdec : fdec eb bias fb bits =
      if e = 2 ^ eb - 1 then (if f = 0 then .inf negative else .nan)
      else if e = 0 then .finite ((if negative then -1 else 1) * f) (1 - bias - fb)
      else .finite ((if negative then -1 else 1) * (2 ^ fb + f : Nat)) (e - bias - fb) := by
    rw [fdec, Nat.testBit_eq_decide_div_mod_eq]
  have hsign : (((if negative then -1 else 1 : Int)) : ℚ) = sign := by
    rw [Int.cast_ite, Int.cast_neg, Int.cast_one]
  have hzero (h : e = 0) : e ≠ 2 ^ eb - 1 := h ▸ hones.symm
  refine ⟨fun h => hfdec.trans (if_pos h),
    fun h => ⟨_, _, (hfdec.trans (if_neg (hzero h))).trans (if_pos h), ?_⟩,
    fun h0 h1 => ⟨_, _, (hfdec.trans (if_neg h1)).trans (if_neg h0), ?_⟩⟩
  · rw [realOf, Int.cast_mul, hsign, Int.cast_natCast]
  · rw [realOf, Int.cast_mul, hsign]
    push_cast
    rfl

/-- An infinity saturates by the sign of the product, and gives 0 under the scale 0 (40_quantizer.md
R165). -/
theorem toFixed_inf (negative : Bool) (cn ce : Int) :
    toFixed (.inf negative) (.finite cn ce) =
      if cn = 0 then 0 else if (negative = true ↔ cn < 0) then 32767 else -32768 := by
  have : (negative = decide (cn < 0)) = (negative = true ↔ cn < 0) := by
    rw [← Bool.coe_iff_coe, decide_eq_true_iff]
  simp only [toFixed, this]

/-- A finite product is clamped and rounded (40_quantizer.md R165). -/
theorem toFixed_finite (xn xe cn ce : Int) :
    let y : ℚ := max (-32768) (min 32767 (realOf xn xe * realOf cn ce * 32767))
    let q : Int := toFixed (.finite xn xe) (.finite cn ce)
    q ≤ 32767 ∧ -32768 ≤ q ∧ abs ((q : ℚ) - y) ≤ 1 / 2 ∧
      (abs ((q : ℚ) - y) = 1 / 2 → abs y < abs (q : ℚ)) := by
  have hspec := clampRound_spec (xn * cn * 32767) (xe + ce)
  rwa [realOf_mul] at hspec

/-- Settles O32, format by format and by the kinds of input. -/
theorem toFixedClampsAndRounds : Obligations.ToFixedClampsAndRounds :=
  ⟨fun x c => ⟨fdec_standsFor (by decide) 127 7 x.toNat, fdec_standsFor (by decide) 15 10 x.toNat,
      fdec_standsFor (by decide) 127 23 c.toNat⟩,
    fun cn ce => ⟨rfl, fun negative => toFixed_inf negative cn ce,
      fun xn xe => toFixed_finite xn xe cn ce⟩⟩

/-! ### QUANT and DEQUANT -/

/-- The checks of a conversion pass between regions in range that are identical or apart
(20_memory.md R88). -/
theorem precheck_convert {i : Instr} {s : State}
    (hi : commandRegions i s = convertRegions s.engArg) (hw : i.wf = true) (hc : s.cfgOk = true)
    (hsrc : InRange s.params.wmemSize s.engArg.r0.toNat s.engArg.r2.toNat)
    (hdst : InRange s.params.wmemSize s.engArg.r1.toNat s.engArg.r2.toNat)
    (hd : s.engArg.r0.toNat = s.engArg.r1.toNat ∨
      Apart s.engArg.r0.toNat s.engArg.r2.toNat s.engArg.r1.toNat s.engArg.r2.toNat) :
    precheck i s = none :=
  precheck_pair hi hw hc hsrc hdst (.inr (hd.imp_left fun h => ⟨rfl, by rw [h]⟩))

/-- Settles O34: every source word is read before a destination word is written. -/
theorem quantWritesFixedSamples : Obligations.QuantWritesFixedSamples := by
  intro s src dst n hc hwf hsrc hdst hd
  refine ⟨_, guarded_run (precheck_convert rfl rfl hc hsrc hdst hd), fun k hk => ?_,
    fun a ha => Memory.read_writeRange_out _ _ _ (by simpa using ha)⟩
  rw [Memory.read_writeRange_in hwf _ _ (by simpa using hk), List.getElem_map,
    Memory.readRange_getElem, quantize]

/-- Settles O35: every source word is read before a destination word is written. -/
theorem dequantWritesFloatSamples : Obligations.DequantWritesFloatSamples := by
  intro s e8 src dst n hc hwf hsrc hdst hd
  refine ⟨_, guarded_run (precheck_convert rfl rfl hc hsrc hdst hd), fun k hk => ?_,
    fun a ha => Memory.read_writeRange_out _ _ _ (by simpa using ha)⟩
  rw [Memory.read_writeRange_in hwf _ _ (by simpa using hk), List.getElem_map,
    fixedSamples_getElem]

end Sys2Proof.Machine
end

section
/-!
PROOFS. `to_float` (40_quantizer.md R162, R166): rounding picks the significand nearest to the quotient in
its binade, and overflows from halfway past the greatest finite float on.
-/

namespace Sys2Proof.Machine

/-! ### The nearest integer -/

/-- The nearest integer to a quotient, as a real (40_quantizer.md R162). -/
theorem abs_nearestEven_sub_le (n : Nat) {d : Nat} (hd : 0 < d) :
    abs ((nearestEven n d : ℚ) - n / d) ≤ 1 / 2 ∧
      (abs ((nearestEven n d : ℚ) - n / d) = 1 / 2 → nearestEven n d % 2 = 0) := by
  obtain ⟨hlo, hhi, heven⟩ := nearestEven_spec n hd
  have hd' : (0 : ℚ) < 2 * d := by positivity
  have hdiff : (nearestEven n d : ℚ) - n / d = (2 * d * nearestEven n d - 2 * n) / (2 * d) := by
    field_simp
  rw [← @Nat.cast_le ℚ] at hlo hhi
  rw [← @Nat.cast_inj ℚ, ← @Nat.cast_inj ℚ] at heven
  push_cast at hlo hhi heven
  rw [hdiff, abs_div, abs_of_pos hd', div_le_iff₀ hd', div_eq_iff hd'.ne', abs_le]
  refine ⟨⟨by linarith, by linarith⟩, fun h => heven ?_⟩
  rcases (abs_eq (by positivity)).mp h with h | h
  · exact .inl (by linarith)
  · exact .inr (by linarith)

/-! ### The exponent and the significand of a quotient -/

/-- The exponent `RNE` rounds `a / d` at: that of its binade, or the least of the format. -/
def rneExp (fmt : FloatFmt) (a d : Nat) : Int := max (floorLog2 a d) (1 - (expBias fmt : Int))

/-- The unit of the significand at that exponent. -/
def rneUnit (fmt : FloatFmt) (a d : Nat) : ℚ := 2 ^ (rneExp fmt a d - fracBits fmt)

/-- The significand `RNE` rounds `a / d` to, a count of those units. -/
def rneSig (fmt : FloatFmt) (a d : Nat) : Nat :=
  let shift := rneExp fmt a d - fracBits fmt
  nearestEven (a * 2 ^ (-shift).toNat) (d * 2 ^ shift.toNat)

theorem rne_eq_rneFinish (fmt : FloatFmt) {num : Int} (h : num ≠ 0) (den : Nat) :
    rne fmt num den =
      rneFinish fmt (decide (num < 0)) (rneSig fmt num.natAbs den) (rneExp fmt num.natAbs den) := by
  rw [rne, if_neg h]
  rfl

section
variable (fmt : FloatFmt) {a d : Nat}

theorem le_rneExp (a d : Nat) : 1 - (expBias fmt : Int) ≤ rneExp fmt a d := le_max_right _ _

theorem rneUnit_pos (a d : Nat) : 0 < rneUnit fmt a d := zpow_pos two_pos _

/-- A power of 2 in units, as a real. -/
theorem two_pow_mul_rneUnit (a d k : Nat) :
    (2 : ℚ) ^ (fracBits fmt + k) * rneUnit fmt a d = 2 ^ (rneExp fmt a d + k) := by
  rw [rneUnit, ← zpow_natCast, ← zpow_add₀ two_ne_zero]
  congr 1
  push_cast
  ring

/-- The quotient lies below the end of the binade of `rneExp`, and in it unless it is subnormal. -/
theorem rneExp_binade (ha : 0 < a) (hd : 0 < d) :
    (a : ℚ) / d < (2 : ℚ) ^ (rneExp fmt a d + 1) ∧
      (rneExp fmt a d = 1 - (expBias fmt : Int) ∨ (2 : ℚ) ^ rneExp fmt a d ≤ (a : ℚ) / d) := by
  obtain ⟨hlo, hhi⟩ := floorLog2_spec ha hd
  refine ⟨hhi.trans_le (zpow_le_zpow_right₀ one_le_two ?_), ?_⟩
  · exact Int.add_le_add_right (le_max_left _ _) 1
  · rcases max_choice (floorLog2 a d) (1 - (expBias fmt : Int)) with h | h
    · exact .inr (by rwa [rneExp, h])
    · exact .inl h

/-- No other exponent of the format has that property. -/
theorem eq_rneExp (ha : 0 < a) (hd : 0 < d) {p : Int} (hp : 1 - (expBias fmt : Int) ≤ p)
    (hhi : (a : ℚ) / d < (2 : ℚ) ^ (p + 1))
    (hlo : p = 1 - (expBias fmt : Int) ∨ (2 : ℚ) ^ p ≤ (a : ℚ) / d) : p = rneExp fmt a d := by
  have below {x y : Int} (hx : (2 : ℚ) ^ x ≤ (a : ℚ) / d) (hy : (a : ℚ) / d < (2 : ℚ) ^ (y + 1)) :
      x < y + 1 := (zpow_lt_zpow_iff_right₀ one_lt_two).mp (hx.trans_lt hy)
  obtain ⟨hehi, helo⟩ := rneExp_binade fmt ha hd
  have he := le_rneExp fmt a d
  have hle : p ≤ rneExp fmt a d := by
    rcases hlo with h | h
    · omega
    · have := below h hehi
      omega
  have hge : rneExp fmt a d ≤ p := by
    rcases helo with h | h
    · omega
    · have := below h hhi
      omega
  omega

/-- The significand is the count of units nearest to the quotient, ties to even. -/
theorem abs_rneSig_sub_le (hd : 0 < d) :
    abs ((rneSig fmt a d : ℚ) - (a : ℚ) / d / rneUnit fmt a d) ≤ 1 / 2 ∧
      (abs ((rneSig fmt a d : ℚ) - (a : ℚ) / d / rneUnit fmt a d) = 1 / 2 →
        rneSig fmt a d % 2 = 0) := by
  unfold rneSig rneUnit
  generalize rneExp fmt a d - fracBits fmt = shift
  have hscale : ((a * 2 ^ (-shift).toNat : Nat) : ℚ) / (d * 2 ^ shift.toNat : Nat) =
      (a : ℚ) / d / 2 ^ shift := by
    have hshift : (2 : ℚ) ^ shift = 2 ^ shift.toNat / 2 ^ (-shift).toNat := by
      rw [← zpow_natCast, ← zpow_natCast, ← zpow_sub₀ two_ne_zero]
      congr 1
      omega
    rw [hshift]
    push_cast
    field_simp
  rw [← hscale]
  exact abs_nearestEven_sub_le _ (by positivity)

theorem rneSig_near (hd : 0 < d) :
    (a : ℚ) / d / rneUnit fmt a d - 1 / 2 ≤ rneSig fmt a d ∧
      (rneSig fmt a d : ℚ) ≤ (a : ℚ) / d / rneUnit fmt a d + 1 / 2 := by
  obtain ⟨hlo, hhi⟩ := abs_le.mp (abs_rneSig_sub_le fmt (a := a) hd).1
  constructor <;> linarith

/-- The significand may reach the end of its binade, by a carry. -/
theorem rneSig_le (ha : 0 < a) (hd : 0 < d) : rneSig fmt a d ≤ 2 ^ (fracBits fmt + 1) := by
  have hu : (a : ℚ) / d / rneUnit fmt a d < 2 ^ (fracBits fmt + 1) := by
    rw [div_lt_iff₀ (rneUnit_pos fmt a d), two_pow_mul_rneUnit]
    exact (rneExp_binade fmt ha hd).1
  have hm : (rneSig fmt a d : ℚ) < (2 ^ (fracBits fmt + 1) + 1 : Nat) := by
    have := (rneSig_near fmt (a := a) hd).2
    push_cast
    linarith
  exact Nat.lt_succ_iff.mp (Nat.cast_lt.mp hm)

/-- Above the least exponent the significand is normal. -/
theorem le_rneSig (ha : 0 < a) (hd : 0 < d) (he : 1 - (expBias fmt : Int) < rneExp fmt a d) :
    2 ^ fracBits fmt ≤ rneSig fmt a d := by
  have hu : (2 : ℚ) ^ fracBits fmt ≤ (a : ℚ) / d / rneUnit fmt a d := by
    have hunits := two_pow_mul_rneUnit fmt a d 0
    rw [add_zero, Nat.cast_zero, add_zero] at hunits
    rw [le_div_iff₀ (rneUnit_pos fmt a d), hunits]
    exact (rneExp_binade fmt ha hd).2.resolve_left he.ne'
  have hm : ((2 ^ fracBits fmt : Nat) : ℚ) < (rneSig fmt a d + 1 : Nat) := by
    have := (rneSig_near fmt (a := a) hd).1
    push_cast
    linarith
  exact Nat.lt_succ_iff.mp (Nat.cast_lt.mp hm)

end

/-! ### Overflow -/

/-- Halfway past the greatest finite float of a format. -/
def floatTop (fmt : FloatFmt) : ℚ := (2 - (2 : ℚ) ^ (-(fracBits fmt : Int) - 1)) * 2 ^ expBias fmt

/-- In the last binade the top is half a unit below the end. -/
theorem floatTop_eq {fmt : FloatFmt} {a d : Nat} (he : rneExp fmt a d = expBias fmt) :
    floatTop fmt = (2 ^ (fracBits fmt + 1) - 1 / 2) * rneUnit fmt a d := by
  rw [floatTop, rneUnit, he, ← zpow_natCast, ← zpow_natCast, zpow_sub₀ two_ne_zero,
    zpow_sub₀ two_ne_zero, zpow_neg, Nat.cast_add, Nat.cast_one, zpow_add_one₀ two_ne_zero]
  field_simp

theorem floatTop_bounds (fmt : FloatFmt) :
    (2 : ℚ) ^ (expBias fmt : Int) ≤ floatTop fmt ∧
      floatTop fmt < (2 : ℚ) ^ ((expBias fmt : Int) + 1) := by
  have hhalf : (2 : ℚ) ^ (-(fracBits fmt : Int) - 1) ≤ 2 ^ (0 : Int) :=
    zpow_le_zpow_right₀ one_le_two (by omega)
  have hpos : (0 : ℚ) < 2 ^ (-(fracBits fmt : Int) - 1) := by positivity
  have hbias : (0 : ℚ) < 2 ^ expBias fmt := by positivity
  rw [zpow_zero] at hhalf
  rw [floatTop, zpow_add_one₀ two_ne_zero, zpow_natCast]
  constructor <;> nlinarith

section
variable (fmt : FloatFmt) {a d : Nat}

/-- From the top on, the exponent or the rounded significand leaves the range. -/
theorem rne_overflows (ha : 0 < a) (hd : 0 < d) (h : floatTop fmt ≤ (a : ℚ) / d) :
    (expBias fmt : Int) < rneExp fmt a d ∨
      (rneExp fmt a d = expBias fmt ∧ rneSig fmt a d = 2 ^ (fracBits fmt + 1)) := by
  have hlt : (expBias fmt : Int) < rneExp fmt a d + 1 := (zpow_lt_zpow_iff_right₀ one_lt_two).mp
    (((floatTop_bounds fmt).1.trans h).trans_lt (rneExp_binade fmt ha hd).1)
  rcases (Int.lt_add_one_iff.mp hlt).lt_or_eq with he | he
  · exact .inl he
  refine .inr ⟨he.symm, (rneSig_le fmt ha hd).eq_of_not_lt fun hm => ?_⟩
  rw [floatTop_eq he.symm, ← le_div_iff₀ (rneUnit_pos fmt a d)] at h
  obtain ⟨hnear, -⟩ := rneSig_near fmt (a := a) hd
  have hm' : (rneSig fmt a d : ℚ) + 1 ≤ 2 ^ (fracBits fmt + 1) := by exact_mod_cast hm
  have htie := (abs_rneSig_sub_le fmt (a := a) hd).2
    ((abs_eq (by norm_num)).mpr (.inr (by linarith)))
  have hodd : rneSig fmt a d + 1 = 2 ^ (fracBits fmt + 1) := by
    rw [← @Nat.cast_inj ℚ]
    push_cast
    linarith
  omega

/-- Below the top, neither does. -/
theorem rne_stays_in_range (ha : 0 < a) (hd : 0 < d) (h : (a : ℚ) / d < floatTop fmt) :
    rneExp fmt a d < expBias fmt ∨
      (rneExp fmt a d = expBias fmt ∧ rneSig fmt a d < 2 ^ (fracBits fmt + 1)) := by
  have hle : rneExp fmt a d ≤ expBias fmt := by
    rcases (rneExp_binade fmt ha hd).2 with he | he
    · have : 1 ≤ expBias fmt := by cases fmt <;> decide
      omega
    · exact Int.lt_add_one_iff.mp ((zpow_lt_zpow_iff_right₀ one_lt_two).mp
        (he.trans_lt (h.trans (floatTop_bounds fmt).2)))
  refine hle.lt_or_eq.imp_right fun he => ⟨he, ?_⟩
  rw [floatTop_eq he, ← div_lt_iff₀ (rneUnit_pos fmt a d)] at h
  have hnear := (rneSig_near fmt (a := a) hd).2
  rw [← @Nat.cast_lt ℚ]
  push_cast
  linarith

end

theorem floatTop_pos (fmt : FloatFmt) : 0 < floatTop fmt :=
  (zpow_pos two_pos _).trans_le (floatTop_bounds fmt).1

/-! ### Rounding to the nearest float -/

/-- A sign times a magnitude is the number. -/
theorem sign_mul_natAbs (num : Int) :
    (if decide (num < 0) then -1 else 1 : ℚ) * (num.natAbs : ℚ) = num := by
  rw [Nat.cast_natAbs, Int.cast_abs]
  rcases lt_or_ge num 0 with h | h
  · rw [abs_of_neg (Int.cast_lt_zero.mpr h)]
    simp [h]
  · rw [abs_of_nonneg (Int.cast_nonneg h)]
    simp [h.not_gt]

/-- A signed count of units is as far from the number as its significand is from the magnitude. -/
theorem abs_signed_sub (fmt : FloatFmt) (num : Int) (den : Nat) :
    abs ((if decide (num < 0) then -1 else 1 : ℚ) * (rneSig fmt num.natAbs den : ℚ) *
        rneUnit fmt num.natAbs den - num / den) =
      abs ((rneSig fmt num.natAbs den : ℚ) -
        (num.natAbs : ℚ) / den / rneUnit fmt num.natAbs den) * rneUnit fmt num.natAbs den := by
  have hunit := rneUnit_pos fmt num.natAbs den
  have habs : abs (if decide (num < 0) then -1 else 1 : ℚ) = 1 := by split <;> simp
  conv_lhs => rw [← sign_mul_natAbs num, mul_assoc, mul_div_assoc, ← mul_sub, abs_mul, habs, one_mul]
  conv_rhs => rw [← abs_of_pos hunit, ← abs_mul, abs_of_pos hunit, sub_mul,
    div_mul_cancel₀ _ hunit.ne']

/-- `RNE` of a non-zero real (40_quantizer.md R162). -/
theorem rne_spec (fmt : FloatFmt) {num : Int} (hnum : num ≠ 0) {den : Nat} (hden : 0 < den) :
    let x := rne fmt num den
    let unit := rneUnit fmt num.natAbs den
    x.getLsbD 15 = decide (num < 0) ∧
    (floatTop fmt ≤ (num.natAbs : ℚ) / den → fdecSample fmt x = .inf (decide (num < 0))) ∧
    ((num.natAbs : ℚ) / den < floatTop fmt → ∃ n y, fdecSample fmt x = .finite n y ∧
      abs (realOf n y - num / den) ≤ unit / 2 ∧
      (abs (realOf n y - num / den) = unit / 2 → x.getLsbD 0 = false)) := by
  intro x unit
  have ha : 0 < num.natAbs := Int.natAbs_pos.mpr hnum
  obtain ⟨hsign, hinf, hfin⟩ := rneFinish_spec fmt (decide (num < 0)) (rneSig_le fmt ha hden)
    (le_rneExp fmt _ _) (le_rneSig fmt ha hden)
  rw [← rne_eq_rneFinish fmt hnum] at hsign hinf hfin
  refine ⟨hsign, fun h => hinf (rne_overflows fmt ha hden h), fun h => ?_⟩
  obtain ⟨hbit, n, y, hdec, hreal⟩ := hfin (rne_stays_in_range fmt ha hden h)
  obtain ⟨hnear, htie⟩ := abs_rneSig_sub_le fmt (a := num.natAbs) hden
  have hunit : 0 < unit := rneUnit_pos fmt _ _
  rw [← rneUnit] at hreal
  have hhalf : unit / 2 = 1 / 2 * unit := by rw [one_div_mul_eq_div]
  rw [hhalf]
  refine ⟨n, y, hdec, ?_, fun h => ?_⟩
  · rw [hreal, abs_signed_sub]
    exact mul_le_mul_of_nonneg_right hnear hunit.le
  · rw [hreal, abs_signed_sub] at h
    rw [hbit, htie (mul_right_cancel₀ hunit.ne' h)]
    rfl

theorem toFloat_zero (fmt : FloatFmt) (e : Nat) : toFloat fmt 0 e = 0#16 := by
  rw [toFloat, zero_mul, rne, if_pos rfl]

/-- Settles O33: the given exponent is the one `RNE` rounds at. -/
theorem toFloatIsTheNearestFloat : Obligations.ToFloatIsTheNearestFloat := by
  intro fmt q e fb bias real top x
  have hfb : fb = fracBits fmt := by cases fmt <;> rfl
  have hbias : bias = expBias fmt := by cases fmt <;> rfl
  have htop : top = floatTop fmt := by rw [floatTop, ← hfb, ← hbias]
  rcases eq_or_ne q 0 with rfl | hq
  · have hx : x = 0#16 := toFloat_zero fmt e
    have hlt : abs real < top := by
      have hzero : real = 0 := by simp [real]
      rw [htop, hzero, abs_zero]
      exact floatTop_pos fmt
    exact ⟨fun _ => hx, by rw [hx]; rfl, fun h => absurd h hlt.not_ge, fun h => absurd rfl h⟩
  have hpow : (0 : Int) < (2 ^ e : Nat) := by positivity
  have hnum : q * (2 ^ e : Nat) ≠ 0 := mul_ne_zero hq hpow.ne'
  have hden : 0 < 32767 := by decide
  have hsign : (q * (2 ^ e : Nat) < 0) = (q < 0) :=
    propext ⟨fun h => neg_of_mul_neg_left h hpow.le, fun h => mul_neg_of_neg_of_pos h hpow⟩
  have hreal : ((q * (2 ^ e : Nat) : Int) : ℚ) / (32767 : Nat) = real := by
    push_cast
    rfl
  have habs : ((q * (2 ^ e : Nat)).natAbs : ℚ) / (32767 : Nat) = abs real := by
    rw [← hreal, abs_div, Nat.cast_natAbs, Int.cast_abs, Nat.abs_cast]
  obtain ⟨hbit, hinf, hfin⟩ := rne_spec fmt hnum hden
  rw [habs, hreal] at hfin
  rw [habs] at hinf
  simp only [hsign] at hbit hinf
  rw [htop, hfb, hbias]
  refine ⟨fun h => absurd h hq, hbit, hinf, fun _ hlt p hp hhi hlo => ?_⟩
  rw [← habs] at hhi hlo
  rw [eq_rneExp fmt (Int.natAbs_pos.mpr hnum) hden hp hhi hlo]
  exact hfin hlt

end Sys2Proof.Machine
end

section
/-!
PROOFS. The bit packer (41_bitpack.md): packing and unpacking are inverse, as streams of bits
(R195); the ends of the commands that move a stream between the memories (R193, R194; 42_bfp.md
R219 to R222), and what PACK and UNPACK write.
-/

namespace Sys2Proof.Machine

/-! ### Packing and unpacking are inverse -/

/-- The bytes of a command's stream as the statements write it (30_encoding.md R135). -/
theorem packedBytes_eq (n w : Nat) : packedBytes n w = (n * w + 7) / 8 := rfl

/-- Streams of one length that spell one number are equal. -/
theorem bitsToNat_inj {a b : List Bool} (hl : a.length = b.length)
    (h : bitsToNat a = bitsToNat b) : a = b := by
  refine List.ext_getElem hl fun k ha hb => ?_
  have hbit : (bitsToNat a).testBit (a.length - 1 - k) =
      (bitsToNat b).testBit (b.length - 1 - k) := by rw [h, hl]
  rw [bitsToNat_testBit a _ (by omega), bitsToNat_testBit b _ (by omega)] at hbit
  simpa only [Nat.sub_sub_self (Nat.le_sub_one_of_lt ha),
    Nat.sub_sub_self (Nat.le_sub_one_of_lt hb)] using hbit

/-- Sign extension keeps the pattern of a field. -/
theorem sext_emod {w u : Nat} (hu : u < 2 ^ w) : (sext w u % (2 ^ w : Nat)).toNat = u := by
  have hmod : sext w u % (2 ^ w : Nat) = u % (2 ^ w : Nat) := by
    rw [sext]
    split
    · exact Int.sub_emod_right _ _
    · rfl
  rw [hmod, ← Int.natCast_emod, Int.toNat_natCast, Nat.mod_eq_of_lt hu]

/-- The bits of the value of a field are the field. -/
theorem valueBits_sext_bitsToNat (bits : List Bool) :
    valueBits bits.length (sext bits.length (bitsToNat bits)) = bits :=
  bitsToNat_inj (valueBits_length _ _)
    (by rw [bitsToNat_valueBits, sext_emod (bitsToNat_lt bits)])

/-- The bits of the first n fields of a stream are its first n·w bits. -/
theorem flatMap_valueBits_readFields {w n : Nat} {bits : List Bool} (h : n * w ≤ bits.length) :
    (readFields w n bits).flatMap (valueBits w) = bits.take (n * w) := by
  induction n generalizing bits with
  | zero => simp [readFields]
  | succ n ih =>
    have hn : (n + 1) * w = w + n * w := by ring
    have hfield : valueBits w (sext w (bitsToNat (bits.take w))) = bits.take w := by
      have hlen : (bits.take w).length = w := by rw [List.length_take]; omega
      simpa only [hlen] using valueBits_sext_bitsToNat (bits.take w)
    rw [readFields, List.flatMap_cons, hfield, ih (by rw [List.length_drop]; omega), hn,
      List.take_add]

/-- Byte strings of one length with one stream are equal. -/
theorem flatMap_byteBits_inj {a b : List Byte} (hl : a.length = b.length)
    (h : a.flatMap byteBits = b.flatMap byteBits) : a = b := by
  rw [← bytesOfBits_flatMap_byteBits a, h, hl, bytesOfBits_flatMap_byteBits]

/-- A stream whose bits from k on are 0 is its first k bits, padded. -/
theorem take_append_pad {bits : List Bool} {k : Nat}
    (h : ∀ j, k ≤ j → j < bits.length → bits[j]? = some false) :
    (bits.take k ++ List.replicate bits.length false).take bits.length = bits := by
  apply List.ext_getElem?
  intro j
  rw [List.getElem?_take]
  split
  · rename_i hj
    rw [List.getElem?_append, List.length_take]
    split
    · rw [List.getElem?_take, if_pos (by omega)]
    · rw [List.getElem?_replicate, if_pos (by omega), h j (by omega) hj]
  · rw [List.getElem?_eq_none (by omega)]

/-- Unpacking reads the values back before it reaches the pad bits (41_bitpack.md R195). -/
theorem unpackBits_packBits {w : Nat} (hw : 1 ≤ w) {x : List Int}
    (hx : ∀ v ∈ x, fits v w = true) : unpackBits w x.length (packBits w x) = x := by
  have hlen : (x.flatMap (valueBits w)).length ≤ 8 * packedBytes x.length w := by
    rw [flatMap_valueBits_length]
    exact (packedBytes_bounds _ _).1
  rw [unpackBits, packBits, flatMap_byteBits_bytesOfBits, List.take_append,
    List.take_of_length_le hlen, readFields_flatMap_valueBits hw x hx]

/-- Packing the fields of a stream gives back its bytes when the pad bits are 0 (41_bitpack.md
R195). -/
theorem packBits_unpackBits {w n : Nat} {b : List Byte} (hb : b.length = packedBytes n w)
    (hpad : ∀ k, n * w ≤ k → k < 8 * b.length →
      (b.getD (k / 8) 0#8).getLsbD (7 - k % 8) = false) :
    packBits w (unpackBits w n b) = b := by
  have hbits : (b.flatMap byteBits).length = 8 * b.length := by
    rw [flatMap_byteBits_length, Nat.mul_comm]
  have hstream : (packBits w (unpackBits w n b)).flatMap byteBits = b.flatMap byteBits := by
    have hn : n * w ≤ (b.flatMap byteBits).length := by
      rw [hbits, hb]
      exact (packedBytes_bounds n w).1
    rw [packBits, flatMap_byteBits_bytesOfBits, unpackBits_length, ← hb, ← hbits, unpackBits,
      flatMap_valueBits_readFields hn]
    refine take_append_pad fun k hk hlt => ?_
    rw [hbits] at hlt
    have hbit := hpad k hk hlt
    have hbyte : k / 8 < b.length := by omega
    rw [List.getD_eq_getElem?_getD, List.getElem?_eq_getElem hbyte, Option.getD_some] at hbit
    rw [flatMap_byteBits_getElem?, List.getElem?_eq_getElem hbyte, Option.map_some, hbit]
  exact flatMap_byteBits_inj (by rw [packBits_length, unpackBits_length, hb]) hstream

/-- Settles O39, both ways through the stream of bits. -/
theorem packAndUnpackAreInverse : Obligations.PackAndUnpackAreInverse :=
  fun _ hw _ => ⟨fun _ hx => unpackBits_packBits hw hx,
    fun _ _ hb hpad => packBits_unpackBits hb hpad⟩

/-! ### The ends of the commands that move a stream -/

theorem legalWidth_iff (w : BitVec 5) : legalWidth w = true ↔ 1 ≤ w.toNat ∧ w.toNat ≤ 16 := by
  simp [legalWidth]

/-- The range of w signed bits (41_bitpack.md R190). -/
theorem fits_iff (v : Int) (w : Nat) :
    fits v w = true ↔ -(2 : Int) ^ (w - 1) ≤ v ∧ v ≤ (2 : Int) ^ (w - 1) - 1 := by
  simp [fits]

theorem forall_mem_fixedSamples {m : Memory 16} {a n : Nat} {P : Int → Prop} :
    (∀ v ∈ fixedSamples m a n, P v) ↔ ∀ k, k < n → P (Memory.read m (a + k)).toInt := by
  simp [fixedSamples, Memory.readRange]

section
variable {w : BitVec 5} {s : State}

theorem packRun_short (h : s.engArg.r3.toNat < packedBytes s.engArg.r2.toNat w.toNat) :
    packRun w s = complete .contractViolation s := if_pos h

/-- A value that does not fit ends PACK as a short capacity does (41_bitpack.md R193). -/
theorem packRun_unfit
    (h : ¬ ∀ v ∈ fixedSamples s.wmem s.engArg.r0.toNat s.engArg.r2.toNat, fits v w.toNat = true) :
    packRun w s = complete .contractViolation s := by
  rw [packRun]
  split
  · rfl
  · exact if_pos (by simpa using h)

theorem packRun_fit (hcap : packedBytes s.engArg.r2.toNat w.toNat ≤ s.engArg.r3.toNat)
    (h : ∀ v ∈ fixedSamples s.wmem s.engArg.r0.toNat s.engArg.r2.toNat, fits v w.toNat = true) :
    packRun w s = complete .ok
      { s with
        bmem := Memory.writeRange s.bmem s.engArg.r1.toNat
          (packBits w.toNat (fixedSamples s.wmem s.engArg.r0.toNat s.engArg.r2.toNat))
        res := { s.res with r0 := word (packedBytes s.engArg.r2.toNat w.toNat) } } :=
  (if_neg hcap.not_gt).trans (if_neg (by simpa using h))

theorem unpackRun_short (h : s.engArg.r3.toNat < packedBytes s.engArg.r2.toNat w.toNat) :
    unpackRun w s = complete .contractViolation s := if_pos h

theorem unpackRun_enough (h : packedBytes s.engArg.r2.toNat w.toNat ≤ s.engArg.r3.toNat) :
    unpackRun w s = complete .ok
      { s with
        wmem := Memory.writeRange s.wmem s.engArg.r1.toNat
          ((unpackBits w.toNat s.engArg.r2.toNat (Memory.readRange s.bmem s.engArg.r0.toNat
            (packedBytes s.engArg.r2.toNat w.toNat))).map tc16)
        res := { s.res with r0 := word (packedBytes s.engArg.r2.toNat w.toNat) } } :=
  if_neg h.not_gt

theorem compressRun_short (rb : Nat → List Int)
    (h : s.engArg.r3.toNat < bfpBytes s.engArg.r2.toNat w.toNat) :
    compressRun w rb s = complete .contractViolation s := if_pos h

theorem decompressRun_short (words : List Byte → List Sample)
    (h : s.engArg.r3.toNat < bfpBytes s.engArg.r2.toNat w.toNat) :
    decompressRun w words s = complete .contractViolation s := if_pos h

/-- The checks of a command that reads WMEM and writes BMEM (20_memory.md R87; 60_exceptions.md
R351). -/
theorem precheck_toStream {i : Instr} {src n dst cap : Nat}
    (hi : commandRegions i s = ⟨[⟨.w, src, n⟩], [⟨.b, dst, cap⟩], false⟩) (hw : i.wf = true)
    (hc : s.cfgOk = true) (hsrc : InRange s.params.wmemSize src n)
    (hdst : InRange s.params.bmemSize dst cap) : precheck i s = none :=
  precheck_pair hi hw hc hsrc hdst (.inl MemId.noConfusion)

/-- The checks of a command that reads BMEM and writes WMEM (20_memory.md R87; 60_exceptions.md
R351). -/
theorem precheck_fromStream {i : Instr} {src len dst n : Nat}
    (hi : commandRegions i s = ⟨[⟨.b, src, len⟩], [⟨.w, dst, n⟩], false⟩) (hw : i.wf = true)
    (hc : s.cfgOk = true) (hsrc : InRange s.params.bmemSize src len)
    (hdst : InRange s.params.wmemSize dst n) : precheck i s = none :=
  precheck_pair hi hw hc hsrc hdst (.inl MemId.noConfusion)

/-- A command that passes its checks ends as its run does. -/
theorem guarded_run_eq {i : Instr} {run : State → State} {t : State} (hp : precheck i s = none)
    (hrun : run s = t) : guarded i s run = .next t := by
  rw [guarded_run hp, hrun]

end

/-- Settles O37, by the two tests of PACK. -/
theorem packReportsContractViolations : Obligations.PackReportsContractViolations := by
  intro s w src n hw1 hw16 hc hsrc hdst hbad
  have hp := precheck_toStream (i := .pack w) rfl ((legalWidth_iff w).mpr ⟨hw1, hw16⟩) hc hsrc hdst
  refine guarded_run_eq hp ?_
  rcases hbad with hcap | ⟨k, hk, hout⟩
  · exact packRun_short hcap
  · refine packRun_unfit fun hall => ?_
    obtain ⟨hlo, hhi⟩ := (fits_iff _ _).mp (forall_mem_fixedSamples.mp hall k hk)
    rcases hout with h | h
    · exact absurd hlo h.not_ge
    · exact absurd hhi h.not_ge

/-- Settles O49: every one of the five tests its length or capacity first. -/
theorem shortBuffersAreContractViolations : Obligations.ShortBuffersAreContractViolations := by
  intro s w stop n hw1 hw16 hc
  have hw := (legalWidth_iff w).mpr ⟨hw1, hw16⟩
  refine ⟨fun hlen hsrc hdst => ?unpack, fun hlen => ⟨fun hsrc hdst => ⟨?bfpcI, ?bfpcF⟩,
    fun hsrc => ⟨fun hdst => ?bfpdF, fun hdst => ?bfpdRaw⟩⟩⟩
  case unpack => exact guarded_run_eq (precheck_fromStream rfl hw hc hsrc hdst) (unpackRun_short hlen)
  case bfpcI | bfpcF =>
    exact guarded_run_eq (precheck_toStream rfl hw hc hsrc hdst) (compressRun_short _ hlen)
  case bfpdF | bfpdRaw =>
    exact guarded_run_eq (precheck_fromStream rfl hw hc hsrc hdst) (decompressRun_short _ hlen)

/-! ### What PACK and UNPACK write -/

/-- The stream of bytes just written is theirs. -/
theorem streamBit_writeRange {m : Memory 8} (hm : Memory.wf m) (a : Nat) (bs : List Byte) {k : Nat}
    (hk : k < 8 * bs.length) :
    streamBit (Memory.writeRange m a bs) a k = (bs.getD (k / 8) 0#8).getLsbD (7 - k % 8) := by
  have hlt : k / 8 < bs.length := by omega
  rw [streamBit, Memory.read_writeRange_in hm a bs hlt, List.getD_eq_getElem _ _ hlt]

/-- The bits a value's word and its pattern of w bits share (41_bitpack.md R191). -/
theorem testBit_toInt_pattern (v : Sample) {w j : Nat} (hj : j < w) (hw : w ≤ 16) :
    (v.toInt % (2 ^ w : Nat)).toNat.testBit j = v.getLsbD j := by
  rw [testBit_pattern _ hj hw, tc16_toInt]

/-- Settles O36: the values fit, so PACK writes the bytes of their stream. -/
theorem packWritesTheBitStream : Obligations.PackWritesTheBitStream := by
  intro s w src dst n cap nb hw1 hw16 hc hwf hsrc hdst hcap hfit
  have hp := precheck_toStream (i := .pack w) rfl ((legalWidth_iff w).mpr ⟨hw1, hw16⟩) hc hsrc hdst
  have hfits : ∀ v ∈ fixedSamples s.wmem src n, fits v w.toNat = true :=
    forall_mem_fixedSamples.mpr fun k hk => (fits_iff _ _).mpr (hfit k hk)
  have hlen : (fixedSamples s.wmem src n).length = n := fixedSamples_length _ _ _
  have hbytes : (packBits w.toNat (fixedSamples s.wmem src n)).length = nb := by
    rw [packBits_length, hlen, packedBytes_eq]
  have hbit (k : Nat) (hk : k < 8 * nb) :=
    (streamBit_writeRange hwf dst _ (by rwa [hbytes])).trans
      (packBits_bit hw1 (fixedSamples s.wmem src n) (k := k) (by rwa [hlen, packedBytes_eq]))
  refine ⟨_, guarded_run_eq hp (packRun_fit hcap hfits), fun k hk => ?_, fun k hk hlt => ?_,
    fun a ha => Memory.read_writeRange_out _ _ _ (by rwa [hbytes])⟩
  · have hvalue : k / w.toNat < n := (Nat.div_lt_iff_lt_mul hw1).mpr hk
    have hmod := Nat.mod_lt k hw1
    rw [hbit k (hk.trans_le (packedBytes_bounds n _).1), hlen, if_pos hk,
      List.getD_eq_getElem _ _ (by rwa [hlen]), fixedSamples_getElem,
      testBit_toInt_pattern _ (by omega) hw16]
  · rw [hbit k hlt, hlen, if_neg hk.not_gt]

/-- Settles O38: the length is enough, so UNPACK writes the fields of the stream. -/
theorem unpackWritesSignExtendedFields : Obligations.UnpackWritesSignExtendedFields := by
  intro s w src dst n nb hw1 hw16 hc hwf hsrc hdst hlen
  have hp := precheck_fromStream (i := .unpack w) rfl ((legalWidth_iff w).mpr ⟨hw1, hw16⟩) hc hsrc
    hdst
  refine ⟨_, guarded_run_eq hp (unpackRun_enough hlen), fun i hi => ?_,
    fun a ha => Memory.read_writeRange_out _ _ _ (by simpa using ha)⟩
  have hfield := isField_unpackBits s.bmem src hw1 hi (packedBytes_bounds n w.toNat).1
  rw [List.getD_eq_getElem _ _ (by simpa using hi)] at hfield
  rwa [Memory.read_writeRange_in hwf _ _ (by simpa using hi), List.getElem_map]

end Sys2Proof.Machine
end

section
/-!
PROOFS. The tier of the active configuration is no input of a data command (42_bfp.md R236;
43_control.md R255): each command's run commutes with a change of it.
-/

namespace Sys2Proof.Machine

/-- `s` with another tier in the active configuration. -/
def withTier (u : Tier) (s : State) : State := { s with cfg := { s.cfg with tier := u } }

section
variable (u : Tier) (s : State)

theorem precheck_withTier (i : Instr) : precheck i (withTier u s) = precheck i s := rfl

/-- A data command commutes with the change when its run does: its checks do not read the tier. -/
theorem guarded_withTier {i : Instr} {run : State → State} {t : State}
    (hrun : run (withTier u s) = withTier u (run s)) (h : guarded i s run = .next t) :
    guarded i (withTier u s) run = .next (withTier u t) := by
  rcases guarded_cases i s run with ⟨k, hp, hg⟩ | ⟨hp, hg⟩ <;> rw [hg] at h <;> cases h
  · exact guarded_fail ((precheck_withTier u s i).trans hp)
  · exact guarded_run_eq ((precheck_withTier u s i).trans hp) hrun

theorem packRun_withTier (w : BitVec 5) : packRun w (withTier u s) = withTier u (packRun w s) := by
  simp only [packRun, apply_ite (withTier u)]
  rfl

theorem unpackRun_withTier (w : BitVec 5) :
    unpackRun w (withTier u s) = withTier u (unpackRun w s) := by
  simp only [unpackRun, apply_ite (withTier u)]
  rfl

theorem compressRun_withTier (w : BitVec 5) (rb : Nat → List Int) :
    compressRun w rb (withTier u s) = withTier u (compressRun w rb s) := by
  simp only [compressRun, apply_ite (withTier u)]
  rfl

theorem decompressRun_withTier (w : BitVec 5) (words : List Byte → List Sample) :
    decompressRun w words (withTier u s) = withTier u (decompressRun w words s) := by
  simp only [decompressRun, apply_ite (withTier u)]
  rfl

/-- The decoder reads the same message under either tier (44_decoder.md R296). -/
theorem decEnv_withTier_alike : DecEnv.Alike (decEnv s) (decEnv (withTier u s)) :=
  ⟨rfl, rfl, rfl, ⟨u, rfl⟩, fun _ _ => rfl⟩

theorem finishDecode_withTier (wk : DecWork) :
    finishDecode (withTier u s) wk = withTier u (finishDecode s wk) := by
  obtain ⟨state, cur, nsect, nsamp, trunc, sections⟩ := wk
  cases state with
  | rejected k off => rfl
  | _ =>
    simp only [finishDecode, apply_ite (withTier u)]
    rfl

theorem msgDecRun_withTier : msgDecRun (withTier u s) = withTier u (msgDecRun s) := by
  by_cases h : s.engArg.r1.toNat < 4
  · rw [msgDecRun, msgDecRun, if_pos h]
    exact if_pos h
  · have hdec : decodeMessage (decEnv (withTier u s)) = decodeMessage (decEnv s) :=
      decodeMessage_congr (decEnv_withTier_alike u s) (Nat.le_of_not_lt h)
    rw [msgDecRun, msgDecRun, if_neg h, ← finishDecode_withTier, ← hdec]
    exact if_neg h

/-- The fragmentation loop of a command starts alike and runs alike (42_bfp.md R236). -/
theorem encLoop_withTier (fuel : Nat) (w : BitVec 5) (meth : BitVec 4) :
    encLoop fuel (encEnv w meth (withTier u s)) (encStart (withTier u s)) =
      encLoop fuel (encEnv w meth s) (encStart s) :=
  encLoop_tier fuel (encEnv w meth s) u (encStart s)

theorem msgEncRun_withTier (w : BitVec 5) (meth : BitVec 4) :
    msgEncRun w meth (withTier u s) = withTier u (msgEncRun w meth s) := by
  simp only [msgEncRun, apply_ite (withTier u), encLoop_withTier]
  rfl

end

/-- Settles O14, command by command. -/
theorem tierChangesNoResult : Obligations.TierChangesNoResult := by
  intro i s t u hi h
  change exec i (withTier u s) = .next (withTier u t)
  cases i with
  | nop => cases h; rfl
  | init => exact absurd rfl hi
  | quant => exact guarded_withTier u s rfl h
  | dequant e8 => exact guarded_withTier u s rfl h
  | pack w => exact guarded_withTier u s (packRun_withTier u s w) h
  | unpack w => exact guarded_withTier u s (unpackRun_withTier u s w) h
  | bfpx w => exact guarded_withTier u s rfl h
  | bfpcI w => exact guarded_withTier u s (compressRun_withTier u s w _) h
  | bfpcF w => exact guarded_withTier u s (compressRun_withTier u s w _) h
  | bfpdF w => exact guarded_withTier u s (decompressRun_withTier u s w _) h
  | bfpdRaw w => exact guarded_withTier u s (decompressRun_withTier u s w _) h
  | prbSize w meth => exact guarded_withTier u s rfl h
  | msgDec => exact guarded_withTier u s (msgDecRun_withTier u s) h
  | msgEnc w meth => exact guarded_withTier u s (msgEncRun_withTier u s w meth) h

end Sys2Proof.Machine
end

section
/-!
PROOFS. The BFP arithmetic (42_bfp.md): the exponent as the least shift that makes a block fit and its
MAGNITUDE variant (R210 to R212), the loss of one compression (R216), and compressing again what was read
back (R239).
-/

namespace Sys2Proof.Machine

/-! ### The exponent -/

/-- `x` is a list of int16 values. -/
def Int16s (x : List Int) : Prop := ∀ v ∈ x, -32768 ≤ v ∧ v ≤ 32767

theorem maxSignedMagnitude_lt_iff (x : List Int) {n : Nat} (hn : 0 < n) :
    maxSignedMagnitude x < n ↔ ∀ v ∈ x, signedMagnitude v < n := by
  obtain ⟨hle, hmax⟩ := maxSignedMagnitude_spec x
  refine ⟨fun h v hv => (hle v hv).trans_lt h, fun h => ?_⟩
  rcases hmax with h0 | ⟨v, hv, hmax⟩
  · exact h0 ▸ hn
  · exact hmax ▸ h v hv

/-- An exponent makes every value fit exactly when it is at least the SIGNED one (42_bfp.md R210,
R241). -/
theorem forall_fits_asr_iff (x : List Int) (w e : Nat) :
    (∀ v ∈ x, fits (asr v e) w = true) ↔ exponentSigned x w ≤ e := by
  rw [exponentSigned_le_iff, maxSignedMagnitude_lt_iff x (by positivity)]
  exact forall₂_congr fun v _ => fits_asr_iff v w e

theorem fits_asr_cap {v : Int} {w : Nat} (hw : 1 ≤ w) (hw16 : w ≤ 16)
    (hv : -32768 ≤ v ∧ v ≤ 32767) : fits (asr v (16 - w)) w = true := by
  rw [fits_asr_iff, show w - 1 + (16 - w) = 15 by omega, signedMagnitude]
  split <;> omega

theorem exponentSigned_le_cap {x : List Int} {w : Nat} (hw : 1 ≤ w) (hw16 : w ≤ 16)
    (hx : Int16s x) : exponentSigned x w ≤ 16 - w :=
  (forall_fits_asr_iff x w _).mp fun v hv => fits_asr_cap hw hw16 (hx v hv)

theorem bitlen_mono {a b : Nat} (h : a ≤ b) : bitlen a ≤ bitlen b :=
  (bitlen_le_iff a _).mpr (h.trans_lt ((bitlen_le_iff b _).mp le_rfl))

theorem maxSignedMagnitude_le_maxMagnitude (x : List Int) :
    maxSignedMagnitude x ≤ maxMagnitude x := by
  obtain ⟨hle, -⟩ := maxMagnitude_spec x
  rcases (maxSignedMagnitude_spec x).2 with h0 | ⟨v, hv, hmax⟩
  · exact h0 ▸ Nat.zero_le _
  · exact hmax ▸ (signedMagnitude_le_natAbs v).trans (hle v hv)

/-- On int16 values the MAGNITUDE exponent is no smaller than the SIGNED one (42_bfp.md R212). -/
theorem exponentSigned_le_exponentMagnitude {x : List Int} {w : Nat} (hw : 1 ≤ w) (hw16 : w ≤ 16)
    (hx : Int16s x) : exponentSigned x w ≤ exponentMagnitude x w :=
  le_min (exponentSigned_le_cap hw hw16 hx)
    (Nat.sub_le_sub_right (bitlen_mono (maxSignedMagnitude_le_maxMagnitude x)) _)

/-- 42_bfp.md R212, for both rules. -/
theorem exponent_bounds (rule : ExpRule) {x : List Int} {w : Nat} (hw : 1 ≤ w) (hw16 : w ≤ 16)
    (hx : Int16s x) :
    exponent rule x w ≤ 16 - w ∧ ∀ v ∈ x, fits (asr v (exponent rule x w)) w = true := by
  rw [forall_fits_asr_iff]
  cases rule with
  | signed => exact ⟨exponentSigned_le_cap hw hw16 hx, le_rfl⟩
  | magnitude => exact ⟨min_le_left _ _, exponentSigned_le_exponentMagnitude hw hw16 hx⟩

/-- Settles O40, by the bounds of the exponent under each rule. -/
theorem exponentBoundsTheShiftedValues : Obligations.ExponentBoundsTheShiftedValues :=
  fun rule _ _ hw hw16 hx => ⟨by cases rule <;> rfl, exponent_bounds rule hw hw16 hx⟩

/-! ### The two rules side by side -/

/-- The largest magnitude of `x` is that of a −2^k alone (42_bfp.md R211). -/
def OnlyNegPow (x : List Int) (k : Nat) : Prop :=
  -(2 : Int) ^ k ∈ x ∧ ∀ v ∈ x, -(2 : Int) ^ k ≤ v ∧ v < 2 ^ k

theorem maxMagnitude_eq {x : List Int} {m : Nat} (hle : ∀ v ∈ x, -(m : Int) ≤ v ∧ v ≤ m)
    (hmem : (m : Int) ∈ x ∨ -(m : Int) ∈ x) : maxMagnitude x = m := by
  obtain ⟨hub, hmax⟩ := maxMagnitude_spec x
  refine le_antisymm ?_ ?_
  · rcases hmax with h0 | ⟨v, hv, hmax⟩
    · omega
    · have := hle v hv
      omega
  · rcases hmem with h | h
    · simpa using hub _ h
    · simpa using hub _ h

theorem signedMagnitude_lt_two_pow_iff (v : Int) (k : Nat) :
    signedMagnitude v < 2 ^ k ↔ -(2 : Int) ^ k ≤ v ∧ v < 2 ^ k := by
  have hp : ((2 ^ k : Nat) : Int) = 2 ^ k := Int.natCast_pow 2 k
  have hpos : 0 < 2 ^ k := by positivity
  rw [signedMagnitude, ← hp]
  split <;> omega

/-- A largest magnitude of −2^k alone has k digits as R210 counts them and k + 1 as R211 does. -/
theorem OnlyNegPow.bitlens {x : List Int} {k : Nat} (h : OnlyNegPow x k) :
    bitlen (maxSignedMagnitude x) = k ∧ bitlen (maxMagnitude x) = k + 1 := by
  obtain ⟨hmem, hall⟩ := h
  have hpos : 0 < 2 ^ k := by positivity
  have hp : ((2 ^ k : Nat) : Int) = 2 ^ k := Int.natCast_pow 2 k
  have hmax : maxMagnitude x = 2 ^ k := by
    refine maxMagnitude_eq (fun v hv => ?_) (.inr (hp ▸ hmem))
    rw [hp]
    exact ⟨(hall v hv).1, (hall v hv).2.le⟩
  have hlt : maxSignedMagnitude x < 2 ^ k := (maxSignedMagnitude_lt_iff x hpos).mpr fun v hv =>
    (signedMagnitude_lt_two_pow_iff v k).mpr (hall v hv)
  have hge : 2 ^ k - 1 ≤ maxSignedMagnitude x := by
    have := (maxSignedMagnitude_spec x).1 _ hmem
    rw [signedMagnitude, ← hp, if_neg (by omega)] at this
    omega
  refine ⟨bitlen_eq hlt ?_, hmax ▸ bitlen_eq (Nat.pow_lt_pow_right one_lt_two k.lt_succ_self)
    (.inr le_rfl)⟩
  cases k with
  | zero => exact .inl rfl
  | succ k =>
    rw [pow_succ] at hge
    have : 0 < 2 ^ k := by positivity
    exact .inr (by rw [Nat.add_sub_cancel]; omega)

/-- The two rules count the digits of a block alike, but for a largest magnitude of −2^k alone. -/
theorem bitlen_maxMagnitude_cases (x : List Int) :
    bitlen (maxMagnitude x) = bitlen (maxSignedMagnitude x) ∨
      OnlyNegPow x (bitlen (maxSignedMagnitude x)) := by
  have hlt := (bitlen_le_iff (maxSignedMagnitude x) _).mp le_rfl
  generalize hk : bitlen (maxSignedMagnitude x) = k at hlt ⊢
  have hall : ∀ v ∈ x, -(2 : Int) ^ k ≤ v ∧ v < 2 ^ k := fun v hv =>
    (signedMagnitude_lt_two_pow_iff v k).mp
      ((maxSignedMagnitude_lt_iff x (by positivity)).mp hlt v hv)
  by_cases hmem : -(2 : Int) ^ k ∈ x
  · exact .inr ⟨hmem, hall⟩
  · refine .inl (le_antisymm ((bitlen_le_iff _ _).mpr ?_)
      (hk ▸ bitlen_mono (maxSignedMagnitude_le_maxMagnitude x)))
    rcases (maxMagnitude_spec x).2 with h0 | ⟨v, hv, hmax⟩
    · rw [h0]; positivity
    · have hp : ((2 ^ k : Nat) : Int) = 2 ^ k := Int.natCast_pow 2 k
      have hne : v ≠ -(2 : Int) ^ k := fun h => hmem (h ▸ hv)
      have := hall v hv
      rw [← hp] at this hne
      omega

/-- Settles O41: the SIGNED exponent is the least that makes the block fit; the digits of the largest
magnitude under the two rules give the rest. -/
theorem signedExponentIsMinimal : Obligations.SignedExponentIsMinimal := by
  intro x w hw hw16
  refine ⟨(forall_fits_asr_iff x w _).mpr le_rfl, fun e he => ?minimal,
    fun m b hle hmem hlt hge => ?formula, fun hx => ⟨?larger, fun hno => ?equal⟩⟩
  case minimal =>
    by_contra! hfit
    exact he.not_ge ((forall_fits_asr_iff x w e).mp fun v hv => by simpa using hfit v hv)
  case formula => rw [exponentMagnitude, maxMagnitude_eq hle hmem, bitlen_eq hlt hge]
  case larger =>
    rintro ⟨k, hwk, hk, hneg⟩
    obtain ⟨hs, hm⟩ := OnlyNegPow.bitlens hneg
    rw [exponentMagnitude, exponentSigned, hs, hm]
    omega
  case equal =>
    have hcap := exponentSigned_le_cap hw hw16 hx
    rw [exponentMagnitude, exponentSigned] at *
    rcases bitlen_maxMagnitude_cases x with h | h
    · rw [h, min_eq_right hcap]
    · obtain ⟨-, hm⟩ := h.bitlens
      have hout : ¬ (w - 1 ≤ bitlen (maxSignedMagnitude x) ∧ bitlen (maxSignedMagnitude x) < 15) :=
        fun hk => hno ⟨_, hk.1, hk.2, h⟩
      omega

/-! ### One block read back -/

/-- The integer reconstruction of a block under exponent `e` (42_bfp.md R216). -/
def reconstruct (x : List Int) (e : Nat) : List Int := x.map fun v => asr v e * 2 ^ e

section
variable {rule : ExpRule} {x : List Int} {w : Nat}

/-- The exponent byte of a compressed block holds its exponent (42_bfp.md R213, R214). -/
theorem rbExponent_compressRb (hw : 1 ≤ w) (hw16 : w ≤ 16) (hx : Int16s x) :
    rbExponent (compressRb rule x w) = exponent rule x w := by
  have := (exponent_bounds rule hw hw16 hx).1
  exact Nat.mod_eq_of_lt (by omega)

/-- The mantissas of a compressed block are its shifted values (42_bfp.md R213, R214). -/
theorem rbMantissas_compressRb (hw : 1 ≤ w) (hw16 : w ≤ 16) (hlen : x.length = 24)
    (hx : Int16s x) :
    rbMantissas (compressRb rule x w) w = x.map fun v => asr v (exponent rule x w) := by
  have hfits : ∀ m ∈ x.map (fun v => asr v (exponent rule x w)), fits m w = true := by
    simpa using (exponent_bounds rule hw hw16 hx).2
  have := unpackBits_packBits hw hfits
  rwa [List.length_map, hlen] at this

theorem map_rbMantissas_compressRb (hw : 1 ≤ w) (hw16 : w ≤ 16) (hlen : x.length = 24)
    (hx : Int16s x) :
    (rbMantissas (compressRb rule x w) w).map (fun m => m * 2 ^ rbExponent (compressRb rule x w)) =
      reconstruct x (exponent rule x w) := by
  rw [rbMantissas_compressRb hw hw16 hlen hx, rbExponent_compressRb hw hw16 hx, List.map_map]
  rfl

end

/-- A reconstruction stays an int16 value: −2^15 is a multiple of the step (42_bfp.md R216). -/
theorem asr_mul_int16 {v : Int} {e : Nat} (he : e ≤ 15) (hv : -32768 ≤ v ∧ v ≤ 32767) :
    -32768 ≤ asr v e * 2 ^ e ∧ asr v e * 2 ^ e ≤ 32767 := by
  have hpos : (0 : Int) < ((2 ^ e : Nat) : Int) := by positivity
  have h15 : (2 : Int) ^ (15 - e) * 2 ^ e = 32768 := by
    rw [← pow_add, Nat.sub_add_cancel he]; norm_num
  have hle : -(2 : Int) ^ (15 - e) ≤ asr v e := by
    rw [asr, Int.le_ediv_iff_mul_le hpos, neg_mul]
    push_cast
    omega
  have hup := (asr_mul_bounds v e).2
  push_cast at hup
  refine ⟨?_, hup.trans hv.2⟩
  calc (-32768 : Int) = -(2 : Int) ^ (15 - e) * 2 ^ e := by rw [neg_mul, h15]
    _ ≤ asr v e * 2 ^ e := Int.mul_le_mul_of_nonneg_right hle (by positivity)

/-- Settles O42, value by value. -/
theorem reconstructionLosesLessThanOneStep : Obligations.ReconstructionLosesLessThanOneStep := by
  intro rule x w hw hw16 hlen hx e m
  have he : e = exponent rule x w := rbExponent_compressRb hw hw16 hx
  have hm : m = x.map fun v => asr v e := he ▸ rbMantissas_compressRb hw hw16 hlen hx
  have hcap : e ≤ 16 - w := he ▸ (exponent_bounds rule hw hw16 hx).1
  refine ⟨he, rbMantissas_length _ _, fun k hk => ?_⟩
  intro y
  have hkx : k < x.length := hlen ▸ hk
  have hy : y = asr (x.getD k 0) e * 2 ^ e := by
    simp only [y, hm]
    rw [List.getD_eq_getElem _ _ (by simpa using hkx), List.getElem_map,
      List.getD_eq_getElem _ _ hkx]
  have hv : -32768 ≤ x.getD k 0 ∧ x.getD k 0 ≤ 32767 := by
    rw [List.getD_eq_getElem _ _ hkx]
    exact hx _ (List.getElem_mem hkx)
  have hstep := asr_mul_bounds (x.getD k 0) e
  push_cast at hstep
  rw [hy]
  exact ⟨rfl, by simpa using hstep.1, hstep.2, asr_mul_int16 (by omega) hv⟩

/-! ### Compressing a reconstruction -/

theorem asr_succ (v : Int) (e : Nat) : asr v (e + 1) = asr v e / 2 := by
  rw [asr, asr, pow_succ, Nat.cast_mul, Int.ediv_ediv_of_nonneg (by positivity)]
  rfl

/-- Shifting a multiple of 2^e by no more than e is exact. -/
theorem asr_mul_two_pow (m : Int) {d e : Nat} (h : d ≤ e) :
    asr (m * 2 ^ e) d = m * 2 ^ (e - d) := by
  obtain ⟨k, rfl⟩ := Nat.exists_eq_add_of_le h
  rw [asr, pow_add, mul_left_comm, Nat.add_sub_cancel_left]
  push_cast
  exact Int.mul_ediv_cancel_left _ (by positivity)

theorem reconstruct_int16 {x : List Int} {e : Nat} (he : e ≤ 15) (hx : Int16s x) :
    Int16s (reconstruct x e) := by
  intro y hy
  obtain ⟨v, hv, rfl⟩ := List.mem_map.mp hy
  exact asr_mul_int16 he (hx v hv)

/-- A reconstruction needs no larger exponent. -/
theorem exponentSigned_reconstruct_le {x : List Int} {w e : Nat} (he : exponentSigned x w ≤ e) :
    exponentSigned (reconstruct x e) w ≤ e := by
  refine (forall_fits_asr_iff _ w e).mp fun y hy => ?_
  obtain ⟨v, hv, rfl⟩ := List.mem_map.mp hy
  rw [asr_mul_two_pow _ le_rfl, Nat.sub_self, pow_zero, mul_one]
  exact (forall_fits_asr_iff x w e).mpr he v hv

/-- A reconstruction under an exponent that is no larger is itself: no bit is left to lose. -/
theorem reconstruct_reconstruct (x : List Int) {d e : Nat} (h : d ≤ e) :
    reconstruct (reconstruct x e) d = reconstruct x e := by
  rw [reconstruct, reconstruct, List.map_map]
  refine List.map_congr_left fun v _ => ?_
  rw [Function.comp_apply, asr_mul_two_pow _ h, mul_assoc, ← pow_add, Nat.sub_add_cancel h]

/-- Twice the half of a value fits w ≥ 2 bits only if the value does: the range has even ends. -/
theorem fits_of_fits_two_mul_half {a : Int} {w : Nat} (hw : 2 ≤ w)
    (h : fits (a / 2 * 2) w = true) : fits a w = true := by
  obtain ⟨k, rfl⟩ := Nat.exists_eq_add_of_le' hw
  rw [fits_iff, show k + 2 - 1 = k + 1 from rfl, pow_succ] at *
  omega

/-- The value 0 alone has a reconstruction that fits width 1 under a smaller exponent. -/
theorem eq_zero_of_fits_two_mul {m : Int} (h : fits (m * 2) 1 = true) : m = 0 := by
  rw [fits_iff] at h
  norm_num at h
  omega

/-- A block shifted to zeros is reconstructed as one that needs no shift. -/
theorem exponentSigned_reconstruct_zero {x : List Int} {w e : Nat}
    (hzero : ∀ v ∈ x, asr v e = 0) : exponentSigned (reconstruct x e) w = 0 := by
  refine Nat.le_zero.mp ((forall_fits_asr_iff _ w 0).mp fun y hy => ?_)
  obtain ⟨v, hv, rfl⟩ := List.mem_map.mp hy
  rw [hzero v hv, zero_mul, fits_asr_iff]
  exact Nat.two_pow_pos _

/-- A reconstruction that needs a smaller exponent is all zeros, at width 1: at every other width
the bit that shows the exponent survives (42_bfp.md R239). -/
theorem eq_zero_of_exponentSigned_reconstruct_lt {x : List Int} {w : Nat} (hw : 1 ≤ w)
    (h : exponentSigned (reconstruct x (exponentSigned x w)) w < exponentSigned x w) :
    w = 1 ∧ ∀ v ∈ x, asr v (exponentSigned x w) = 0 := by
  generalize he : exponentSigned x w = e at *
  obtain ⟨d, rfl⟩ := Nat.exists_eq_add_one_of_ne_zero (Nat.ne_zero_of_lt h)
  have hfit : ∀ v ∈ x, fits (asr v (d + 1) * 2) w = true := fun v hv => by
    have := (forall_fits_asr_iff _ w d).mpr (Nat.le_of_lt_succ h) _ (List.mem_map_of_mem hv)
    rwa [asr_mul_two_pow _ d.le_succ, Nat.succ_sub le_rfl, Nat.sub_self] at this
  have hw1 : w = 1 := by
    by_contra hne
    have hle : exponentSigned x w ≤ d := (forall_fits_asr_iff x w d).mp fun v hv =>
      fits_of_fits_two_mul_half (by omega) (asr_succ v d ▸ hfit v hv)
    omega
  exact ⟨hw1, fun v hv => eq_zero_of_fits_two_mul (hw1 ▸ hfit v hv)⟩

/-- The bytes of a reconstruction under its old exponent. -/
theorem compressRb_reconstruct_of_eq {x : List Int} {w : Nat}
    (h : exponentSigned (reconstruct x (exponentSigned x w)) w = exponentSigned x w) :
    compressRb .signed (reconstruct x (exponentSigned x w)) w = compressRb .signed x w := by
  have hm : (reconstruct x (exponentSigned x w)).map (fun v => asr v (exponentSigned x w)) =
      x.map fun v => asr v (exponentSigned x w) := by
    rw [reconstruct, List.map_map]
    refine List.map_congr_left fun v _ => ?_
    rw [Function.comp_apply, asr_mul_two_pow _ le_rfl, Nat.sub_self, pow_zero, mul_one]
  rw [compressRb, compressRb, exponent, h, hm]
  rfl

/-- The bytes of a reconstruction that is all zeros. -/
theorem compressRb_reconstruct_of_zero {x : List Int} {w : Nat}
    (hzero : ∀ v ∈ x, asr v (exponentSigned x w) = 0) :
    compressRb .signed (reconstruct x (exponentSigned x w)) w =
      0#8 :: (compressRb .signed x w).tail := by
  have hm : (reconstruct x (exponentSigned x w)).map (fun v => asr v 0) =
      x.map fun v => asr v (exponentSigned x w) := by
    rw [reconstruct, List.map_map]
    refine List.map_congr_left fun v hv => ?_
    rw [Function.comp_apply, hzero v hv, zero_mul]
    rfl
  rw [compressRb, exponent, exponentSigned_reconstruct_zero hzero, hm]
  rfl

/-- The byte law of a second compression (42_bfp.md R239). -/
theorem compressRb_reconstruct {x : List Int} {w : Nat} (hw : 1 ≤ w) :
    compressRb .signed (reconstruct x (exponentSigned x w)) w =
      if w = 1 ∧ 0 < exponentSigned x w ∧ ∀ v ∈ x, asr v (exponentSigned x w) = 0 then
        0#8 :: (compressRb .signed x w).tail
      else compressRb .signed x w := by
  split
  · rename_i h
    exact compressRb_reconstruct_of_zero h.2.2
  · rename_i h
    refine compressRb_reconstruct_of_eq (le_antisymm (exponentSigned_reconstruct_le le_rfl) ?_)
    by_contra! hlt
    obtain ⟨hw1, hzero⟩ := eq_zero_of_exponentSigned_reconstruct_lt hw hlt
    exact h ⟨hw1, (Nat.zero_le _).trans_lt hlt, hzero⟩

/-- The block of R239 whose MAGNITUDE round trip is not idempotent. -/
def magnitudeExample : List Int := -255 :: 3 :: List.replicate 22 0

theorem magnitudeExample_int16 : Int16s magnitudeExample := by unfold Int16s; decide

/-- The example's first exponent is 1, its reconstruction's is 2, and the second shift loses the 2. -/
theorem magnitudeExample_roundTrip :
    let b := compressRb .magnitude magnitudeExample 8
    let y := (rbMantissas b 8).map (fun m => m * 2 ^ rbExponent b)
    let b' := compressRb .magnitude y 8
    y.take 2 = [-256, 2] ∧ rbExponent b' = 2 ∧ (rbMantissas b' 8).take 2 = [-64, 0] ∧
      (rbMantissas b' 8).map (fun m => m * 2 ^ rbExponent b') ≠ y := by
  intro b y b'
  have hy : y = reconstruct magnitudeExample 1 :=
    map_rbMantissas_compressRb (by decide) (by decide) rfl magnitudeExample_int16
  have hb' : b' = compressRb .magnitude (reconstruct magnitudeExample 1) 8 := by rw [← hy]
  have hx := reconstruct_int16 (e := 1) (by decide) magnitudeExample_int16
  rw [hb', map_rbMantissas_compressRb (by decide) (by decide) rfl hx,
    rbExponent_compressRb (by decide) (by decide) hx,
    rbMantissas_compressRb (by decide) (by decide) rfl hx, hy]
  decide

/-- Settles O43: what is read back is a reconstruction, whose exponent is no larger. -/
theorem compressionIsIdempotent : Obligations.CompressionIsIdempotent := by
  refine ⟨fun x w hw hw16 hlen hx => ?_, by decide, magnitudeExample_roundTrip⟩
  intro b y b'
  have hy : y = reconstruct x (exponentSigned x w) := map_rbMantissas_compressRb hw hw16 hlen hx
  have hexp : rbExponent b = exponentSigned x w := rbExponent_compressRb hw hw16 hx
  have hmant : rbMantissas b w = x.map fun v => asr v (exponentSigned x w) :=
    rbMantissas_compressRb hw hw16 hlen hx
  have hcap := exponentSigned_le_cap hw hw16 hx
  have hb' : b' = compressRb .signed (reconstruct x (exponentSigned x w)) w := by rw [← hy]
  constructor
  · rw [hb', map_rbMantissas_compressRb hw hw16 (by rwa [reconstruct, List.length_map])
      (reconstruct_int16 (by omega) hx), hy]
    exact reconstruct_reconstruct x (exponentSigned_reconstruct_le le_rfl)
  · rw [hb', compressRb_reconstruct hw, hexp, hmant]
    simp only [List.forall_mem_map]
    rfl

end Sys2Proof.Machine
end

section
/-!
PROOFS. The BFP commands (42_bfp.md R218 to R222): where each block's bytes or words stand in what a
command writes, the streams of compressed blocks, and the words read back from them.
-/

namespace Sys2Proof.Machine

/-! ### Blocks in memory -/

/-- Element i of block r of n blocks just written. -/
theorem read_writeRange_blocks {w : Nat} {m : Memory w} (hm : Memory.wf m) (a : Nat) {n size : Nat}
    {f : Nat → List (BitVec w)} (hf : ∀ k, k < n → (f k).length = size) {r i : Nat} (hr : r < n)
    (hi : i < size) :
    Memory.read (Memory.writeRange m a ((List.range n).flatMap f)) (a + (r * size + i)) =
      (f r).getD i 0#w := by
  have hget := flatMap_range_getElem? n size f hf hr hi
  rw [List.getElem?_eq_getElem (l := f r) (by rwa [hf r hr])] at hget
  obtain ⟨hlt, heq⟩ := List.getElem?_eq_some_iff.mp hget
  rw [Memory.read_writeRange_in hm a _ hlt, heq, List.getD_eq_getElem]

/-- An address outside the n blocks written keeps its contents. -/
theorem read_writeRange_blocks_out {w : Nat} (m : Memory w) {a n size : Nat}
    {f : Nat → List (BitVec w)} (hf : ∀ k, k < n → (f k).length = size) {x : Nat}
    (hx : x < a ∨ a + n * size ≤ x) :
    Memory.read (Memory.writeRange m a ((List.range n).flatMap f)) x = Memory.read m x :=
  Memory.read_writeRange_out m a _ (by rwa [flatMap_range_length n size f hf])

/-- The 24 values of a block of words (00_scope.md R18). -/
def blockInts (value : Nat → Sample) : List Int := (List.range 24).map fun i => (value i).toInt

@[simp] theorem blockInts_length (value : Nat → Sample) : (blockInts value).length = 24 := by
  simp [blockInts]

theorem toInt_int16 (v : Sample) : -32768 ≤ v.toInt ∧ v.toInt ≤ 32767 :=
  ⟨BitVec.le_toInt v, Int.le_of_lt_add_one (BitVec.toInt_lt (x := v))⟩

theorem blockInts_int16 (value : Nat → Sample) : Int16s (blockInts value) := by
  intro x hx
  obtain ⟨i, -, rfl⟩ := List.mem_map.mp hx
  exact toInt_int16 _

/-- The fixed samples of a block are the integers of its words (42_bfp.md R218, R219). -/
theorem fixedRb_eq (m : Memory 16) (src r : Nat) :
    fixedRb m src r = blockInts fun i => Memory.read m (src + 24 * r + i) :=
  List.map_map

/-! ### Compression -/

section
variable {rule : ExpRule} {w : Nat}

/-- The exponent of a block of words, at most 16 − w (42_bfp.md R212). -/
theorem exponent_blockInts_le (hw : 1 ≤ w) (hw16 : w ≤ 16) (value : Nat → Sample) :
    exponent rule (blockInts value) w ≤ 16 - w :=
  (exponent_bounds rule hw hw16 (blockInts_int16 value)).1

/-- Stream bit k of a compressed block of words: a bit of the word shifted by the exponent
(42_bfp.md R213, 41_bitpack.md R191). -/
theorem compressRb_bit (hw : 1 ≤ w) (hw16 : w ≤ 16) (value : Nat → Sample) {k : Nat}
    (hk : k < 24 * w) :
    ((compressRb rule (blockInts value) w).getD (1 + k / 8) 0#8).getLsbD (7 - k % 8) =
      ((value (k / w)).sshiftRight (exponent rule (blockInts value) w)).getLsbD (w - 1 - k % w) := by
  have hi : k / w < 24 := (Nat.div_lt_iff_lt_mul hw).mpr hk
  have hj := Nat.mod_lt k hw
  generalize he : exponent rule (blockInts value) w = e
  have hlen : ((blockInts value).map fun v => asr v e).length = 24 := by simp
  have hvalue : ((blockInts value).map fun v => asr v e).getD (k / w) 0 =
      asr (value (k / w)).toInt e := by
    rw [List.getD_eq_getElem _ _ (by rwa [hlen])]
    simp [blockInts]
  rw [compressRb, he, Nat.add_comm 1, List.getD_cons_succ,
    packBits_bit hw _ (by rw [hlen, packedBytes_block]; omega), hlen, if_pos hk, hvalue,
    testBit_pattern _ (by omega) hw16, tc16_asr]

end

section
variable {w : BitVec 5} {s : State}

theorem compressRun_enough (rb : Nat → List Int)
    (h : bfpBytes s.engArg.r2.toNat w.toNat ≤ s.engArg.r3.toNat) :
    compressRun w rb s = complete .ok
      { s with
        bmem := Memory.writeRange s.bmem s.engArg.r1.toNat
          ((List.range s.engArg.r2.toNat).flatMap
            (fun k => compressRb s.params.expRule (rb k) w.toNat))
        res := { s.res with r0 := word (bfpBytes s.engArg.r2.toNat w.toNat) } } :=
  if_neg h.not_gt

theorem decompressRun_enough (words : List Byte → List Sample)
    (h : bfpBytes s.engArg.r2.toNat w.toNat ≤ s.engArg.r3.toNat) :
    decompressRun w words s = complete .ok
      { s with
        wmem := Memory.writeRange s.wmem s.engArg.r1.toNat
          ((List.range s.engArg.r2.toNat).flatMap
            (fun k => words (compressedRb s.bmem s.engArg.r0.toNat w.toNat k)))
        res := { s.res with r0 := word (bfpBytes s.engArg.r2.toNat w.toNat) } } :=
  if_neg h.not_gt

end

/-- What n compressed blocks of words leave in BMEM: each exponent byte, each stream, and every other
byte (42_bfp.md R213, R219, R220). -/
theorem writeRange_compressRb {m : Memory 8} (hm : Memory.wf m) {rule : ExpRule} {w : Nat}
    (hw : 1 ≤ w) (hw16 : w ≤ 16) (dst n : Nat) (value : Nat → Nat → Sample) :
    let m' := Memory.writeRange m dst
      ((List.range n).flatMap fun r => compressRb rule (blockInts (value r)) w)
    let exp := fun r => exponent rule (blockInts (value r)) w
    (∀ r, r < n → (Memory.read m' (dst + r * (1 + 3 * w))).toNat = exp r ∧
      ∀ k, k < 24 * w → streamBit m' (dst + r * (1 + 3 * w) + 1) k =
        ((value r (k / w)).sshiftRight (exp r)).getLsbD (w - 1 - k % w)) ∧
    ∀ a, a < dst ∨ dst + n * (1 + 3 * w) ≤ a → Memory.read m' a = Memory.read m a := by
  intro m' exp
  have hsize (r : Nat) (_ : r < n) :
      (compressRb rule (blockInts (value r)) w).length = 1 + 3 * w := by simp
  refine ⟨fun r hr => ⟨?_, fun k hk => ?_⟩, fun a => read_writeRange_blocks_out m hsize⟩
  · have hexp := exponent_blockInts_le (rule := rule) hw hw16 (value r)
    have hread := read_writeRange_blocks hm dst hsize hr (i := 0) (by omega)
    rw [Nat.add_zero] at hread
    rw [hread]
    exact Nat.mod_eq_of_lt (by omega)
  · have hread := read_writeRange_blocks hm dst hsize hr (i := 1 + k / 8) (by omega)
    rw [streamBit, Nat.add_assoc, Nat.add_assoc, hread, compressRb_bit hw hw16 _ hk]

/-- Settles O44, each exponent word in its place. -/
theorem bfpxWritesExponents : Obligations.BfpxWritesExponents := by
  intro s w src dst n hw1 hw16 hc hwf hsrc hdst hapart
  have hp : precheck (.bfpx w) s = none :=
    precheck_pair rfl ((legalWidth_iff w).mpr ⟨hw1, hw16⟩) hc hsrc hdst (.inr (.inr hapart))
  refine ⟨_, guarded_run hp, fun r hr => ?_,
    fun a ha => Memory.read_writeRange_out _ _ _ (by simpa using ha)⟩
  have hexp : exponent s.params.expRule (fixedRb s.wmem src r) w.toNat ≤ 16 - w.toNat :=
    fixedRb_eq s.wmem src r ▸ exponent_blockInts_le hw1 hw16 _
  rw [Memory.read_writeRange_in hwf _ _ (by simpa using hr), List.getElem_map, List.getElem_range,
    BitVec.toNat_ofNat, Nat.mod_eq_of_lt (hexp.trans_lt (by omega)), fixedRb_eq]
  rfl

/-- Settles O45: the blocks are the words of WMEM. -/
theorem bfpcIWritesCompressedBlocks : Obligations.BfpcIWritesCompressedBlocks := by
  intro s w src dst n size value exp hw1 hw16 hc hwf hsrc hdst hcap
  have hp := precheck_toStream (i := .bfpcI w) rfl ((legalWidth_iff w).mpr ⟨hw1, hw16⟩) hc hsrc hdst
  have hrb : fixedRb s.wmem src = fun r => blockInts (value r) := funext (fixedRb_eq s.wmem src)
  refine ⟨_, guarded_run_eq hp (compressRun_enough _ hcap), ?_⟩
  rw [hrb]
  exact writeRange_compressRb hwf hw1 hw16 dst n value

/-- A quantized sample is an int16 value (40_quantizer.md R165). -/
theorem quantize_int16 (s : State) (x : Sample) :
    -32768 ≤ quantize s x ∧ quantize s x ≤ 32767 := by
  unfold quantize
  cases fdecScale s.cfg.scale with
  | nan | inf => exact toInt_int16 _
  | finite cn ce =>
    cases fdecSample s.params.floatFmt x with
    | nan => exact toInt_int16 0#16
    | inf negative =>
      rw [toFixed_inf]
      split
      · decide
      · split <;> decide
    | finite xn xe =>
      obtain ⟨hhi, hlo, -⟩ := toFixed_finite xn xe cn ce
      exact ⟨hlo, hhi⟩

/-- The quantized samples of a block are the integers of their words (42_bfp.md R220). -/
theorem quantizedRb_eq (s : State) (src r : Nat) :
    quantizedRb s src r =
      blockInts fun i => tc16 (quantize s (Memory.read s.wmem (src + 24 * r + i))) := by
  refine List.map_map.trans (List.map_congr_left fun i _ => ?_)
  obtain ⟨hlo, hhi⟩ := quantize_int16 s (Memory.read s.wmem (src + 24 * r + i))
  exact (toInt_tc16 hlo hhi).symm

/-- Settles O46: the blocks are the quantized samples. -/
theorem bfpcFWritesCompressedBlocks : Obligations.BfpcFWritesCompressedBlocks := by
  intro s w src dst n size value exp hw1 hw16 hc hwf hsrc hdst hcap
  have hp := precheck_toStream (i := .bfpcF w) rfl ((legalWidth_iff w).mpr ⟨hw1, hw16⟩) hc hsrc hdst
  have hrb : quantizedRb s src = fun r => blockInts (value r) := funext (quantizedRb_eq s src)
  refine ⟨_, guarded_run_eq hp (compressRun_enough _ hcap), ?_⟩
  rw [hrb]
  exact writeRange_compressRb hwf hw1 hw16 dst n value

/-! ### Decompression -/

/-- Sign extension is that of the field as a word of w bits (41_bitpack.md R192). -/
theorem sext_eq_toInt {w u : Nat} (hw : 1 ≤ w) (hu : u < 2 ^ w) :
    sext w u = (BitVec.ofNat w u).toInt := by
  rw [BitVec.toInt_eq_msb_cond, BitVec.msb_eq_getLsbD_last, BitVec.getLsbD_ofNat, sext,
    BitVec.toNat_ofNat, Nat.mod_eq_of_lt hu, decide_eq_true (show w - 1 < w by omega),
    Bool.true_and]

/-- A word holds every sign-extended field of up to 16 bits. -/
theorem toInt_tc16_sext {w u : Nat} (hw : 1 ≤ w) (hw16 : w ≤ 16) (hu : u < 2 ^ w) :
    (tc16 (sext w u)).toInt = sext w u := by
  rw [sext_eq_toInt hw hu]
  exact BitVec.toInt_signExtend_of_le hw16

theorem mem_readFields {w n : Nat} {bits : List Bool} {m : Int} (h : m ∈ readFields w n bits) :
    ∃ u, u < 2 ^ w ∧ m = sext w u := by
  induction n generalizing bits with
  | zero => cases h
  | succ n ih =>
    rcases List.mem_cons.mp h with rfl | h
    · exact ⟨_, (bitsToNat_lt _).trans_le
        (Nat.pow_le_pow_right two_pos (List.length_take_le w bits)), rfl⟩
    · exact ih h

/-- A word holds every mantissa of a block (42_bfp.md R214). -/
theorem toInt_tc16_mantissa {w : Nat} (hw : 1 ≤ w) (hw16 : w ≤ 16) {b : List Byte} {m : Int}
    (h : m ∈ rbMantissas b w) : (tc16 m).toInt = m := by
  obtain ⟨u, hu, rfl⟩ := mem_readFields h
  exact toInt_tc16_sext hw hw16 hu

theorem Memory.readRange_succ {w : Nat} (m : Memory w) (a n : Nat) :
    Memory.readRange m a (n + 1) = Memory.read m a :: Memory.readRange m (a + 1) n := by
  rw [Memory.readRange, List.range_succ_eq_map, List.map_cons, List.map_map, Memory.readRange]
  refine congrArg (_ :: ·) (List.map_congr_left fun k _ => ?_)
  rw [Function.comp_apply, Nat.succ_eq_add_one, Nat.add_right_comm, Nat.add_assoc]

/-- A block in memory is its exponent byte and its stream (42_bfp.md R214). -/
theorem compressedRb_eq (m : Memory 8) (src w r : Nat) :
    compressedRb m src w r = Memory.read m (src + r * (1 + 3 * w)) ::
      Memory.readRange m (src + r * (1 + 3 * w) + 1) (3 * w) := by
  rw [compressedRb, rbBytes, Nat.add_comm 1, Memory.readRange_succ]

theorem rbExponent_compressedRb (m : Memory 8) (src w r : Nat) :
    rbExponent (compressedRb m src w r) = (Memory.read m (src + r * (1 + 3 * w))).toNat := by
  rw [compressedRb_eq]
  rfl

/-- The word of mantissa i of a block in memory is field i of its stream (42_bfp.md R214). -/
theorem isField_rbMantissas (m : Memory 8) (src r : Nat) {w i : Nat} (hw : 1 ≤ w)
    (hi : i < (rbMantissas (compressedRb m src w r) w).length) :
    IsField m (src + r * (1 + 3 * w) + 1) w i
      (tc16 (rbMantissas (compressedRb m src w r) w)[i]) := by
  have hfield := isField_unpackBits m (src + r * (1 + 3 * w) + 1) (n := 24) (nb := 3 * w) hw
    (by simpa using hi) (by omega)
  rw [← List.getD_eq_getElem _ 0 hi, compressedRb_eq]
  exact hfield

/-- Settles O47: the mantissa is the only word that is field i of the block. -/
theorem bfpdFWritesFloatSamples : Obligations.BfpdFWritesFloatSamples := by
  intro s w src dst n size hw1 hw16 hc hwf hsrc hdst hlen
  have hp := precheck_fromStream (i := .bfpdF w) rfl ((legalWidth_iff w).mpr ⟨hw1, hw16⟩) hc hsrc hdst
  have hblock (k : Nat) (_ : k < n) : (decompressRbFloat s.params.floatFmt
      (compressedRb s.bmem src w.toNat k) w.toNat).length = 24 := decompressRbFloat_length _ _ _
  refine ⟨_, guarded_run_eq hp (decompressRun_enough _ hlen), fun r i v hr hi hv => ?_,
    fun a ha => read_writeRange_blocks_out _ hblock (by omega)⟩
  have hi' : i < (rbMantissas (compressedRb s.bmem src w.toNat r) w.toNat).length := by simpa using hi
  rw [show dst + 24 * r + i = dst + (r * 24 + i) by omega,
    read_writeRange_blocks hwf dst hblock hr hi, List.getD_eq_getElem _ _ (by simpa using hi),
    hv.unique (isField_rbMantissas s.bmem src r hw1 hi'),
    toInt_tc16_mantissa hw1 hw16 (List.getElem_mem hi'), ← rbExponent_compressedRb]
  exact List.getElem_map _

/-- Settles O48: each record is the exponent word, then the words of the fields. -/
theorem bfpdRawWritesExponentAndMantissas : Obligations.BfpdRawWritesExponentAndMantissas := by
  intro s w src dst n size hw1 hw16 hc hwf hsrc hdst hlen
  have hp := precheck_fromStream (i := .bfpdRaw w) rfl ((legalWidth_iff w).mpr ⟨hw1, hw16⟩) hc hsrc
    hdst
  have hblock (k : Nat) (_ : k < n) :
      (rawRecord (compressedRb s.bmem src w.toNat k) w.toNat).length = 25 := rawRecord_length _ _
  refine ⟨_, guarded_run_eq hp (decompressRun_enough _ hlen), fun r hr => ⟨?_, fun i hi => ?_⟩,
    fun a ha => read_writeRange_blocks_out _ hblock (by omega)⟩
  · rw [show dst + 25 * r = dst + (r * 25 + 0) by omega,
      read_writeRange_blocks hwf dst hblock hr (by omega)]
    exact (congrArg (BitVec.ofNat 16) (rbExponent_compressedRb s.bmem src w.toNat r)).trans
      (BitVec.ofNat_toNat 16 _)
  · rw [show dst + 25 * r + 1 + i = dst + (r * 25 + (i + 1)) by omega,
      read_writeRange_blocks hwf dst hblock hr (by omega), rawRecord, List.getD_cons_succ,
      List.getD_eq_getElem _ _ (by simpa using hi), List.getElem_map]
    exact isField_rbMantissas s.bmem src r hw1 (by simpa using hi)

end Sys2Proof.Machine
end

section
/-!
PROOFS. Control (43_control.md): NOP (R250), the nine checks of INIT as numbers of the registers' bits
(R251), the selector (R253), both ends of INIT (R252, R254), and what changes the active configuration.
-/

namespace Sys2Proof.Machine

/-! ### NOP -/

/-- Settles O29: NOP is the completion with OK. -/
theorem nopCompletesAndTouchesNothing : Obligations.NopCompletesAndTouchesNothing := by
  intro s
  have hnop : exec .nop s = .next (complete .ok s) := rfl
  rw [hnop, complete_eq]
  rfl

/-! ### The fields of the configuration registers -/

section
variable (r : CfgRegs)

theorem CfgRegs.method_toNat : r.method.toNat = r.comp.toNat % 16 :=
  (toNat_extractLsb' ..).trans (congrArg (· % 16) (Nat.div_one _))

theorem CfgRegs.bw_toNat : r.bw.toNat = r.comp.toNat / 16 % 32 := toNat_extractLsb' ..

theorem CfgRegs.version_toNat : r.version.toNat = r.hdr.toNat / 4 % 8 := toNat_extractLsb' ..

theorem CfgRegs.encFilter_toNat : r.encFilter.toNat = r.hdr.toNat / 32 % 16 := toNat_extractLsb' ..

theorem CfgRegs.mu_toNat : r.mu.toNat = r.hdr.toNat / 512 % 8 := toNat_extractLsb' ..

/-- SYMS is the top field of CFG_HDR. -/
theorem CfgRegs.syms_toNat : r.syms.toNat = r.hdr.toNat / 4096 := by
  rw [CfgRegs.syms, toNat_extractLsb']
  have := r.hdr.isLt
  omega

end

/-- The latched configuration, each field from the number of its register (10_state.md R44 to R49). -/
theorem latchCfg_eq (r : CfgRegs) (t : Tier) :
    latchCfg r t =
      { method := BitVec.ofNat 4 (r.comp.toNat % 16)
        bw := BitVec.ofNat 5 (r.comp.toNat / 16 % 32)
        dyn := r.comp.getLsbD 9
        decDir := r.hdr.getLsbD 0
        encDir := r.hdr.getLsbD 1
        version := BitVec.ofNat 3 (r.hdr.toNat / 4 % 8)
        encFilter := BitVec.ofNat 4 (r.hdr.toNat / 32 % 16)
        mu := BitVec.ofNat 3 (r.hdr.toNat / 512 % 8)
        syms := BitVec.ofNat 7 (r.hdr.toNat / 4096)
        nofPrb := r.prb
        maxSec := r.maxsec
        scale := r.scale
        tier := t } := by
  simp only [← r.method_toNat, ← r.bw_toNat, ← r.version_toNat, ← r.encFilter_toNat, ← r.mu_toNat,
    ← r.syms_toNat, BitVec.ofNat_toNat, BitVec.setWidth_eq]
  rfl

/-! ### The selector -/

/-- The tier each PIN selects (43_control.md R253). -/
theorem selectTier_eq_some {p : Params} {pin : BitVec 3} {t : Tier}
    (h : (pin.toNat = 0 ∧ t = (if p.hwTier2 then .tier2
        else if p.hwTier1 then .tier1 else .baseline)) ∨
      (pin.toNat = 1 ∧ t = .baseline) ∨
      (pin.toNat = 2 ∧ p.hwTier1 = true ∧ t = .tier1) ∨
      (pin.toNat = 3 ∧ p.hwTier2 = true ∧ t = .tier2)) :
    selectTier p pin = some t := by
  unfold selectTier
  rcases h with ⟨hp, rfl⟩ | ⟨hp, rfl⟩ | ⟨hp, hw, rfl⟩ | ⟨hp, hw, rfl⟩
  · simp [hp]
  · simp [hp]
  · simp [hp, hw]
  · simp [hp, hw]

/-- Selection fails for an unknown PIN and for a tier the hardware lacks (43_control.md R253). -/
theorem selectTier_isNone (p : Params) (pin : BitVec 3) :
    (selectTier p pin).isNone = decide (4 ≤ pin.toNat ∨ (pin.toNat = 2 ∧ p.hwTier1 = false) ∨
      (pin.toNat = 3 ∧ p.hwTier2 = false)) := by
  unfold selectTier
  split
  case h_1 h => simp [h]
  case h_2 h => simp [h]
  case h_3 h => cases p.hwTier1 <;> simp [h]
  case h_4 h => cases p.hwTier2 <;> simp [h]
  case h_5 h0 h1 h2 h3 =>
    simp only [imp_false] at h0 h1 h2 h3
    have : 4 ≤ pin.toNat := by omega
    simp [this]

/-! ### The checks of INIT -/

/-- A number outside 1 .. k. -/
theorem not_between_one (n k : Nat) :
    (!(decide (1 ≤ n) && decide (n ≤ k))) = decide (n = 0 ∨ k < n) := by
  rw [Bool.eq_iff_iff]
  simp only [Bool.not_eq_true', Bool.and_eq_false_iff, decide_eq_false_iff_not, decide_eq_true_eq]
  omega

theorem beq_eq_decide_toNat {n : Nat} (x y : BitVec n) : (x == y) = decide (x.toNat = y.toNat) := by
  rw [Bool.eq_iff_iff, beq_iff_eq, decide_eq_true_eq, BitVec.toNat_inj]

/-- The checks of INIT as numbers of the registers' bits (43_control.md R251). -/
theorem initChecks_eq (p : Params) (r : CfgRegs) :
    initChecks p r =
      [ decide (7 ≤ r.comp.toNat % 16),
        decide (r.comp.toNat / 16 % 32 = 0 ∨ 16 < r.comp.toNat / 16 % 32),
        decide (r.hdr.toNat / 32 % 16 = 15),
        decide (7 ≤ r.hdr.toNat / 512 % 8),
        decide (r.hdr.toNat / 4096 = 0 ∨ 64 < r.hdr.toNat / 4096),
        decide (r.prb.toNat = 0 ∨ 1024 < r.prb.toNat),
        decide (r.maxsec.toNat = 0),
        decide (r.scale.toNat / 8388608 % 256 = 255),
        decide (4 ≤ r.strat.toNat ∨ (r.strat.toNat = 2 ∧ p.hwTier1 = false) ∨
          (r.strat.toNat = 3 ∧ p.hwTier2 = false)) ] := by
  simp only [initChecks, legalWidth, scaleNotFinite, not_between_one, beq_eq_decide_toNat,
    selectTier_isNone, r.method_toNat, r.bw_toNat, r.encFilter_toNat, r.mu_toNat, r.syms_toNat,
    toNat_extractLsb']
  rfl

/-! ### Both ends of INIT -/

/-- Settles O30: no check fails, so INIT latches. -/
theorem initLatchesALegalConfiguration : Obligations.InitLatchesALegalConfiguration := by
  intro s t r hmethod hbw1 hbw16 hfilter hmu hsyms1 hsyms64 hprb1 hprb1024 hmaxsec hscale hpin
  have hsel : selectTier s.params r.strat = some t := selectTier_eq_some hpin
  have hnone : (selectTier s.params r.strat).isNone = false := by rw [hsel]; rfl
  have hmask : initMask s.params r = 0#32 := by
    rw [selectTier_isNone] at hnone
    rw [initMask_eq_zero_iff, initChecks_eq, hnone]
    simp only [List.mem_cons, List.not_mem_nil, or_false, forall_eq_or_imp, forall_eq,
      decide_eq_false_iff_not, eq_self, and_true]
    omega
  rw [execInit_ok hmask hsel, ← latchCfg_eq r t]
  rfl

/-- The mask is not 0 exactly when a check fails. -/
theorem initMask_ne_zero_iff (p : Params) (r : CfgRegs) :
    initMask p r ≠ 0#32 ↔ (initChecks p r).any id = true := by
  simp [initMask_eq_zero_iff]

/-- The mask has one bit for each check (43_control.md R251). -/
theorem initMask_lt (p : Params) (r : CfgRegs) : (initMask p r).toNat < 512 := by
  rw [initMask_toNat]
  have := maskOf_lt (initChecks p r)
  rwa [initChecks_length] at this

/-- Settles O31: the mask of INIT is the list of its checks. -/
theorem initReportsEveryFailingCheck : Obligations.InitReportsEveryFailingCheck := by
  intro s r f0 f1 f2 f3 f4 f5 f6 f7 f8 hfail
  have hchecks : initChecks s.params r = [f0, f1, f2, f3, f4, f5, f6, f7, f8] := initChecks_eq _ _
  have hmask : initMask s.params r ≠ 0#32 := by
    rw [initMask_ne_zero_iff, hchecks]
    simpa [Bool.or_assoc] using hfail
  have hbit (k : Nat) : (initMask s.params r).getLsbD k =
      [f0, f1, f2, f3, f4, f5, f6, f7, f8].getD k false := by
    rw [initMask_getLsbD, hchecks]
  exact ⟨initMask s.params r, execInit_fail hmask, hbit 0, hbit 1, hbit 2, hbit 3, hbit 4, hbit 5,
    hbit 6, hbit 7, hbit 8, initMask_lt _ _⟩

/-! ### What changes the active configuration -/

/-- `t` has the active configuration of `s`, and CFG_OK only where `s` has it. -/
def KeepsCfg (s t : State) : Prop := t.cfg = s.cfg ∧ (t.cfgOk = true → s.cfgOk = true)

theorem not_keepsCfg {s t : State}
    (h : t.cfg ≠ s.cfg ∨ (t.cfgOk = true ∧ s.cfgOk = false)) : ¬ KeepsCfg s t := by
  rintro ⟨hcfg, hok⟩
  rcases h with h | ⟨ht, hs⟩
  · exact h hcfg
  · exact Bool.false_ne_true (hs.symm.trans (hok ht))

/-- Every command but a successful INIT keeps the active configuration (43_control.md R252, R254). -/
theorem exec_keepsCfg {i : Instr} {s t : State} (h : exec i s = .next t) :
    KeepsCfg s t ∨ (i = .init ∧ t.cfgOk = true ∧ t.code = .ok) := by
  rcases exec_next_cases h with ⟨-, mask, rfl⟩ | ⟨hi, u, -, -, rfl⟩ | ⟨-, c, b, m, r, sid, sh⟩
  · exact .inl ⟨rfl, nofun⟩
  · exact .inr ⟨hi, rfl, rfl⟩
  · rw [sh.eq]
    exact .inl ⟨rfl, id⟩

/-- Every turn of the engine but a successful INIT keeps the active configuration: an illegal word sets
none, and the memories kept for a command are no part of it. -/
theorem runEngine_keepsCfg {s t : State} (h : runEngine s = .next t) :
    KeepsCfg s t ∨ (decode s.engCmd = .ok .init ∧ t.cfgOk = true ∧ t.code = .ok) := by
  rcases runEngine_cases s with ⟨e, -, he⟩ | ⟨i, u, hd, -, hx, he⟩ | ⟨i, v, u, hd, -, hx, he⟩ <;>
    rw [he] at h <;> cases h
  · exact .inl ⟨rfl, id⟩
  · exact (exec_keepsCfg hx).imp_right fun ⟨hi, hend⟩ => ⟨hi ▸ hd, hend⟩
  · exact (exec_keepsCfg hx).imp_right fun ⟨hi, hend⟩ => ⟨hi ▸ hd, hend⟩

/-- Every register write but a soft reset keeps the active configuration (10_state.md R51, R53). -/
theorem writeReg_keepsCfg (width : AccessWidth) (offset v : Word) (s : State) :
    KeepsCfg s (writeReg width offset v s) ∨
      (width = .word ∧ offset = 0x010#32 ∧ v.getLsbD 1 = true ∧
        writeReg width offset v s = softReset s) := by
  rcases writeReg_cases width offset v s with e | e | ⟨b, e⟩ | e | ⟨-, e⟩ | ⟨-, e⟩ | ⟨a, e⟩ |
    ⟨r, e⟩ | ⟨-, x, e⟩
  case inr.inl => exact .inr e
  all_goals
    rw [e]
    exact .inl ⟨rfl, id⟩

/-- Every host access but a soft reset keeps the active configuration. -/
theorem hostAccess_keepsCfg {a : HostAccess} {s t : State} (h : hostAccess a s = .next t) :
    KeepsCfg s t ∨
      ∃ v, a = .writeReg .word 0x010#32 v ∧ v.getLsbD 1 = true ∧ t = softReset s := by
  rcases hostAccess_cases h with ⟨d, n, rfl⟩ | ⟨width, offset, v, rfl, rfl⟩ | ⟨x, v, -, -, rfl⟩ |
    ⟨x, v, -, -, rfl⟩
  · exact .inl ⟨rfl, id⟩
  · rcases writeReg_keepsCfg width offset v s with hk | ⟨rfl, rfl, hv, e⟩
    · exact .inl hk
    · exact .inr ⟨v, rfl, hv, e⟩
  · exact .inl (by simp [KeepsCfg])
  · exact .inl (by simp [KeepsCfg])

/-- Settles O18, by the kinds of step: the engine's turn, a reset, a host access. -/
theorem onlyInitAndResetChangeTheConfiguration :
    Obligations.OnlyInitAndResetChangeTheConfiguration := by
  intro s t hstep hchange
  have hnot : ¬ KeepsCfg s t := not_keepsCfg hchange
  rcases step_cases hstep with ⟨-, rfl⟩ | ⟨hbusy, hrun⟩ | ⟨rest, hin, rfl⟩ | ⟨a, rest, hin, hacc⟩
  · exact absurd ⟨rfl, id⟩ hnot
  · obtain ⟨hd, hok, hcode⟩ := (runEngine_keepsCfg hrun).resolve_left hnot
    exact .inl ⟨hbusy, hd, hok, hcode⟩
  · exact .inr ⟨rfl, rfl, rfl, .inl ⟨rest, hin⟩⟩
  · obtain ⟨v, rfl, hv, rfl⟩ := (hostAccess_keepsCfg hacc).resolve_left hnot
    exact .inr ⟨rfl, rfl, rfl, .inr ⟨v, rest, hin, hv⟩⟩

end Sys2Proof.Machine
end

section
/-!
PROOFS. The message decoder (44_decoder.md): the ends of MSG_DEC (R291 to R294), the header checks (R274,
R275), what the code and the results depend on (R296), and the sizes of PRB_SIZE (R299).
-/

namespace Sys2Proof.Machine

/-! ### PRB_SIZE -/

/-- A method code equals another exactly when its number does. -/
theorem method_eq_iff (meth : BitVec 4) (k : Nat) (hk : k < 16) :
    meth.toNat = k ↔ meth = BitVec.ofNat 4 k := by
  rw [← BitVec.toNat_inj, BitVec.toNat_ofNat, Nat.mod_eq_of_lt hk]

/-- Settles O51: the sizes of a resource block and of the bytes before its payload, as numbers. -/
theorem prbSizeReportsTheSizes : Obligations.PrbSizeReportsTheSizes := by
  intro s w meth hw1 hw16 hm hc
  have hwf : (Instr.prbSize w meth).wf = true :=
    Bool.and_eq_true_iff.mpr ⟨(legalWidth_iff w).mpr ⟨hw1, hw16⟩, decide_eq_true hm⟩
  have hp : precheck (.prbSize w meth) s = none := precheck_none_iff.mpr ⟨hwf, hc, rfl, rfl⟩
  have h1 : meth.toNat = 1 ↔ meth = 1#4 := method_eq_iff meth 1 (by omega)
  have h5 : meth.toNat = 5 ↔ meth = 5#4 := method_eq_iff meth 5 (by omega)
  have h6 : meth.toNat = 6 ↔ meth = 6#4 := method_eq_iff meth 6 (by omega)
  refine guarded_run_eq hp ?_
  simp only [prbSizeRun, prbSize_eq, sectionOverhead, hasExponentByte, hasLengthField,
    Bool.or_eq_true, beq_iff_eq, h1, h5, h6]
  rfl

/-! ### The ends of MSG_DEC -/

section
variable {s : State} {wk : DecWork}

theorem finishDecode_rejected {c : Code} {off : Nat} (h : wk.state = .rejected c off) :
    finishDecode s wk = complete c
      { s with res := { s.res with r1 := headerWord (decEnv s).header, r3 := word off } } := by
  simp only [finishDecode, h]

theorem finishDecode_noSection (h : wk.state = .finished) (hn : wk.nsect = 0)
    (ht : wk.trunc = false) :
    finishDecode s wk = complete .noValidSection
      { s with
        res :=
          { s.res with r1 := headerWord (decEnv s).header, r3 := s.engArg.r1, r5 := 4#32 } } := by
  simp [finishDecode, h, hn, ht]

theorem finishDecode_incomplete (h : wk.state = .finished) (hn : wk.nsect = 0)
    (ht : wk.trunc = true) :
    finishDecode s wk = complete .incomplete
      { s with
        res :=
          { s.res with
            r1 := headerWord (decEnv s).header, r3 := word wk.cur, r4 := 1#32, r5 := 4#32 } } := by
  simp [finishDecode, h, hn, ht]

theorem finishDecode_ok (h : wk.state = .finished) (hn : wk.nsect ≠ 0) :
    finishDecode s wk = complete .ok
      { s with
        wmem := commitSections s.engArg.r2.toNat s.engArg.r3.toNat 0 wk.sections s.wmem
        res :=
          { s.res with
            r0 := word wk.nsect
            r1 := headerWord (decEnv s).header
            r2 := word wk.nsamp
            r3 := if wk.trunc then word wk.cur else 0#32
            r4 := if wk.trunc then 1#32 else 0#32
            r5 := word wk.cur } } := by
  simp only [finishDecode, h, if_neg hn]

/-- The code and the results of an end read the header, the length and the results before. -/
theorem finishDecode_congr {t : State} (hh : (decEnv t).header = (decEnv s).header)
    (hl : t.engArg.r1 = s.engArg.r1) (hr : t.res = s.res) :
    (finishDecode t wk).code = (finishDecode s wk).code ∧
      (finishDecode t wk).res = (finishDecode s wk).res := by
  obtain ⟨state, cur, nsect, nsamp, trunc, sections⟩ := wk
  cases state with
  | rejected c off =>
    rw [finishDecode_rejected rfl, finishDecode_rejected rfl, hh, hr]
    exact ⟨rfl, rfl⟩
  | _ =>
    simp only [finishDecode, hh, hl, hr]
    split
    · split <;> exact ⟨rfl, rfl⟩
    · exact ⟨rfl, rfl⟩

theorem msgDecRun_short (h : s.engArg.r1.toNat < 4) :
    msgDecRun s =
      complete .malformed { s with res := { s.res with r1 := 0#32, r3 := 0#32 } } := if_pos h

theorem msgDecRun_long (h : 4 ≤ s.engArg.r1.toNat) :
    msgDecRun s = finishDecode s (decodeMessage (decEnv s)) := if_neg h.not_gt

/-- A header that a check rejects ends the command there (44_decoder.md R292). -/
theorem msgDecRun_headerReject (h : 4 ≤ s.engArg.r1.toNat) {c : Code} {off : Nat}
    (hrej : headerReject s.cfg (decEnv s).header = some (c, off)) :
    msgDecRun s = complete c
      { s with res := { s.res with r1 := headerWord (decEnv s).header, r3 := word off } } := by
  have hdec : (decodeMessage (decEnv s)).state = .rejected c off := by
    have hcfg : headerReject (decEnv s).cfg (decEnv s).header = some (c, off) := hrej
    simp only [decodeMessage, hcfg]
  rw [msgDecRun_long h, finishDecode_rejected hdec]

end

/-- Settles O55: both states decode alike, and an end reads only what they share. -/
theorem msgDecDependsOnlyOnTheMessage : Obligations.MsgDecDependsOnlyOnTheMessage := by
  intro s t s' t' u hps hpt hlen hcap hcfg hfmt hres hbytes hs ht
  obtain rfl : msgDecRun s = s' := Host.Outcome.next.inj ((guarded_run hps).symm.trans hs)
  obtain rfl : msgDecRun t = t' := Host.Outcome.next.inj ((guarded_run hpt).symm.trans ht)
  have halike : DecEnv.Alike (decEnv s) (decEnv t) :=
    ⟨congrArg BitVec.toNat hlen, congrArg BitVec.toNat hcap, hfmt, ⟨u, hcfg⟩, hbytes⟩
  rcases Nat.lt_or_ge s.engArg.r1.toNat 4 with h4 | h4
  · rw [msgDecRun_short h4, msgDecRun_short (hlen ▸ h4), hres]
    exact ⟨rfl, rfl⟩
  · rw [msgDecRun_long h4, msgDecRun_long (hlen ▸ h4), decodeMessage_congr halike h4]
    exact finishDecode_congr (header_congr halike h4) hlen hres

/-! ### The header checks -/

section
variable {cfg : ActiveCfg} {h : MsgHeader}

theorem headerReject_identity
    (hbad : h.direction ≠ cfg.decDir ∨ h.version ≠ cfg.version ∨ h.filter = 15#4) :
    headerReject cfg h = some (.malformed, 0) := by
  unfold headerReject
  by_cases hd : h.direction ≠ cfg.decDir
  · exact if_pos hd
  · by_cases hv : h.version ≠ cfg.version
    · rw [if_neg hd, if_pos hv]
    · rw [if_neg hd, if_neg hv, if_pos ((hbad.resolve_left hd).resolve_left hv)]

/-- The checks of R275 are reached once those of R274 pass (44_decoder.md R274). -/
theorem headerReject_identified (hd : h.direction = cfg.decDir) (hv : h.version = cfg.version)
    (hf : h.filter ≠ 15#4) :
    headerReject cfg h =
      if 10 ≤ h.subframe.toNat then some (.rejectedSemantic, 2)
      else if 2 ^ cfg.mu.toNat ≤ h.slot.toNat then some (.rejectedSemantic, 2)
      else if cfg.syms.toNat ≤ h.symbol.toNat then some (.rejectedSemantic, 3)
      else none := by
  rw [headerReject, if_neg (not_not.mpr hd), if_neg (not_not.mpr hv), if_neg hf]

end

/-- Settles O52, check by check. -/
theorem msgDecRejectsBadHeaders : Obligations.MsgDecRejectsBadHeaders := by
  intro s mb len h ends hc hmsg hdt hsa hap
  have hp : precheck .msgDec s = none := precheck_msgDec hc hmsg hdt hsa hap
  have hrej (c : Code) (off : Nat) (h4 : 4 ≤ len) (hr : headerReject s.cfg h = some (c, off)) :=
    guarded_run_eq hp (msgDecRun_headerReject (s := s) h4 hr)
  refine ⟨fun hshort => guarded_run_eq hp (msgDecRun_short hshort), fun h4 =>
    ⟨fun hbad => hrej .malformed 0 h4 (headerReject_identity hbad), fun hd hv hf =>
      ⟨fun hbad => hrej .rejectedSemantic 2 h4 ?_, fun hsub hslot hsym =>
        hrej .rejectedSemantic 3 h4 ?_⟩⟩⟩
  · rw [headerReject_identified hd hv hf]
    rcases hbad with hsub | hslot
    · exact if_pos hsub
    · rw [if_pos hslot, ite_self]
  · rw [headerReject_identified hd hv hf, if_neg hsub.not_ge, if_neg hslot.not_ge, if_pos hsym]

end Sys2Proof.Machine
end

section
/-!
PROOFS. MSG_DEC on a message of an acceptable header, complete sections and further bytes (44_decoder.md
R273 to R294): what the decoder reads at the cursor, what one section gives, the working state after the
complete sections, and the descriptors and samples the commit leaves in WMEM.
-/

namespace Sys2Proof.Machine

/-! ### Contents of a range -/

section
variable {w : Nat} {m m' : Memory w} {a : Nat} {xs ys : List (BitVec w)}

theorem Holds.left (h : Holds m a (xs ++ ys)) : Holds m a xs := fun k hk => by
  rw [h k (by rw [List.length_append]; omega), List.getElem_append_left hk]

theorem Holds.right (h : Holds m a (xs ++ ys)) : Holds m (a + xs.length) ys := fun k hk => by
  rw [Nat.add_assoc, h (xs.length + k) (by rw [List.length_append]; omega),
    List.getElem_append_right (Nat.le_add_right _ _)]
  simp only [Nat.add_sub_cancel_left]

theorem Holds.congr (h : Holds m a xs)
    (hread : ∀ k, k < xs.length → Memory.read m' (a + k) = Memory.read m (a + k)) :
    Holds m' a xs := fun k hk => (hread k hk).trans (h k hk)

theorem holds_writeRange (hm : Memory.wf m) (a : Nat) (xs : List (BitVec w)) :
    Holds (Memory.writeRange m a xs) a xs := fun _ hk => Memory.read_writeRange_in hm a xs hk

/-- A range of memory that holds a list reads as a slice of it. -/
theorem Holds.readRange (h : Holds m a xs) {k n : Nat} (hn : k + n ≤ xs.length) :
    Memory.readRange m (a + k) n = (xs.drop k).take n := by
  refine List.ext_getElem (by simp; omega) fun i h1 _ => ?_
  have hi : i < n := by simpa using h1
  rw [Memory.readRange_getElem, Nat.add_assoc, h (k + i) (by omega), List.getElem_take,
    List.getElem_drop]

/-- Each of the n pieces of `size` elements stands in its place. -/
theorem Holds.piece {n size : Nat} {f : Nat → List (BitVec w)}
    (h : Holds m a ((List.range n).flatMap f)) (hf : ∀ k, k < n → (f k).length = size) {k : Nat}
    (hk : k < n) : Holds m (a + size * k) (f k) := fun i hi => by
  have hsize : i < size := hf k hk ▸ hi
  have hget := flatMap_range_getElem? n size f hf hk hsize
  rw [List.getElem?_eq_getElem hi] at hget
  obtain ⟨hlt, heq⟩ := List.getElem?_eq_some_iff.mp hget
  rw [Nat.add_assoc, Nat.mul_comm size, h _ hlt, heq]

end

/-! ### What the decoder reads at the cursor -/

/-- The message of `e` is `bytes` from the offset `cur` to its end. -/
structure DecEnv.Sees (e : DecEnv) (cur : Nat) (bytes : List Byte) : Prop where
  len : e.len = cur + bytes.length
  holds : Holds e.mem (e.base + cur) bytes

/-- The bytes before the payload of a section without a length field (30_encoding.md R127, R129). -/
def headBytes (cfg : ActiveCfg) : Nat := 4 + if cfg.dyn = true then 2 else 0

/-- The bytes of the length field (30_encoding.md R132). -/
def lengthBytes (method : Nat) : Nat := if method = 5 ∨ method = 6 then 2 else 0

/-- The header of the section that starts a list of bytes. -/
def wireHeader (bytes : List Byte) : SecHeader :=
  parseSecHeader (bytes.getD 0 0#8) (bytes.getD 1 0#8) (bytes.getD 2 0#8) (bytes.getD 3 0#8)

/-- The method of the section that starts a list of bytes (44_decoder.md R278, R279). -/
def wireMethod (cfg : ActiveCfg) (bytes : List Byte) : Nat :=
  if cfg.dyn = true then (bytes.getD 4 0#8).toNat % 16 else cfg.method.toNat

/-- The width of the section that starts a list of bytes (44_decoder.md R278, R279). -/
def wireWidth (cfg : ActiveCfg) (bytes : List Byte) : Nat :=
  if cfg.dyn = false then cfg.bw.toNat
  else if (bytes.getD 4 0#8).toNat / 16 = 0 then 16 else (bytes.getD 4 0#8).toNat / 16

/-- The PRBs of the section that starts a list of bytes (30_encoding.md R128). -/
def wirePrbs (cfg : ActiveCfg) (bytes : List Byte) : Nat :=
  (wireHeader bytes).prbCount cfg.nofPrb.toNat

/-- The bytes of a whole section (44_decoder.md R280, R281). -/
def wholeBytes (cfg : ActiveCfg) (bytes : List Byte) : Nat :=
  headBytes cfg + lengthBytes (wireMethod cfg bytes) +
    wirePrbs cfg bytes * prbSize (wireMethod cfg bytes) (wireWidth cfg bytes)

/-- The compression header names a reserved method (44_decoder.md R278). -/
def ReservedMethod (cfg : ActiveCfg) (bytes : List Byte) : Prop :=
  cfg.dyn = true ∧ 7 ≤ wireMethod cfg bytes

theorem widthOfCode_high (b : Byte) :
    widthOfCode (b.extractLsb' 4 4) = if b.toNat / 16 = 0 then 16 else b.toNat / 16 := by
  have hcode : (b.extractLsb' 4 4).toNat = b.toNat / 16 := by
    rw [toNat_extractLsb']
    exact Nat.mod_eq_of_lt (by omega)
  have hzero : b.extractLsb' 4 4 = 0#4 ↔ b.toNat / 16 = 0 := by
    rw [← BitVec.toNat_inj, hcode]
    rfl
  simp only [widthOfCode, hcode, hzero]

section
variable {e : DecEnv} {cur : Nat} {bytes : List Byte}

theorem DecEnv.Sees.byte (h : e.Sees cur bytes) {k : Nat} (hk : k < bytes.length) :
    e.byte (cur + k) = bytes.getD k 0#8 := by
  rw [DecEnv.byte, ← Nat.add_assoc, h.holds k hk, List.getD_eq_getElem _ _ hk]

theorem DecEnv.Sees.right {front : List Byte} (h : e.Sees cur (front ++ bytes)) :
    e.Sees (cur + front.length) bytes :=
  ⟨by rw [h.len, List.length_append, Nat.add_assoc], by
    rw [← Nat.add_assoc]
    exact h.holds.right⟩

theorem DecEnv.Sees.header (h : e.Sees cur bytes) (h4 : 4 ≤ bytes.length) :
    parseSecHeader (e.byte cur) (e.byte (cur + 1)) (e.byte (cur + 2)) (e.byte (cur + 3)) =
      wireHeader bytes := by
  have h0 : e.byte cur = bytes.getD 0 0#8 := h.byte (k := 0) (by omega)
  rw [wireHeader, h0, h.byte (by omega), h.byte (by omega), h.byte (by omega)]

/-- In dynamic mode a cut compression header is none (44_decoder.md R278). -/
theorem DecEnv.Sees.params_short (h : e.Sees cur bytes) (h4 : 4 ≤ bytes.length)
    (hcut : bytes.length < headBytes e.cfg) : sectionParams e (cur + 4) = .short := by
  have hlen := h.len
  unfold headBytes at hcut
  cases hd : e.cfg.dyn with
  | false => simp [hd] at hcut; omega
  | true =>
    have h2 : e.len - (cur + 4) < 2 := by simp [hd] at hcut; omega
    simp only [sectionParams, hd, if_true, if_pos h2]

theorem DecEnv.Sees.params_dyn (h : e.Sees cur bytes) (hhead : headBytes e.cfg ≤ bytes.length)
    (hd : e.cfg.dyn = true) :
    sectionParams e (cur + 4) =
      if 7 ≤ wireMethod e.cfg bytes then .reserved
      else .params (wireMethod e.cfg bytes) (wireWidth e.cfg bytes) (cur + headBytes e.cfg) := by
  have hlen := h.len
  have hsix : headBytes e.cfg = 6 := by simp [headBytes, hd]
  have h2 : ¬ e.len - (cur + 4) < 2 := by omega
  have hm : ((bytes.getD 4 0#8).extractLsb' 0 4).toNat = wireMethod e.cfg bytes := by
    rw [toNat_extractLsb', wireMethod, if_pos hd]
    omega
  have hw : widthOfCode ((bytes.getD 4 0#8).extractLsb' 4 4) = wireWidth e.cfg bytes := by
    simp only [widthOfCode_high, wireWidth, hd, Bool.true_eq_false, if_false]
  simp only [sectionParams, hd, if_true, if_neg h2, h.byte (k := 4) (by omega), hm, hw, hsix]

theorem DecEnv.Sees.params_reserved (h : e.Sees cur bytes) (hhead : headBytes e.cfg ≤ bytes.length)
    (hres : ReservedMethod e.cfg bytes) : sectionParams e (cur + 4) = .reserved := by
  rw [h.params_dyn hhead hres.1, if_pos hres.2]

theorem DecEnv.Sees.params (h : e.Sees cur bytes) (hhead : headBytes e.cfg ≤ bytes.length)
    (hres : ¬ ReservedMethod e.cfg bytes) :
    sectionParams e (cur + 4) =
      .params (wireMethod e.cfg bytes) (wireWidth e.cfg bytes) (cur + headBytes e.cfg) := by
  cases hd : e.cfg.dyn with
  | true => rw [h.params_dyn hhead hd, if_neg fun h7 => hres ⟨hd, h7⟩]
  | false => simp [sectionParams, wireMethod, wireWidth, headBytes, hd]

end

/-! ### One section -/

section
variable {e : DecEnv} {wk : DecWork} {bytes : List Byte}

theorem sectionLength_cut {h : SecHeader} {method w cur : Nat}
    (hcut : e.len - cur < lengthBytes method) :
    sectionLength e wk h method w cur = .truncated := by
  unfold lengthBytes at hcut
  split_ifs at hcut with hm
  · have hf : hasLengthField method = true := by simpa [hasLengthField] using hm
    rw [sectionLength, if_pos hf, if_pos hcut]
  · omega

/-- A length field is read and passed over, and its value is in the descriptor alone (44_decoder.md
R280). -/
theorem sectionLength_payload {h : SecHeader} {method w cur : Nat}
    (hlen : lengthBytes method ≤ e.len - cur) :
    ∃ lf, (lengthBytes method = 0 → lf = 0) ∧ sectionLength e wk h method w cur =
      sectionPayload e wk h method w lf (cur + lengthBytes method) := by
  unfold lengthBytes at hlen ⊢
  split_ifs at hlen ⊢ with hm
  · have hf : hasLengthField method = true := by simpa [hasLengthField] using hm
    exact ⟨_, nofun, by rw [sectionLength, if_pos hf, if_neg hlen.not_gt]⟩
  · have hf : ¬ hasLengthField method = true := by simpa [hasLengthField] using hm
    exact ⟨0, fun _ => rfl, by rw [sectionLength, if_neg hf]; rfl⟩

theorem headBytes_ge (cfg : ActiveCfg) : 4 ≤ headBytes cfg := Nat.le_add_right _ _

theorem headBytes_le_wholeBytes (cfg : ActiveCfg) (bytes : List Byte) :
    headBytes cfg ≤ wholeBytes cfg bytes := by unfold wholeBytes; omega

theorem parseSection_length (hs : e.Sees wk.cur bytes) (hhead : headBytes e.cfg ≤ bytes.length)
    (hres : ¬ ReservedMethod e.cfg bytes) :
    parseSection e wk = sectionLength e wk (wireHeader bytes) (wireMethod e.cfg bytes)
      (wireWidth e.cfg bytes) (wk.cur + headBytes e.cfg) := by
  have h4 : 4 ≤ bytes.length := (headBytes_ge _).trans hhead
  have hlen := hs.len
  have hfour : ¬ e.len - wk.cur < 4 := by omega
  simp only [parseSection, if_neg hfour, hs.params hhead hres, hs.header h4]

theorem parseSection_reserved (hs : e.Sees wk.cur bytes) (hhead : headBytes e.cfg ≤ bytes.length)
    (hres : ReservedMethod e.cfg bytes) :
    parseSection e wk = .rejected .malformed (wk.cur + 4) := by
  have h4 : 4 ≤ bytes.length := (headBytes_ge _).trans hhead
  have hlen := hs.len
  have hfour : ¬ e.len - wk.cur < 4 := by omega
  simp only [parseSection, if_neg hfour, hs.params_reserved hhead hres]

/-- A section whose payload is reached is what its payload gives (44_decoder.md R290). -/
theorem parseSection_payload (hs : e.Sees wk.cur bytes)
    (hhead : headBytes e.cfg + lengthBytes (wireMethod e.cfg bytes) ≤ bytes.length)
    (hres : ¬ ReservedMethod e.cfg bytes) :
    ∃ lf, (lengthBytes (wireMethod e.cfg bytes) = 0 → lf = 0) ∧ parseSection e wk =
      sectionPayload e wk (wireHeader bytes) (wireMethod e.cfg bytes) (wireWidth e.cfg bytes) lf
        (wk.cur + headBytes e.cfg + lengthBytes (wireMethod e.cfg bytes)) := by
  have hlen := hs.len
  rw [parseSection_length hs (by omega) hres]
  exact sectionLength_payload (by omega)

/-- A section cut anywhere is truncated (44_decoder.md R277 to R281). -/
theorem parseSection_cut (hs : e.Sees wk.cur bytes)
    (hcut : bytes.length < headBytes e.cfg ∨
      (¬ ReservedMethod e.cfg bytes ∧ bytes.length < wholeBytes e.cfg bytes)) :
    parseSection e wk = .truncated := by
  have hlen := hs.len
  by_cases hhead : bytes.length < headBytes e.cfg
  · by_cases h4 : bytes.length < 4
    · have hfour : e.len - wk.cur < 4 := by omega
      simp only [parseSection, if_pos hfour]
    · have hfour : ¬ e.len - wk.cur < 4 := by omega
      simp only [parseSection, if_neg hfour, hs.params_short (Nat.le_of_not_lt h4) hhead]
  · obtain ⟨hres, hwhole⟩ := hcut.resolve_left hhead
    unfold wholeBytes wirePrbs at hwhole
    by_cases hlf : bytes.length < headBytes e.cfg + lengthBytes (wireMethod e.cfg bytes)
    · rw [parseSection_length hs (by omega) hres]
      exact sectionLength_cut (by omega)
    · obtain ⟨lf, -, hparse⟩ := parseSection_payload hs (Nat.le_of_not_lt hlf) hres
      rw [hparse]
      exact (sectionPayload_rejects e wk _ _ _ _ _).1 (by omega)

/-- The rejections of a whole section, in their order (44_decoder.md R282 to R286). -/
theorem parseSection_rejects (hs : e.Sees wk.cur bytes) (hres : ¬ ReservedMethod e.cfg bytes)
    (hwhole : wholeBytes e.cfg bytes ≤ bytes.length) :
    let method := wireMethod e.cfg bytes
    let samples := 24 * wirePrbs e.cfg bytes
    (method ≠ 0 → method ≠ 1 → parseSection e wk = .rejected .unsupportedMethod wk.cur) ∧
    (method = 0 ∨ method = 1 →
      (e.cap < wk.nsamp + samples →
        parseSection e wk = .rejected .contractViolation wk.cur) ∧
      (wk.nsamp + samples ≤ e.cap → wk.nsect = e.cfg.maxSec.toNat →
        parseSection e wk = .rejected .rejectedSemantic wk.cur)) := by
  have hlen := hs.len
  unfold wholeBytes wirePrbs at hwhole
  obtain ⟨lf, -, hparse⟩ := parseSection_payload hs (by omega) hres
  rw [hparse]
  exact (sectionPayload_rejects e wk _ _ _ _ _).2 (by omega)

end

/-! ### A complete section -/

/-- The section the decoder makes of `x` at the working state `wk` (44_decoder.md R281 to R287). -/
def WireSection.decoded (e : DecEnv) (wk : DecWork) (x : WireSection) : Section :=
  { sectionId := x.header.sectionId
    everyRbUsed := !x.header.rb
    currentSymbol := !x.header.symInc
    lengthPresent := false
    allPrb := x.header.nofPrb == 0#8
    startPrb := x.header.firstPrb
    nofPrb := x.prbs e.cfg
    method := x.methodIn e.cfg
    width := x.widthIn e.cfg
    lengthField := 0
    offset := wk.nsamp
    samples := sectionSamples e (x.methodIn e.cfg) (x.widthIn e.cfg) (wk.cur + headBytes e.cfg)
      (x.prbs e.cfg) }

/-- The working state after the complete section `x`. -/
def DecWork.push (e : DecEnv) (wk : DecWork) (x : WireSection) : DecWork :=
  { wk with
    cur := wk.cur + (x.bytes e.cfg.dyn).length
    nsect := wk.nsect + 1
    nsamp := wk.nsamp + 24 * x.prbs e.cfg
    sections := wk.sections ++ [x.decoded e wk] }

section
variable (cfg : ActiveCfg) (x : WireSection) (rest : List Byte)

theorem WireSection.length_bytes :
    (x.bytes cfg.dyn).length = headBytes cfg + x.payload.length := by
  unfold WireSection.bytes headBytes
  cases cfg.dyn with
  | false => simp
  | true => simp; omega

theorem WireSection.wireHeader_bytes (dyn : Bool) : wireHeader (x.bytes dyn ++ rest) = x.header := by
  obtain ⟨c0, c1, c2, c3, hbuild, hparse⟩ := parseSecHeader_buildSecHeader x.header
  rw [wireHeader, WireSection.bytes, hbuild]
  exact hparse

/-- The first byte of the compression header (30_encoding.md R129). -/
theorem WireSection.bytes_comp : (x.bytes true ++ rest).getD 4 0#8 = x.code ++ x.method := rfl

theorem WireSection.wireMethod_bytes :
    wireMethod cfg (x.bytes cfg.dyn ++ rest) = x.methodIn cfg := by
  unfold wireMethod WireSection.methodIn
  cases cfg.dyn with
  | false => rfl
  | true =>
    rw [if_pos rfl, if_pos rfl, x.bytes_comp, toNat_append]
    omega

theorem WireSection.wireWidth_bytes :
    wireWidth cfg (x.bytes cfg.dyn ++ rest) = x.widthIn cfg := by
  unfold wireWidth WireSection.widthIn
  cases cfg.dyn with
  | false => rfl
  | true =>
    have hcode : (x.code ++ x.method).toNat / 16 = x.code.toNat := by
      rw [toNat_append]
      omega
    have hzero : x.code = 0#4 ↔ x.code.toNat = 0 := BitVec.toNat_inj.symm
    rw [if_neg Bool.noConfusion, if_pos rfl, x.bytes_comp, hcode]
    simp only [hzero]

variable {cfg x}

theorem WireSection.Complete.lengthBytes_eq (hx : x.Complete cfg) :
    lengthBytes (x.methodIn cfg) = 0 :=
  if_neg (by rcases hx.1 with h | h <;> omega)

end

/-- The decoder takes a complete section that the sample area and the section bound admit
(44_decoder.md R281 to R287). -/
theorem parseSection_complete {e : DecEnv} {wk : DecWork} {x : WireSection} {rest : List Byte}
    (hs : e.Sees wk.cur (x.bytes e.cfg.dyn ++ rest)) (hx : x.Complete e.cfg)
    (hroom : wk.nsamp + 24 * x.prbs e.cfg ≤ e.cap) (hbound : wk.nsect < e.cfg.maxSec.toNat) :
    parseSection e wk =
      .decoded (x.decoded e wk) (wk.cur + (x.bytes e.cfg.dyn).length) := by
  have hlen := hs.len
  have hbytes := x.length_bytes e.cfg
  rw [List.length_append] at hlen
  have hres : ¬ ReservedMethod e.cfg (x.bytes e.cfg.dyn ++ rest) := fun h => by
    have h7 := h.2
    rw [x.wireMethod_bytes] at h7
    rcases hx.1 with h | h <;> omega
  have hparse := parseSection_payload hs (by
    rw [x.wireMethod_bytes, hx.lengthBytes_eq, List.length_append]
    omega) hres
  rw [x.wireMethod_bytes, x.wireWidth_bytes, x.wireHeader_bytes, hx.lengthBytes_eq,
    Nat.add_zero] at hparse
  obtain ⟨lf, hlf, hparse⟩ := hparse
  have hpayload := hx.2
  have henough : ¬ e.len - (wk.cur + headBytes e.cfg) <
      x.header.prbCount e.cfg.nofPrb.toNat * prbSize (x.methodIn e.cfg) (x.widthIn e.cfg) := by
    rw [← WireSection.prbs]
    omega
  have hsupported : (!(x.methodIn e.cfg == 0 || x.methodIn e.cfg == 1)) = false := by
    rcases hx.1 with h | h <;> rw [h] <;> rfl
  have hfield : hasLengthField (x.methodIn e.cfg) = false := by
    rcases hx.1 with h | h <;> rw [h] <;> rfl
  rw [hparse, hlf rfl]
  simp only [sectionPayload, if_neg henough, hsupported, Bool.false_eq_true, if_false, hfield]
  rw [← WireSection.prbs, if_neg hroom.not_gt, if_neg hbound.ne, hbytes, hpayload,
    ← Nat.add_assoc]
  rfl

end Sys2Proof.Machine
end

section
/-!
PROOFS. The section loop over a message of complete sections and further bytes, and each of its ends
(44_decoder.md R276, R283, R291).
-/

namespace Sys2Proof.Machine

/-! ### The section loop -/

section
variable (e : DecEnv) (wk : DecWork) (x : WireSection)

theorem DecWork.push_cur : (wk.push e x).cur = wk.cur + (x.bytes e.cfg.dyn).length := rfl

theorem DecWork.push_nsect : (wk.push e x).nsect = wk.nsect + 1 := rfl

theorem DecWork.push_nsamp : (wk.push e x).nsamp = wk.nsamp + 24 * x.prbs e.cfg := rfl

theorem DecWork.push_sections : (wk.push e x).sections = wk.sections ++ [x.decoded e wk] := rfl

end

section
variable {e : DecEnv} {wk : DecWork}

theorem decLoop_end (n : Nat) (h : e.len ≤ wk.cur) :
    decLoop n e wk = { wk with state := .finished } := by
  cases n with
  | zero => rfl
  | succ n => rw [decLoop, if_neg h.not_gt]

theorem decLoop_truncated (n : Nat) (h : wk.cur < e.len) (hp : parseSection e wk = .truncated) :
    decLoop (n + 1) e wk = { wk with state := .finished, trunc := true } := by
  rw [decLoop, if_pos h, hp]
  exact if_neg nofun

theorem decLoop_rejected (n : Nat) (h : wk.cur < e.len) {c : Code} {off : Nat}
    (hp : parseSection e wk = .rejected c off) :
    decLoop (n + 1) e wk = { wk with state := .rejected c off } := by
  rw [decLoop, if_pos h, hp]
  exact if_neg nofun

theorem decLoop_push (n : Nat) (hst : wk.state = .parseSections) {x : WireSection}
    {rest : List Byte} (hs : e.Sees wk.cur (x.bytes e.cfg.dyn ++ rest)) (hx : x.Complete e.cfg)
    (hroom : wk.nsamp + 24 * x.prbs e.cfg ≤ e.cap) (hbound : wk.nsect < e.cfg.maxSec.toNat) :
    decLoop (n + 1) e wk = decLoop n e (wk.push e x) := by
  have hlt : wk.cur < e.len := by
    have hlen := hs.len
    have hbytes := x.length_bytes e.cfg
    have hfour := headBytes_ge e.cfg
    rw [List.length_append] at hlen
    omega
  rw [decLoop, if_pos hlt, parseSection_complete hs hx hroom hbound]
  exact if_pos hst

/-- Complete sections are taken one by one (44_decoder.md R276). -/
theorem decLoop_sections (n : Nat) (xs : List WireSection) {tail : List Byte}
    (hst : wk.state = .parseSections)
    (hs : e.Sees wk.cur (xs.flatMap (WireSection.bytes e.cfg.dyn) ++ tail))
    (hx : ∀ x ∈ xs, x.Complete e.cfg)
    (hroom : wk.nsamp + (xs.map (fun x => 24 * x.prbs e.cfg)).sum ≤ e.cap)
    (hbound : wk.nsect + xs.length ≤ e.cfg.maxSec.toNat) :
    decLoop (n + xs.length) e wk = decLoop n e (xs.foldl (DecWork.push e) wk) := by
  induction xs generalizing wk with
  | nil => rfl
  | cons x xs ih =>
    rw [List.map_cons, List.sum_cons] at hroom
    rw [List.length_cons] at hbound
    rw [List.flatMap_cons, List.append_assoc] at hs
    rw [List.length_cons, ← Nat.add_assoc,
      decLoop_push _ hst hs (hx x List.mem_cons_self) (by omega) (by omega)]
    refine ih (wk := wk.push e x) hst hs.right (fun y hy => hx y (List.mem_cons_of_mem x hy)) ?_ ?_
    · rw [DecWork.push_nsamp]
      omega
    · rw [DecWork.push_nsect]
      omega

end

/-! ### The working state after complete sections -/

/-- The working state after the complete sections `xs`. -/
def afterSections (e : DecEnv) (xs : List WireSection) : DecWork :=
  xs.foldl (DecWork.push e) DecWork.start

theorem samplesBefore_all (cfg : ActiveCfg) (xs : List WireSection) :
    samplesBefore cfg xs xs.length = (xs.map (fun x => 24 * x.prbs cfg)).sum := by
  rw [samplesBefore, List.take_length]

section
variable (e : DecEnv) (xs : List WireSection) (x : WireSection)

theorem afterSections_snoc : afterSections e (xs ++ [x]) = (afterSections e xs).push e x := by
  rw [afterSections, List.foldl_append]
  rfl

theorem afterSections_trunc : (afterSections e xs).trunc = false := by
  induction xs using List.reverseRecOn with
  | nil => rfl
  | append_singleton xs x ih => rwa [afterSections_snoc]

theorem afterSections_cur :
    (afterSections e xs).cur = 4 + (xs.flatMap (WireSection.bytes e.cfg.dyn)).length := by
  induction xs using List.reverseRecOn with
  | nil => rfl
  | append_singleton xs x ih =>
    rw [afterSections_snoc, DecWork.push_cur, ih, List.flatMap_append, List.length_append,
      List.flatMap_singleton, Nat.add_assoc]

theorem afterSections_nsect : (afterSections e xs).nsect = xs.length := by
  induction xs using List.reverseRecOn with
  | nil => rfl
  | append_singleton xs x ih =>
    rw [afterSections_snoc, DecWork.push_nsect, ih, List.length_append, List.length_singleton]

theorem afterSections_nsamp :
    (afterSections e xs).nsamp = samplesBefore e.cfg xs xs.length := by
  rw [samplesBefore_all]
  induction xs using List.reverseRecOn with
  | nil => rfl
  | append_singleton xs x ih =>
    rw [afterSections_snoc, DecWork.push_nsamp, ih, List.map_append, List.sum_append,
      List.map_singleton, List.sum_singleton]

theorem afterSections_sections_length : (afterSections e xs).sections.length = xs.length := by
  induction xs using List.reverseRecOn with
  | nil => rfl
  | append_singleton xs x ih =>
    rw [afterSections_snoc, DecWork.push_sections, List.length_append, ih, List.length_append]
    rfl

/-- Section j of the working state is section j of the message. -/
theorem afterSections_sections (j : Nat) :
    (afterSections e xs).sections[j]? =
      xs[j]?.map (fun x => x.decoded e (afterSections e (xs.take j))) := by
  induction xs using List.reverseRecOn with
  | nil => simp [afterSections, DecWork.start]
  | append_singleton xs x ih =>
    have hlen := afterSections_sections_length e xs
    rw [afterSections_snoc, DecWork.push_sections]
    rcases Nat.lt_trichotomy j xs.length with hj | rfl | hj
    · rw [List.getElem?_append_left (by rwa [hlen]), List.getElem?_append_left hj, ih,
        List.take_append_of_le_length hj.le]
    · simp [hlen]
    · simp [hlen, hj]

end

/-! ### The message -/

/-- The message of `e` is a header that every check accepts, complete sections that the sample area and
the section bound admit, and then `tail`. -/
structure DecEnv.Message (e : DecEnv) (h : MsgHeader) (xs : List WireSection) (tail : List Byte) :
    Prop where
  sees : e.Sees 0 (buildHeader h ++ (xs.flatMap (WireSection.bytes e.cfg.dyn) ++ tail))
  accepted : headerReject e.cfg h = none
  complete : ∀ x ∈ xs, x.Complete e.cfg
  bound : xs.length ≤ e.cfg.maxSec.toNat
  room : samplesBefore e.cfg xs xs.length ≤ e.cap

section
variable {e : DecEnv} {h : MsgHeader} {xs : List WireSection} {tail : List Byte}

theorem DecEnv.Message.header (hm : e.Message h xs tail) : e.header = h := by
  have hb (k : Nat) (hk : k < 4) : e.byte k = (buildHeader h).getD k 0#8 := by
    have hbyte := hm.sees.byte (k := k) (by simp; omega)
    rw [Nat.zero_add] at hbyte
    rw [hbyte, List.getD_append _ _ _ _ (by rwa [buildHeader_length])]
  obtain ⟨b0, b1, b2, b3, hbuild, hparse⟩ := parseHeader_buildHeader h
  rw [DecEnv.header, hb 0 (by omega), hb 1 (by omega), hb 2 (by omega), hb 3 (by omega), hbuild]
  exact hparse

theorem DecEnv.Message.sees_sections (hm : e.Message h xs tail) :
    e.Sees 4 (xs.flatMap (WireSection.bytes e.cfg.dyn) ++ tail) := hm.sees.right

theorem DecEnv.Message.sees_tail (hm : e.Message h xs tail) :
    e.Sees (afterSections e xs).cur tail := by
  rw [afterSections_cur]
  exact hm.sees_sections.right

/-- Section j of the message stands at the cursor that the sections before it leave. -/
theorem DecEnv.Message.sees_section (hm : e.Message h xs tail) {j : Nat} (hj : j < xs.length) :
    ∃ rest, e.Sees (afterSections e (xs.take j)).cur (xs[j].bytes e.cfg.dyn ++ rest) := by
  have hs := hm.sees_sections
  have hsplit : xs = xs.take j ++ xs[j] :: xs.drop (j + 1) := by
    rw [← List.drop_eq_getElem_cons hj, List.take_append_drop]
  rw [hsplit, List.flatMap_append, List.flatMap_cons, List.append_assoc, List.append_assoc] at hs
  rw [afterSections_cur]
  exact ⟨_, hs.right⟩

/-- The fuel is enough: the loop reaches the bytes after the sections with some left (44_decoder.md
R296). -/
theorem DecEnv.Message.decodeMessage_eq (hm : e.Message h xs tail) :
    ∃ n, decodeMessage e = decLoop (n + 1) e (afterSections e xs) := by
  have hfuel : xs.length < e.len := by
    have hlen : xs.length ≤ (xs.flatMap (WireSection.bytes e.cfg.dyn)).length := by
      rw [List.length_flatMap, ← List.length_map (fun x => (x.bytes e.cfg.dyn).length)]
      refine List.length_le_sum_of_one_le _ fun n hn => ?_
      obtain ⟨x, -, rfl⟩ := List.mem_map.mp hn
      have hbytes := x.length_bytes e.cfg
      have hfour := headBytes_ge e.cfg
      omega
    have h4 := hm.sees_sections.len
    rw [List.length_append] at h4
    omega
  have hroom := hm.room
  rw [samplesBefore_all] at hroom
  refine ⟨e.len - xs.length - 1, ?_⟩
  rw [decodeMessage, hm.header, hm.accepted]
  have hloop := decLoop_sections (wk := DecWork.start) (e.len - xs.length - 1 + 1) xs rfl
    hm.sees_sections hm.complete ((Nat.zero_add _).trans_le hroom) ((Nat.zero_add _).trans_le hm.bound)
  rw [show e.len - xs.length - 1 + 1 + xs.length = e.len by omega] at hloop
  exact hloop

/-- Nothing after the sections (44_decoder.md R276). -/
theorem DecEnv.Message.decodeMessage_end (hm : e.Message h xs []) :
    decodeMessage e = { afterSections e xs with state := .finished, trunc := false } := by
  obtain ⟨n, hn⟩ := hm.decodeMessage_eq
  rw [hn, decLoop_end _ hm.sees_tail.len.le, afterSections_trunc]

theorem DecEnv.Message.cur_lt (hm : e.Message h xs tail) (hne : tail ≠ []) :
    (afterSections e xs).cur < e.len := by
  have hlen := hm.sees_tail.len
  have hpos := List.length_pos_of_ne_nil hne
  omega

/-- A cut section after the sections (44_decoder.md R283). -/
theorem DecEnv.Message.decodeMessage_cut (hm : e.Message h xs tail) (hne : tail ≠ [])
    (hcut : tail.length < headBytes e.cfg ∨
      (¬ ReservedMethod e.cfg tail ∧ tail.length < wholeBytes e.cfg tail)) :
    decodeMessage e = { afterSections e xs with state := .finished, trunc := true } := by
  obtain ⟨n, hn⟩ := hm.decodeMessage_eq
  exact hn.trans (decLoop_truncated _ (hm.cur_lt hne) (parseSection_cut hm.sees_tail hcut))

/-- A section after the sections that a check rejects (44_decoder.md R292). -/
theorem DecEnv.Message.decodeMessage_rejected (hm : e.Message h xs tail) (hne : tail ≠ []) {c : Code}
    {off : Nat} (hp : parseSection e (afterSections e xs) = .rejected c off) :
    (decodeMessage e).state = .rejected c off := by
  obtain ⟨n, hn⟩ := hm.decodeMessage_eq
  rw [hn, decLoop_rejected _ (hm.cur_lt hne) hp]

end

end Sys2Proof.Machine
end

section
/-!
PROOFS. What the commit of the decoded sections leaves in WMEM (44_decoder.md R285, R293): the sections
lie one after the other, so every descriptor and every block of samples stands where it was written.
-/

namespace Sys2Proof.Machine

/-! ### The commit -/

section
variable {dt sa : Nat} {m : Memory 16}

/-- Outside the descriptors and the samples of the sections the commit leaves WMEM as it was. -/
theorem read_commitSections_out (ds : List Section) {j a : Nat}
    (hdt : a < dt + 8 * j ∨ dt + 8 * (j + ds.length) ≤ a)
    (hsa : ∀ d ∈ ds, a < sa + d.offset ∨ sa + d.offset + d.samples.length ≤ a) :
    Memory.read (commitSections dt sa j ds m) a = Memory.read m a := by
  induction ds generalizing j m with
  | nil => rfl
  | cons d rest ih =>
    rw [List.length_cons] at hdt
    rw [commitSections, ih (by omega) fun x hx => hsa x (List.mem_cons_of_mem d hx),
      Memory.read_writeRange_out _ _ _ (hsa d List.mem_cons_self),
      Memory.read_writeRange_out _ _ _ (by rw [descriptorWords_length]; omega)]

/-- The samples of the sections lie one after the other, below `n` (44_decoder.md R287). -/
structure Laid (n : Nat) (ds : List Section) : Prop where
  below : ∀ d ∈ ds, d.offset + d.samples.length ≤ n
  inOrder : ds.Pairwise (fun c d => c.offset + c.samples.length ≤ d.offset)

/-- The commit leaves every descriptor and the samples of every section in their place. -/
theorem holds_commitSections (hm : Memory.wf m) {size cap : Nat} (hap : Apart dt (8 * size) sa cap)
    {ds : List Section} {j k : Nat} (hlaid : Laid cap ds) (hsize : j + ds.length ≤ size)
    (hk : k < ds.length) :
    Holds (commitSections dt sa j ds m) (dt + 8 * (j + k)) (descriptorWords ds[k]) ∧
      Holds (commitSections dt sa j ds m) (sa + ds[k].offset) ds[k].samples := by
  unfold Apart at hap
  induction ds generalizing j k m with
  | nil => cases hk
  | cons d rest ih =>
    obtain ⟨hbelow, hpair⟩ := hlaid
    obtain ⟨hnext, hrest⟩ := List.pairwise_cons.mp hpair
    rw [List.length_cons] at hsize hk
    rw [commitSections]
    have hwf := Memory.writeRange_wf hm (dt + 8 * j) (descriptorWords d)
    cases k with
    | succ k =>
      have hj : j + (k + 1) = j + 1 + k := by omega
      rw [hj]
      exact ih (Memory.writeRange_wf hwf _ _)
        ⟨fun x hx => hbelow x (List.mem_cons_of_mem d hx), hrest⟩ (by omega) (by omega)
    | zero =>
      have hd : d.offset + d.samples.length ≤ cap := hbelow d List.mem_cons_self
      constructor
      · refine (holds_writeRange hm (dt + 8 * j) (descriptorWords d)).congr fun i hi => ?_
        rw [descriptorWords_length] at hi
        rw [Nat.add_zero, read_commitSections_out rest (by omega) fun x hx => ?_,
          Memory.read_writeRange_out _ _ _ (by omega)]
        have hx := hbelow x (List.mem_cons_of_mem d hx)
        omega
      · refine (holds_writeRange hwf (sa + d.offset) d.samples).congr fun i hi => ?_
        refine read_commitSections_out rest (by omega) fun x hx => .inl ?_
        have hx := hnext x hx
        omega

end

theorem WireSection.decoded_samples_length (e : DecEnv) (wk : DecWork) (x : WireSection) :
    (x.decoded e wk).samples.length = 24 * x.prbs e.cfg := sectionSamples_length _ _ _ _ _

/-- The sections of the working state lie one after the other (44_decoder.md R287). -/
theorem afterSections_laid (e : DecEnv) (xs : List WireSection) :
    Laid (afterSections e xs).nsamp (afterSections e xs).sections := by
  induction xs using List.reverseRecOn with
  | nil => exact ⟨nofun, List.Pairwise.nil⟩
  | append_singleton xs x ih =>
    rw [afterSections_snoc, DecWork.push_nsamp, DecWork.push_sections]
    constructor
    · intro d hd
      rcases List.mem_append.mp hd with hd | hd
      · exact (ih.below d hd).trans (Nat.le_add_right _ _)
      · rw [List.mem_singleton.mp hd, x.decoded_samples_length]
        exact Nat.le_refl _
    · refine List.pairwise_append.mpr
        ⟨ih.inOrder, List.pairwise_singleton _ _, fun c hc d hd => ?_⟩
      rw [List.mem_singleton.mp hd]
      exact ih.below c hc

/-! ### The descriptor and the samples of a section -/

/-- The flags of a descriptor (30_encoding.md R141). -/
theorem descriptorFlags (rb symInc all : Bool) :
    BitVec.setWidth 16 (BitVec.ofBool all ++ BitVec.ofBool false ++ BitVec.ofBool (!symInc) ++
        BitVec.ofBool (!rb)) =
      BitVec.ofNat 16 ((if rb then 0 else 1) + (if symInc then 0 else 2) + if all then 8 else 0) := by
  decide +revert

theorem descriptorWords_decoded (e : DecEnv) (wk : DecWork) (x : WireSection) :
    descriptorWords (x.decoded e wk) =
      [ x.header.sectionId.setWidth 16,
        BitVec.ofNat 16 ((if x.header.rb then 0 else 1) + (if x.header.symInc then 0 else 2) +
          if x.header.nofPrb = 0#8 then 8 else 0),
        BitVec.ofNat 16 (if x.header.nofPrb = 0#8 then 0 else x.header.startPrb.toNat),
        BitVec.ofNat 16 (x.prbs e.cfg),
        BitVec.ofNat 16 (x.methodIn e.cfg + 16 * x.widthIn e.cfg),
        0#16, BitVec.ofNat 16 (wk.nsamp % 65536), BitVec.ofNat 16 (wk.nsamp / 65536) ] := by
  have hflags := descriptorFlags x.header.rb x.header.symInc (x.header.nofPrb == 0#8)
  simp only [beq_iff_eq] at hflags
  rw [← hflags]
  rfl

section
variable {m : Memory 8} {w i : Nat} {v : Sample} (hw : 1 ≤ w) (hw16 : w ≤ 16) (hi : i < 24)
include hw hw16 hi

/-- Value i of an unpacked block is the word that is field i of its stream (41_bitpack.md R192). -/
theorem unpackBits_of_isField {base : Nat} (hv : IsField m base w i v) :
    (unpackBits w 24 (Memory.readRange m base (3 * w)))[i]? = some v.toInt := by
  have hlt : i < (unpackBits w 24 (Memory.readRange m base (3 * w))).length := by simpa using hi
  have hfield := isField_unpackBits m base (n := 24) (nb := 3 * w) hw hi (by omega)
  rw [List.getD_eq_getElem _ _ hlt] at hfield
  obtain ⟨u, hu, heq⟩ := mem_readFields (List.getElem_mem hlt)
  rw [List.getElem?_eq_getElem hlt, hv.unique hfield, heq, toInt_tc16_sext hw hw16 hu]

/-- Sample i of a resource block is the float of field i of its payload, under the exponent byte for
method 1 and under 0 for method 0 (44_decoder.md R285). -/
theorem rbSamples_of_isField (fmt : FloatFmt) {method rb : Nat} (hm : method = 0 ∨ method = 1)
    (hv : IsField m (rb + if method = 1 then 1 else 0) w i v) :
    (rbSamples fmt method w (Memory.readRange m rb (prbSize method w)))[i]? =
      some (toFloat fmt v.toInt (if method = 1 then (Memory.read m rb).toNat else 0)) := by
  rw [prbSize_eq]
  rcases hm with rfl | rfl
  · have hvalue := unpackBits_of_isField hw hw16 hi hv
    exact List.getElem?_map.trans (congrArg (Option.map fun q => toFloat fmt q 0) hvalue)
  · have hvalue := unpackBits_of_isField hw hw16 hi hv
    have hblock : Memory.readRange m rb (3 * w + 1) =
      Memory.read m rb :: Memory.readRange m (rb + 1) (3 * w) := Memory.readRange_succ m rb (3 * w)
    exact (congrArg (fun b => (rbSamples fmt 1 w b)[i]?) hblock).trans (List.getElem?_map.trans
      (congrArg (Option.map fun q => toFloat fmt q (Memory.read m rb).toNat) hvalue))

end

section
variable {s : State} {m : Memory 16} {j : Nat} {wk : DecWork} {x : WireSection}

/-- The payload of a section stands after its headers. -/
theorem DecEnv.Sees.payload {e : DecEnv} {cur : Nat} {rest : List Byte}
    (hs : e.Sees cur (x.bytes e.cfg.dyn ++ rest)) :
    Holds e.mem (e.base + (cur + headBytes e.cfg)) x.payload := by
  have hfront : (buildSecHeader x.header ++
      if e.cfg.dyn then [x.code ++ x.method, x.reserved] else []).length = headBytes e.cfg := by
    unfold headBytes
    cases e.cfg.dyn <;> rfl
  rw [← hfront, ← Nat.add_assoc]
  exact hs.holds.left.right

/-- A complete section whose descriptor and samples stand in WMEM is written as the rules say. -/
theorem WireSection.writtenIn {rest : List Byte}
    (hs : (decEnv s).Sees wk.cur (x.bytes s.cfg.dyn ++ rest)) (hx : x.Complete s.cfg)
    (hd : Holds m (s.engArg.r2.toNat + 8 * j) (descriptorWords (x.decoded (decEnv s) wk)))
    (hsamples : Holds m (s.engArg.r3.toNat + wk.nsamp) (x.decoded (decEnv s) wk).samples) :
    x.WrittenIn s m j (s.engArg.r0.toNat + (wk.cur + headBytes s.cfg)) wk.nsamp := by
  have hlead : prbSize (x.methodIn s.cfg) (x.widthIn s.cfg) =
      3 * x.widthIn s.cfg + if x.methodIn s.cfg = 1 then 1 else 0 := by
    rw [prbSize_eq]
    rcases hx.1 with h | h <;> rw [h] <;> rfl
  refine ⟨by rwa [descriptorWords_decoded] at hd, fun k hk => ?_⟩
  have hfit : k * prbSize (x.methodIn s.cfg) (x.widthIn s.cfg) +
      prbSize (x.methodIn s.cfg) (x.widthIn s.cfg) ≤ x.payload.length := by
    rw [hx.2, ← Nat.succ_mul]
    exact Nat.mul_le_mul_right _ hk
  have hblock : Holds m (s.engArg.r3.toNat + wk.nsamp + 24 * k)
      (rbSamples s.params.floatFmt (x.methodIn s.cfg) (x.widthIn s.cfg)
        (Memory.readRange s.bmem (s.engArg.r0.toNat + (wk.cur + headBytes s.cfg) +
          k * prbSize (x.methodIn s.cfg) (x.widthIn s.cfg))
          (prbSize (x.methodIn s.cfg) (x.widthIn s.cfg)))) := by
    rw [Nat.add_assoc s.engArg.r0.toNat]
    exact hsamples.piece (fun _ _ => rbSamples_length _ _ _ _) hk
  refine ⟨hs.payload.readRange hfit ▸ hblock, fun hw hw16 i v hi hv => ?_⟩
  rw [← hlead] at hv ⊢
  have hvalue := rbSamples_of_isField hw hw16 hi s.params.floatFmt hx.1 hv
  obtain ⟨hlt, heq⟩ := List.getElem?_eq_some_iff.mp hvalue
  exact (hblock i hlt).trans heq

end

/-! ### The whole message -/

theorem samplesBefore_take (cfg : ActiveCfg) (xs : List WireSection) (j : Nat) :
    samplesBefore cfg (xs.take j) (xs.take j).length = samplesBefore cfg xs j := by
  rw [samplesBefore, List.take_length, samplesBefore]

/-- What the commit of the sections of a message leaves in WMEM: every section in its place, and every
other address as it was (44_decoder.md R293). -/
theorem DecEnv.Message.committed {s : State} {h : MsgHeader} {xs : List WireSection}
    {tail : List Byte} (hm : (decEnv s).Message h xs tail) (hwf : Memory.wf s.wmem)
    (hap : Apart s.engArg.r2.toNat (8 * s.cfg.maxSec.toNat) s.engArg.r3.toNat s.engArg.r4.toNat) :
    let dt := s.engArg.r2.toNat
    let sa := s.engArg.r3.toNat
    let payload := fun (j : Nat) => s.engArg.r0.toNat + 4 +
      ((xs.take j).flatMap (WireSection.bytes s.cfg.dyn)).length + 4 +
        if s.cfg.dyn = true then 2 else 0
    let m := commitSections dt sa 0 (afterSections (decEnv s) xs).sections s.wmem
    (∀ j, ∀ hj : j < xs.length, xs[j].WrittenIn s m j (payload j) (samplesBefore s.cfg xs j)) ∧
    ∀ a, (a < dt ∨ dt + 8 * xs.length ≤ a) →
      (a < sa ∨ sa + samplesBefore s.cfg xs xs.length ≤ a) →
        Memory.read m a = Memory.read s.wmem a := by
  intro dt sa payload m
  have hlaid := afterSections_laid (decEnv s) xs
  have hcount := afterSections_sections_length (decEnv s) xs
  rw [afterSections_nsamp] at hlaid
  constructor
  · intro j hj
    obtain ⟨rest, hsees⟩ := hm.sees_section hj
    have hsection := afterSections_sections (decEnv s) xs j
    rw [List.getElem?_eq_getElem hj, Option.map_some] at hsection
    obtain ⟨hlt, heq⟩ := List.getElem?_eq_some_iff.mp hsection
    have hroom : Laid s.engArg.r4.toNat (afterSections (decEnv s) xs).sections :=
      ⟨fun d hd => (hlaid.below d hd).trans hm.room, hlaid.inOrder⟩
    have hheld := holds_commitSections (j := 0) hwf hap hroom
      (by rw [hcount, Nat.zero_add]; exact hm.bound) hlt
    rw [heq, Nat.zero_add] at hheld
    have hwritten := WireSection.writtenIn hsees (hm.complete _ (List.getElem_mem hj)) hheld.1 hheld.2
    rw [afterSections_nsamp, afterSections_cur] at hwritten
    have hsamples : samplesBefore (decEnv s).cfg (xs.take j) (xs.take j).length =
        samplesBefore s.cfg xs j := samplesBefore_take _ _ _
    have hpayload : s.engArg.r0.toNat + (4 +
        ((xs.take j).flatMap (WireSection.bytes (decEnv s).cfg.dyn)).length + headBytes s.cfg) =
          payload j := by
      simp only [payload, headBytes, Nat.add_assoc]
      rfl
    rwa [hsamples, hpayload] at hwritten
  · intro a hdt hsa
    refine read_commitSections_out _ (by rw [hcount]; omega) fun d hd => ?_
    have hd := hlaid.below d hd
    have htotal : samplesBefore (decEnv s).cfg xs xs.length = samplesBefore s.cfg xs xs.length := rfl
    omega

section
variable {s : State} {h : MsgHeader} {xs : List WireSection} {tail : List Byte}

/-- A header that every check accepts (44_decoder.md R274, R275). -/
theorem headerReject_none {cfg : ActiveCfg} (hd : h.direction = cfg.decDir)
    (hv : h.version = cfg.version) (hf : h.filter ≠ 15#4) (hsub : h.subframe.toNat < 10)
    (hslot : h.slot.toNat < 2 ^ cfg.mu.toNat) (hsym : h.symbol.toNat < cfg.syms.toNat) :
    headerReject cfg h = none := by
  rw [headerReject_identified hd hv hf, if_neg hsub.not_ge, if_neg hslot.not_ge, if_neg hsym.not_ge]

/-- The message in BMEM is the one the decoder reads. -/
theorem decEnv_message
    (hlen : s.engArg.r1.toNat =
      (buildHeader h ++ xs.flatMap (WireSection.bytes s.cfg.dyn) ++ tail).length)
    (hbytes : Holds s.bmem s.engArg.r0.toNat
      (buildHeader h ++ xs.flatMap (WireSection.bytes s.cfg.dyn) ++ tail))
    (haccepted : headerReject s.cfg h = none) (hcomplete : ∀ x ∈ xs, x.Complete s.cfg)
    (hbound : xs.length ≤ s.cfg.maxSec.toNat)
    (hroom : samplesBefore s.cfg xs xs.length ≤ s.engArg.r4.toNat) :
    (decEnv s).Message h xs tail := by
  rw [List.append_assoc] at hlen hbytes
  exact ⟨⟨hlen.trans (Nat.zero_add _).symm, hbytes⟩, haccepted, hcomplete, hbound, hroom⟩

theorem DecEnv.Message.four_le (hm : (decEnv s).Message h xs tail) : 4 ≤ s.engArg.r1.toNat := by
  have hlen : s.engArg.r1.toNat = 4 + _ := hm.sees_sections.len
  omega

theorem msgDecRun_rejected (hm : (decEnv s).Message h xs tail) (hne : tail ≠ []) {c : Code}
    {off : Nat} (hp : parseSection (decEnv s) (afterSections (decEnv s) xs) = .rejected c off) :
    msgDecRun s = complete c
      { s with res := { s.res with r1 := headerWord h, r3 := word off } } := by
  rw [msgDecRun_long hm.four_le, finishDecode_rejected (hm.decodeMessage_rejected hne hp), hm.header]

/-- A message with a section ends OK, cut or not (44_decoder.md R291). -/
theorem msgDecRun_ok (hm : (decEnv s).Message h xs tail) (hne : xs ≠ []) {cut : Bool}
    (hdec : decodeMessage (decEnv s) =
      { afterSections (decEnv s) xs with state := .finished, trunc := cut }) :
    msgDecRun s = complete .ok
      { s with
        wmem := commitSections s.engArg.r2.toNat s.engArg.r3.toNat 0
          (afterSections (decEnv s) xs).sections s.wmem
        res :=
          { s.res with
            r0 := word xs.length
            r1 := headerWord h
            r2 := word (samplesBefore s.cfg xs xs.length)
            r3 := if cut then word (afterSections (decEnv s) xs).cur else 0#32
            r4 := if cut then 1#32 else 0#32
            r5 := word (afterSections (decEnv s) xs).cur } } := by
  have hsome : (afterSections (decEnv s) xs).nsect ≠ 0 := by
    rw [afterSections_nsect]
    exact fun h0 => hne (List.eq_nil_of_length_eq_zero h0)
  have hstate : (decodeMessage (decEnv s)).state = .finished := by rw [hdec]
  rw [msgDecRun_long hm.four_le, finishDecode_ok hstate (by rwa [hdec]), hdec, hm.header]
  simp only [afterSections_nsect, afterSections_nsamp]
  rfl

theorem msgDecRun_noSection (hm : (decEnv s).Message h [] []) :
    msgDecRun s = complete .noValidSection
      { s with
        res := { s.res with r1 := headerWord h, r3 := s.engArg.r1, r5 := 4#32 } } := by
  rw [msgDecRun_long hm.four_le, hm.decodeMessage_end, finishDecode_noSection rfl rfl rfl, hm.header]

theorem msgDecRun_incomplete (hm : (decEnv s).Message h [] tail) (hne : tail ≠ [])
    (hcut : tail.length < headBytes s.cfg ∨
      (¬ ReservedMethod s.cfg tail ∧ tail.length < wholeBytes s.cfg tail)) :
    msgDecRun s = complete .incomplete
      { s with
        res := { s.res with r1 := headerWord h, r3 := 4#32, r4 := 1#32, r5 := 4#32 } } := by
  rw [msgDecRun_long hm.four_le, hm.decodeMessage_cut hne hcut, finishDecode_incomplete rfl rfl rfl,
    hm.header]
  rfl

end

/-- The number of a register, as a register. -/
theorem word_toNat (v : Word) : word v.toNat = v :=
  (BitVec.ofNat_toNat 32 v).trans (BitVec.setWidth_eq v)

/-- Settles O53: the loop takes every section, and the commit writes them. -/
theorem msgDecDecodesCompleteMessages : Obligations.MsgDecDecodesCompleteMessages := by
  intro s h xs mb dt sa cfg bytes total payload hc hwf hlen hbytes hmsg hdt hsa hap hd hv hf hsub
    hslot hsym hne hbound hcomplete hroom
  rw [← hlen] at hmsg
  have hp : precheck .msgDec s = none := precheck_msgDec hc hmsg hdt hsa hap
  have hm : (decEnv s).Message h xs [] :=
    decEnv_message (by rwa [List.append_nil]) (by rwa [List.append_nil])
      (headerReject_none hd hv hf hsub hslot hsym) hcomplete hbound hroom
  have hend : word (afterSections (decEnv s) xs).cur = s.engArg.r1 :=
    (congrArg word hm.sees_tail.len.symm).trans (word_toNat _)
  have hrun := msgDecRun_ok hm hne hm.decodeMessage_end
  rw [hend] at hrun
  exact ⟨_, guarded_run_eq hp hrun, hm.committed hwf hap⟩

/-- Settles O54: the loop takes the complete sections, and the bytes after them end it. -/
theorem msgDecReportsEmptyAndCutMessages : Obligations.MsgDecReportsEmptyAndCutMessages := by
  intro s h xs tail mb dt sa cap cfg bytes total payload toff sec n comp method width head full
    reserved ends rejects hc hlen hbytes hmsg hdt hsa hap hd hv hf hsub hslot hsym hbound hcomplete
    hroom
  rw [← hlen] at hmsg
  have hp : precheck .msgDec s = none := precheck_msgDec hc hmsg hdt hsa hap
  have hm : (decEnv s).Message h xs tail :=
    decEnv_message hlen hbytes (headerReject_none hd hv hf hsub hslot hsym) hcomplete hbound hroom
  have hcur : (afterSections (decEnv s) xs).cur = toff := by
    have htail : s.engArg.r1.toNat = _ + tail.length := hm.sees_tail.len
    omega
  have hnsamp : (afterSections (decEnv s) xs).nsamp = total := afterSections_nsamp _ _
  have hfull : wholeBytes cfg tail = full := by
    rw [wholeBytes, prbSize_eq]
    rfl
  have hne (hle : head ≤ tail.length) : tail ≠ [] :=
    List.ne_nil_of_length_pos (Nat.lt_of_lt_of_le four_pos ((headBytes_ge cfg).trans hle))
  have hreject (c : Code) (off : Nat) (hle : head ≤ tail.length)
      (hparse : parseSection (decEnv s) (afterSections (decEnv s) xs) = .rejected c off) :=
    guarded_run_eq hp (msgDecRun_rejected hm (hne hle) hparse)
  refine ⟨?empty, fun htail hcut => ⟨?incomplete, fun hxs hwf => ?truncated⟩,
    fun hle hres => ?reserved, fun hres hwhole => ?whole⟩
  case empty =>
    rintro rfl rfl
    have hfour : s.engArg.r1 = 4#32 := BitVec.eq_of_toNat_eq hlen
    have hrun := msgDecRun_noSection hm
    rw [hfour] at hrun
    exact guarded_run_eq hp hrun
  case incomplete =>
    rintro rfl
    rw [← hfull] at hcut
    exact guarded_run_eq hp (msgDecRun_incomplete hm htail hcut)
  case truncated =>
    rw [← hfull] at hcut
    have hrun := msgDecRun_ok hm hxs (hm.decodeMessage_cut htail hcut)
    rw [hcur] at hrun
    exact ⟨_, guarded_run_eq hp hrun, hm.committed hwf hap⟩
  case reserved =>
    have hparse := parseSection_reserved hm.sees_tail hle hres
    rw [hcur] at hparse
    exact hreject .malformed (toff + 4) hle hparse
  case whole =>
    have hle : head ≤ tail.length := (headBytes_le_wholeBytes cfg tail).trans (hfull.trans_le hwhole)
    have hparse := parseSection_rejects hm.sees_tail hres (hfull.trans_le hwhole)
    rw [hcur, hnsamp, afterSections_nsect] at hparse
    obtain ⟨hunsupported, hchecks⟩ := hparse
    exact ⟨fun h0 h1 => hreject .unsupportedMethod toff hle (hunsupported h0 h1), fun hmethod =>
      ⟨fun hcap => hreject .contractViolation toff hle ((hchecks hmethod).1 hcap), fun hcap hmax =>
        hreject .rejectedSemantic toff hle ((hchecks hmethod).2 hcap hmax)⟩⟩

end Sys2Proof.Machine
end

section
/-!
PROOFS. The requests and the bytes of the message encoder (45_encoder.md R321 to R328): the header
context as numbers, the checks of MSG_ENC, and the wire layout of one message.
-/

namespace Sys2Proof.Machine

/-! ### The header context -/

/-- The context fields of a header as numbers of ARG4 (45_encoder.md R321). -/
theorem contextHeader_fields (cfg : ActiveCfg) (a4 : Word) :
    let h := contextHeader cfg a4
    h.frame.toNat = a4.toNat % 256 ∧ h.subframe.toNat = a4.toNat / 256 % 16 ∧
    h.slot.toNat = a4.toNat / 4096 % 64 ∧ h.symbol.toNat = a4.toNat / 262144 % 64 := by
  simp only [contextHeader, toNat_extractLsb']
  omega

/-- 45_encoder.md R322, check 2, as numbers of ARG4. -/
theorem badContext_eq_false_iff (cfg : ActiveCfg) (a4 : Word) :
    badContext cfg a4 = false ↔
      a4.toNat / 16777216 = 0 ∧ a4.toNat / 256 % 16 < 10 ∧
        a4.toNat / 4096 % 64 < 2 ^ cfg.mu.toNat ∧ a4.toNat / 262144 % 64 < cfg.syms.toNat := by
  obtain ⟨-, hsub, hslot, hsym⟩ := contextHeader_fields cfg a4
  have hrest : a4.extractLsb' 24 8 = 0#8 ↔ a4.toNat / 16777216 = 0 := by
    rw [← BitVec.toNat_inj, toNat_extractLsb', BitVec.toNat_ofNat]
    omega
  simp only [badContext, Bool.or_eq_false_iff, bne_eq_false_iff_eq, decide_eq_false_iff_not, not_le,
    hrest, hsub, hslot, hsym, and_assoc]

/-! ### The checks of MSG_ENC -/

section
variable {w : BitVec 5} {meth : BitVec 4} {s : State}

/-- 45_encoder.md R322, checks 2 to 4, as numbers. -/
theorem encContract_eq_false_iff :
    encContract w meth s = false ↔
      s.engArg.r4.toNat / 16777216 = 0 ∧ s.engArg.r4.toNat / 256 % 16 < 10 ∧
        s.engArg.r4.toNat / 4096 % 64 < 2 ^ s.cfg.mu.toNat ∧
        s.engArg.r4.toNat / 262144 % 64 < s.cfg.syms.toNat ∧ s.engArg.r2.toNat ≤ 65535 ∧
        (s.cfg.dyn = false → meth = s.cfg.method ∧ w = s.cfg.bw) := by
  have hstatic : (!s.cfg.dyn && !(meth == s.cfg.method && w == s.cfg.bw)) = false ↔
      (s.cfg.dyn = false → meth = s.cfg.method ∧ w = s.cfg.bw) := by
    cases s.cfg.dyn <;> simp
  rw [encContract, Bool.or_eq_false_iff, Bool.or_eq_false_iff, badContext_eq_false_iff, hstatic,
    decide_eq_false_iff_not, not_lt]
  simp only [and_assoc]

/-- 45_encoder.md R323. -/
theorem encSupported_iff :
    encSupported w meth = true ↔ meth = 1#4 ∨ (meth = 0#4 ∧ w = 16#5) := by
  simp only [encSupported, Bool.or_eq_true, Bool.and_eq_true, beq_iff_eq]

/-- The bytes of one RB of a supported request (45_encoder.md R324; 30_encoding.md R134). -/
theorem prbSize_of_encSupported (h : encSupported w meth = true) :
    prbSize meth.toNat w.toNat = 3 * w.toNat + if meth = 1#4 then 1 else 0 := by
  rw [prbSize_eq]
  rcases encSupported_iff.mp h with rfl | ⟨rfl, rfl⟩ <;> rfl

/-- The checks before MSG_ENC pass for legal fields and regions (60_exceptions.md R351). -/
theorem precheck_msgEnc_legal (hw1 : 1 ≤ w.toNat) (hw16 : w.toNat ≤ 16) (hm : meth.toNat < 7)
    (hc : s.cfgOk = true)
    (hsrc : InRange s.params.wmemSize s.engArg.r0.toNat (24 * s.cfg.nofPrb.toNat))
    (hout : InRange s.params.bmemSize s.engArg.r1.toNat (s.engArg.r3.toNat * s.engArg.r2.toNat))
    (htab : InRange s.params.wmemSize s.engArg.r5.toNat s.engArg.r3.toNat)
    (hap : Apart s.engArg.r0.toNat (24 * s.cfg.nofPrb.toNat) s.engArg.r5.toNat s.engArg.r3.toNat) :
    precheck (.msgEnc w meth) s = none :=
  precheck_msgEnc ((legalWidth_iff w).mpr ⟨hw1, hw16⟩) (decide_eq_true hm) hc hsrc hout htab hap

/-- 45_encoder.md R322. -/
theorem msgEncRun_badRequest (h : encContract w meth s = true) :
    msgEncRun w meth s = complete .contractViolation s := if_pos h

/-- 45_encoder.md R323. -/
theorem msgEncRun_unsupported (hc : encContract w meth s = false) (h : encSupported w meth = false) :
    msgEncRun w meth s = complete .unsupportedMethod s := by
  simp [msgEncRun, hc, h]

/-- 45_encoder.md R324, R325. -/
theorem msgEncRun_tooSmall (hc : encContract w meth s = false) (hs : encSupported w meth = true)
    (h : s.engArg.r2.toNat < encOverhead s.cfg + prbSize meth.toNat w.toNat) :
    msgEncRun w meth s = complete .fragmentTooSmall s := by
  simp [msgEncRun, hc, hs, h]

/-- 45_encoder.md R326. -/
theorem msgEncRun_fits (hc : encContract w meth s = false) (hs : encSupported w meth = true)
    (h : encOverhead s.cfg + prbSize meth.toNat w.toNat ≤ s.engArg.r2.toNat) :
    msgEncRun w meth s =
      finishEncode s (encLoop s.cfg.nofPrb.toNat (encEnv w meth s) (encStart s)) := by
  simp [msgEncRun, hc, hs, h.not_gt]

end

/-- Settles O57, by the three checks in their order. -/
theorem msgEncRejectsBadRequests : Obligations.MsgEncRejectsBadRequests := by
  intro s w meth ctx ends contract supported hw1 hw16 hm hc hsrc hout htab hap
  have hp := precheck_msgEnc_legal hw1 hw16 hm hc hsrc hout htab hap
  have hcontract : encContract w meth s = false ↔ contract := encContract_eq_false_iff
  have hsupported : encSupported w meth = true ↔ supported := encSupported_iff
  refine ⟨fun hbad => ?contract, fun hgood hno => ?unsupported, fun hgood hyes hsize => ?tooSmall⟩
  case contract =>
    rw [← hcontract, Bool.not_eq_false] at hbad
    exact guarded_run_eq hp (msgEncRun_badRequest hbad)
  case unsupported =>
    rw [← hsupported, Bool.not_eq_true] at hno
    exact guarded_run_eq hp (msgEncRun_unsupported (hcontract.mpr hgood) hno)
  case tooSmall =>
    have hs := hsupported.mpr hyes
    rw [← prbSize_of_encSupported hs] at hsize
    exact guarded_run_eq hp (msgEncRun_tooSmall (hcontract.mpr hgood) hs hsize)

/-! ### The bytes of a message -/

/-- A message header, byte by byte (30_encoding.md R125, R126). -/
theorem buildHeader_eq (h : MsgHeader) :
    buildHeader h =
      [ (if h.direction then 128 else 0) + h.version.toNat * 16 + h.filter.toNat, h.frame.toNat,
        h.subframe.toNat * 16 + h.slot.toNat / 4,
        h.slot.toNat % 4 * 64 + h.symbol.toNat ].map (BitVec.ofNat 8) := by
  have hdir : (if h.direction then 128 else 0) = h.direction.toNat * 128 := by
    cases h.direction <;> rfl
  have := h.direction.toNat_lt
  simp only [hdir, buildHeader, List.map_cons, List.map_nil, List.cons.injEq, and_true,
    ← BitVec.toNat_inj, toNat_append, toNat_extractLsb', BitVec.toNat_ofBool, BitVec.toNat_ofNat]
  omega

/-- The section header of a message of the encoder (45_encoder.md R327). -/
def encSecHeader (sid : BitVec 12) (p n : Nat) : SecHeader :=
  { sectionId := sid, rb := false, symInc := false, startPrb := BitVec.ofNat 10 p,
    nofPrb := BitVec.ofNat 8 n }

/-- The section header of the encoder, byte by byte (45_encoder.md R327). -/
theorem buildSecHeader_encSecHeader (sid : BitVec 12) {p : Nat} (hp : p < 1024) (n : Nat) :
    buildSecHeader (encSecHeader sid p n) =
      [sid.toNat / 16, sid.toNat % 16 * 16 + p / 256, p % 256, n].map (BitVec.ofNat 8) := by
  simp only [buildSecHeader, encSecHeader, List.map_cons, List.map_nil, List.cons.injEq, and_true,
    ← BitVec.toNat_inj, toNat_append, toNat_extractLsb', BitVec.toNat_ofBool, BitVec.toNat_ofNat,
    Bool.toNat_false]
  omega

/-- The compression header, byte by byte (45_encoder.md R327). -/
theorem buildCompHeader_eq (meth : BitVec 4) (w : Nat) :
    buildCompHeader meth w = [w % 16 * 16 + meth.toNat, 0].map (BitVec.ofNat 8) := by
  simp only [buildCompHeader, codeOfWidth, List.map_cons, List.map_nil, List.cons.injEq, and_true,
    ← BitVec.toNat_inj, toNat_append, BitVec.toNat_ofNat]
  omega

/-- The payload of one RB by the method code (45_encoder.md R328). -/
theorem encRb_eq (rule : ExpRule) (meth : BitVec 4) (w : Nat) (q : List Int) :
    encRb rule meth.toNat w q = if meth = 1#4 then compressRb rule q w else packBits 16 q := by
  simp only [encRb, method_eq_iff meth 1 (by omega)]

/-- Settles O56, header by header. -/
theorem messageBytesFollowTheWireLayout : Obligations.MessageBytesFollowTheWireLayout := by
  intro cfg rule a4 w meth rb sid p n hp _ frame subframe slot symbol head
  obtain ⟨hframe, hsub, hslot, hsym⟩ := contextHeader_fields cfg a4
  have hcomp : (if cfg.dyn then buildCompHeader meth w.toNat else []) =
      (if cfg.dyn then [w.toNat % 16 * 16 + meth.toNat, 0] else []).map (BitVec.ofNat 8) := by
    cases cfg.dyn with
    | false => rfl
    | true => exact buildCompHeader_eq meth w.toNat
  have hhead : buildHeader (contextHeader cfg a4) ++ buildSecHeader (encSecHeader sid p n) ++
      (if cfg.dyn then buildCompHeader meth w.toNat else []) = head.map (BitVec.ofNat 8) := by
    rw [buildHeader_eq, hframe, hsub, hslot, hsym, buildSecHeader_encSecHeader sid hp, hcomp,
      ← List.map_append, ← List.map_append]
    rfl
  have hpayload : (fun k => encRb rule meth.toNat w.toNat (rb (p + k))) = fun k =>
      if meth = 1#4 then compressRb rule (rb (p + k)) w.toNat else packBits 16 (rb (p + k)) :=
    funext fun k => encRb_eq rule meth w.toNat (rb (p + k))
  rw [← hhead, ← hpayload]
  rfl

end Sys2Proof.Machine
end

section
/-!
PROOFS. A message of the encoder read by the decoder (45_encoder.md R335, law 2): it is a header and one
complete section, and the decoder's samples of each RB are those of the values the encoder packed.
-/

namespace Sys2Proof.Machine

/-! ### One resource block through the encoder and back -/

/-- Piece k of n pieces of `size` elements each. -/
theorem take_drop_flatMap_range {α : Type} {n size : Nat} {f : Nat → List α}
    (hf : ∀ k, k < n → (f k).length = size) {k : Nat} (hk : k < n) :
    (((List.range n).flatMap f).drop (k * size)).take size = f k := by
  refine List.ext_getElem? fun i => ?_
  rw [List.getElem?_take, List.getElem?_drop]
  split
  · exact flatMap_range_getElem? n size f hf hk ‹_›
  · rw [List.getElem?_eq_none (by rw [hf k hk]; omega)]

theorem fits_sixteen {v : Int} (hv : -32768 ≤ v ∧ v ≤ 32767) : fits v 16 = true :=
  (fits_iff v 16).mpr hv

theorem asr_zero (v : Int) : asr v 0 = v := Int.ediv_one v

/-- The exponent an RB of the encoder is read back under (45_encoder.md R328, R335). -/
def encExponent (rule : ExpRule) (meth : BitVec 4) (w : Nat) (q : List Int) : Nat :=
  if meth = 1#4 then exponent rule q w else 0

/-- The decoder's samples of an RB of the encoder (45_encoder.md R335). -/
theorem rbSamples_encRb (fmt : FloatFmt) (rule : ExpRule) {w : BitVec 5} {meth : BitVec 4}
    (hw1 : 1 ≤ w.toNat) (hw16 : w.toNat ≤ 16) (hs : encSupported w meth = true) {q : List Int}
    (hlen : q.length = 24) (hq : Int16s q) :
    rbSamples fmt meth.toNat w.toNat (encRb rule meth.toNat w.toNat q) =
      q.map fun v => toFloat fmt (asr v (encExponent rule meth w.toNat q))
        (encExponent rule meth w.toNat q) := by
  rcases encSupported_iff.mp hs with rfl | ⟨rfl, rfl⟩
  case inl =>
    change decompressRbFloat fmt (compressRb rule q w.toNat) w.toNat = _
    rw [decompressRbFloat, rbExponent_compressRb hw1 hw16 hq, rbMantissas_compressRb hw1 hw16 hlen hq,
      List.map_map]
    rfl
  case inr =>
    have hback : unpackBits 16 24 (packBits 16 q) = q :=
      hlen ▸ unpackBits_packBits (by omega) fun v hv => fits_sixteen (hq v hv)
    change (unpackBits 16 24 (packBits 16 q)).map (fun m => toFloat fmt m 0) =
      q.map fun v => toFloat fmt (asr v 0) 0
    simp only [hback, asr_zero]

/-! ### The section of a message -/

/-- The section a message of the encoder carries (45_encoder.md R327). -/
def encSection (rule : ExpRule) (w : BitVec 5) (meth : BitVec 4) (rb : Nat → List Int) (sid : BitVec 12)
    (p n : Nat) : WireSection :=
  { header := encSecHeader sid p n
    method := meth
    code := codeOfWidth w.toNat
    reserved := 0#8
    payload := (List.range n).flatMap fun k => encRb rule meth.toNat w.toNat (rb (p + k)) }

section
variable {cfg : ActiveCfg} {rule : ExpRule} {w : BitVec 5} {meth : BitVec 4} {rb : Nat → List Int}
  {sid : BitVec 12} {p n : Nat}

theorem messageBytes_eq_section (a4 : Word) :
    messageBytes cfg rule a4 w meth rb sid p n = buildHeader (contextHeader cfg a4) ++
      [encSection rule w meth rb sid p n].flatMap (WireSection.bytes cfg.dyn) := by
  rw [List.flatMap_singleton, WireSection.bytes, List.append_assoc, messageBytes, List.append_assoc,
    List.append_assoc]
  rfl

theorem encSection_methodIn (hstatic : cfg.dyn = false → cfg.method = meth ∧ cfg.bw = w) :
    (encSection rule w meth rb sid p n).methodIn cfg = meth.toNat := by
  unfold WireSection.methodIn
  cases hdyn : cfg.dyn with
  | true => rfl
  | false => exact congrArg BitVec.toNat (hstatic hdyn).1

/-- The code of a legal width stands for it (30_encoding.md R130). -/
theorem widthOfCode_codeOfWidth {w : Nat} (hw1 : 1 ≤ w) (hw16 : w ≤ 16) :
    widthOfCode (codeOfWidth w) = w := by
  have hcode : (codeOfWidth w).toNat = w % 16 := by
    rw [codeOfWidth, BitVec.toNat_ofNat]
    omega
  simp only [widthOfCode, ← BitVec.toNat_inj, hcode, BitVec.toNat_ofNat]
  split <;> omega

theorem encSection_widthIn (hw1 : 1 ≤ w.toNat) (hw16 : w.toNat ≤ 16)
    (hstatic : cfg.dyn = false → cfg.method = meth ∧ cfg.bw = w) :
    (encSection rule w meth rb sid p n).widthIn cfg = w.toNat := by
  unfold WireSection.widthIn
  cases hdyn : cfg.dyn with
  | true => exact widthOfCode_codeOfWidth hw1 hw16
  | false => exact congrArg BitVec.toNat (hstatic hdyn).2

/-- `nof_prb` is never written as 0 (45_encoder.md R327). -/
theorem encSecHeader_nofPrb_ne_zero (hn1 : 1 ≤ n) (hn : n ≤ 255) :
    (encSecHeader sid p n).nofPrb ≠ 0#8 := by
  rw [encSecHeader, ne_eq, ← BitVec.toNat_inj, BitVec.toNat_ofNat, BitVec.toNat_ofNat]
  omega

theorem encSection_prbs (hn1 : 1 ≤ n) (hn : n ≤ 255) :
    (encSection rule w meth rb sid p n).prbs cfg = n :=
  (if_neg (encSecHeader_nofPrb_ne_zero hn1 hn)).trans (Nat.mod_eq_of_lt (by omega))

/-- The section is complete, and of a method the decoder reads (44_decoder.md R281, R282). -/
theorem encSection_complete (hw1 : 1 ≤ w.toNat) (hw16 : w.toNat ≤ 16)
    (hs : encSupported w meth = true)
    (hstatic : cfg.dyn = false → cfg.method = meth ∧ cfg.bw = w) (hn1 : 1 ≤ n) (hn : n ≤ 255)
    (hrb : ∀ r, (rb r).length = 24) : (encSection rule w meth rb sid p n).Complete cfg := by
  rw [WireSection.Complete, encSection_methodIn hstatic, encSection_widthIn hw1 hw16 hstatic,
    encSection_prbs hn1 hn]
  constructor
  · rcases encSupported_iff.mp hs with rfl | ⟨rfl, -⟩
    · exact .inr rfl
    · exact .inl rfl
  · exact flatMap_range_length n _ _ fun k _ => encRb_length hs (hrb (p + k))

end

/-! ### The message decoded -/

/-- What the decoder leaves in WMEM for the section of the encoder, the first of its message
(30_encoding.md R141; 45_encoder.md R335). -/
theorem encSection_writtenIn {s : State} {w : BitVec 5} {meth : BitVec 4} {rb : Nat → List Int}
    {sid : BitVec 12} {p n payload : Nat} {m : Memory 16} (hw1 : 1 ≤ w.toNat) (hw16 : w.toNat ≤ 16)
    (hs : encSupported w meth = true)
    (hstatic : s.cfg.dyn = false → s.cfg.method = meth ∧ s.cfg.bw = w) (hp : p < 1024) (hn1 : 1 ≤ n)
    (hn : n ≤ 255) (hrb : ∀ r, (rb r).length = 24 ∧ Int16s (rb r))
    (h : (encSection s.params.expRule w meth rb sid p n).WrittenIn s m 0 payload 0) :
    Holds m s.engArg.r2.toNat [sid.setWidth 16, 3#16, BitVec.ofNat 16 p, BitVec.ofNat 16 n,
      BitVec.ofNat 16 (meth.toNat + 16 * w.toNat), 0#16, 0#16, 0#16] ∧
    ∀ k, k < n → Holds m (s.engArg.r3.toNat + 24 * k)
      ((rb (p + k)).map fun v => toFloat s.params.floatFmt
        (asr v (encExponent s.params.expRule meth w.toNat (rb (p + k))))
        (encExponent s.params.expRule meth w.toNat (rb (p + k)))) := by
  have hnof : (encSection s.params.expRule w meth rb sid p n).header.nofPrb ≠ 0#8 :=
    encSecHeader_nofPrb_ne_zero hn1 hn
  have hstart : (encSection s.params.expRule w meth rb sid p n).header.startPrb.toNat = p :=
    Nat.mod_eq_of_lt hp
  unfold WireSection.WrittenIn at h
  simp only [encSection_methodIn hstatic, encSection_widthIn hw1 hw16 hstatic, encSection_prbs hn1 hn,
    if_neg hnof, hstart] at h
  obtain ⟨hdesc, hblocks⟩ := h
  refine ⟨hdesc, fun k hk => ?_⟩
  obtain ⟨hrb24, hrb16⟩ := hrb (p + k)
  have hpiece := take_drop_flatMap_range
    (fun j _ => encRb_length (rule := s.params.expRule) hs (hrb (p + j)).1) hk
  have hblock := (hblocks k hk).1
  rw [encSection, hpiece, rbSamples_encRb _ _ hw1 hw16 hs hrb24 hrb16] at hblock
  exact hblock

/-- Settles O59: the message is a header and one complete section. -/
theorem encodedMessageDecodes : Obligations.EncodedMessageDecodes := by
  intro s a4 w meth rb sid p n mb dt sa bytes e hc hwf hlegal hdir hw1 hw16 hmeth hstatic hsub hslot
    hsym hp hn1 hn hrb hlen hbytes hmsg hdt hsa hroom hap
  obtain ⟨-, -, hfilter, -, -, -, hmax, -⟩ := hlegal
  obtain ⟨-, hsub', hslot', hsym'⟩ := contextHeader_fields s.cfg a4
  have hs := encSupported_iff.mpr hmeth
  have hbytes_eq : bytes = _ := messageBytes_eq_section a4
  have htotal : samplesBefore s.cfg [encSection s.params.expRule w meth rb sid p n] 1 = 24 * n :=
    congrArg (24 * ·) (encSection_prbs hn1 hn)
  have hone : 1 ≤ s.cfg.maxSec.toNat :=
    Nat.one_le_iff_ne_zero.mpr fun h0 => hmax (BitVec.eq_of_toNat_eq h0)
  rw [hbytes_eq] at hlen hbytes hmsg
  obtain ⟨m, hexec, hwritten, -⟩ := msgDecDecodesCompleteMessages s (contextHeader s.cfg a4)
    [encSection s.params.expRule w meth rb sid p n] hc hwf hlen hbytes hmsg hdt hsa hap hdir.symm rfl
    hfilter (hsub'.trans_lt hsub) (hslot'.trans_lt hslot) (hsym'.trans_lt hsym)
    (List.cons_ne_nil _ _) hone
    (fun x hx => List.mem_singleton.mp hx ▸
      encSection_complete hw1 hw16 hs hstatic hn1 hn fun r => (hrb r).1)
    (htotal.trans_le hroom)
  exact ⟨_, hexec, rfl, rfl, congrArg (BitVec.ofNat 32) htotal, rfl, rfl,
    encSection_writtenIn hw1 hw16 hs hstatic hp hn1 hn hrb (hwritten 0 Nat.zero_lt_one)⟩

end Sys2Proof.Machine
end

section
/-!
PROOFS. The fragmentation loop of MSG_ENC (45_encoder.md R324 to R333): what stands after i messages, in
closed form, one lemma for a message and one for the loop, and the end of the command.
-/

namespace Sys2Proof.Machine

/-! ### The greedy fragmentation -/

/-- The PRBs one message carries at most (45_encoder.md R324). -/
def EncEnv.cap (e : EncEnv) : Nat := encCapacity e.cfg e.slotSize e.meth.toNat e.w.toNat

/-- The PRBs to send. -/
def EncEnv.prbs (e : EncEnv) : Nat := e.cfg.nofPrb.toNat

/-- The bytes of a message before its payload (45_encoder.md R324). -/
def EncEnv.head (e : EncEnv) : Nat := encOverhead e.cfg

/-- The bytes of one RB (45_encoder.md R324). -/
def EncEnv.rbSize (e : EncEnv) : Nat := prbSize e.meth.toNat e.w.toNat

/-- The messages it takes to send all PRBs (45_encoder.md R326). -/
def EncEnv.need (e : EncEnv) : Nat := ceilDiv e.prbs e.cap

/-- The PRBs of message i (45_encoder.md R326). -/
def EncEnv.share (e : EncEnv) (i : Nat) : Nat := min e.cap (e.prbs - i * e.cap)

/-- The bytes of message i after section id `sid0` (45_encoder.md R326 to R329). -/
def EncEnv.fragment (e : EncEnv) (sid0 i : Nat) : List Byte :=
  messageBytes e.cfg e.rule e.ctx e.w e.meth e.rb (BitVec.ofNat 12 (sid0 + i)) (i * e.cap) (e.share i)

/-- The length of message i (45_encoder.md R327). -/
def EncEnv.fragmentLen (e : EncEnv) (i : Nat) : Nat := e.head + e.share i * e.rbSize

/-- A request that passes the checks of MSG_ENC (45_encoder.md R322 to R324). -/
structure EncEnv.Accepted (e : EncEnv) : Prop where
  supported : encSupported e.w e.meth = true
  blocks : ∀ r, (e.rb r).length = 24
  room : e.head + e.rbSize ≤ e.slotSize
  bound : e.slotSize ≤ 65535

section
variable {e : EncEnv} (he : e.Accepted)
include he

theorem EncEnv.Accepted.cap_pos : 0 < e.cap :=
  (encCapacity_bounds (prbSize_pos he.supported) he.room).1

/-- A message fits its buffer (45_encoder.md R324). -/
theorem EncEnv.Accepted.fragmentLen_le (i : Nat) : e.fragmentLen i ≤ e.slotSize :=
  calc e.fragmentLen i ≤ e.head + e.cap * e.rbSize :=
        Nat.add_le_add_left (Nat.mul_le_mul_right _ (min_le_left _ _)) _
    _ ≤ e.slotSize := (encCapacity_bounds (prbSize_pos he.supported) he.room).2.2

theorem EncEnv.Accepted.fragment_length (sid0 i : Nat) :
    (e.fragment sid0 i).length = e.fragmentLen i :=
  messageBytes_length e.cfg e.rule e.ctx he.supported he.blocks _ _ _

/-- Message i is needed exactly when the messages before it leave PRBs. -/
theorem EncEnv.Accepted.lt_need_iff {i : Nat} : i < e.need ↔ i * e.cap < e.prbs := by
  have hpos := he.cap_pos
  rw [EncEnv.need, ceilDiv, Nat.lt_iff_add_one_le, Nat.le_div_iff_mul_le hpos, Nat.add_one_mul]
  omega

end

/-! ### The working state after i messages -/

/-- What stands after i messages of a command that began with the memories and SECID of `s`
(45_encoder.md R326 to R332). -/
structure EncWork.Sent (e : EncEnv) (s : State) (i : Nat) (wk : EncWork) : Prop where
  prb : wk.prb = min e.prbs (i * e.cap)
  count : wk.count = i
  total : wk.total = i * e.head + min e.prbs (i * e.cap) * e.rbSize
  secId : wk.secId = BitVec.ofNat 12 (s.secId.toNat + i)
  bmemWf : Memory.wf wk.bmem
  wmemWf : Memory.wf wk.wmem
  messages : ∀ j, j < i → Holds wk.bmem (e.out + j * e.slotSize) (e.fragment s.secId.toNat j)
  lengths : ∀ j, j < i → (Memory.read wk.wmem (e.table + j)).toNat = e.fragmentLen j
  bmemFrame : ∀ a, (∀ j, j < i → a < e.out + j * e.slotSize ∨
    e.out + j * e.slotSize + e.fragmentLen j ≤ a) → Memory.read wk.bmem a = Memory.read s.bmem a
  wmemFrame : ∀ a, a < e.table ∨ e.table + i ≤ a → Memory.read wk.wmem a = Memory.read s.wmem a

theorem encStart_sent (e : EncEnv) {s : State} (hb : Memory.wf s.bmem) (hw : Memory.wf s.wmem) :
    EncWork.Sent e s 0 (encStart s) where
  prb := by simp [encStart]
  count := rfl
  total := by simp [encStart]
  secId := by simp [encStart]
  bmemWf := hb
  wmemWf := hw
  messages _ h := absurd h (Nat.not_lt_zero _)
  lengths _ h := absurd h (Nat.not_lt_zero _)
  bmemFrame _ _ := rfl
  wmemFrame _ _ := rfl

section
variable {e : EncEnv} (he : e.Accepted) {s : State} {i : Nat} {wk : EncWork}
  (h : EncWork.Sent e s i wk) (hi : i < e.need)
include he h hi

/-- Before a needed message the PRBs sent are those of full messages. -/
theorem EncWork.Sent.prb_eq : wk.prb = i * e.cap :=
  h.prb.trans (min_eq_right (he.lt_need_iff.mp hi).le)

theorem EncWork.Sent.take_eq : e.take wk = e.share i := by
  rw [EncEnv.take, h.prb_eq he hi]
  rfl

theorem EncWork.Sent.messageLen_eq : e.messageLen wk = e.fragmentLen i := by
  rw [EncEnv.messageLen, h.take_eq he hi]
  rfl

theorem EncWork.Sent.message_eq : e.message wk = e.fragment s.secId.toNat i := by
  rw [EncEnv.message, h.take_eq he hi, h.prb_eq he hi, h.secId]
  rfl

/-- One more message (45_encoder.md R326 to R330). -/
theorem EncWork.Sent.next : EncWork.Sent e s (i + 1) (encMessage e wk) := by
  have hprbs : min e.prbs ((i + 1) * e.cap) = i * e.cap + e.share i := by
    have := he.lt_need_iff.mp hi
    rw [EncEnv.share, Nat.add_one_mul]
    omega
  have hfits (j : Nat) := he.fragmentLen_le j
  have hlen := he.fragment_length s.secId.toNat
  have hbmem : (encMessage e wk).bmem = Memory.writeRange wk.bmem (e.out + i * e.slotSize)
      (e.fragment s.secId.toNat i) := by
    rw [encMessage, h.count, h.message_eq he hi]
  have hwmem : (encMessage e wk).wmem = Memory.write wk.wmem (e.table + i)
      (BitVec.ofNat 16 (e.fragmentLen i)) := by
    rw [encMessage, h.count, h.messageLen_eq he hi]
  constructor
  case prb => rw [hprbs, encMessage, h.prb_eq he hi, h.take_eq he hi]
  case count => rw [encMessage, h.count]
  case total =>
    rw [hprbs, encMessage, h.total, h.messageLen_eq he hi,
      min_eq_right (he.lt_need_iff.mp hi).le, EncEnv.fragmentLen]
    ring
  case secId => exact (congrArg (· + 1#12) h.secId).trans (BitVec.ofNat_add _ 1).symm
  case bmemWf => exact hbmem ▸ Memory.writeRange_wf h.bmemWf _ _
  case wmemWf => exact hwmem ▸ Memory.write_wf h.wmemWf _ _
  case messages =>
    intro j hj
    rw [hbmem]
    rcases Nat.lt_succ_iff_lt_or_eq.mp hj with hj | rfl
    · refine (h.messages j hj).congr fun k hk => Memory.read_writeRange_out _ _ _ (.inl ?_)
      rw [hlen] at hk
      have := Nat.mul_le_mul_right e.slotSize hj
      rw [Nat.succ_mul] at this
      have := hfits j
      omega
    · exact holds_writeRange h.bmemWf _ _
  case lengths =>
    intro j hj
    rw [hwmem]
    rcases Nat.lt_succ_iff_lt_or_eq.mp hj with hj | rfl
    · rw [Memory.read_write_ne _ _ (by omega), h.lengths j hj]
    · rw [Memory.read_write_self h.wmemWf, BitVec.toNat_ofNat]
      exact Nat.mod_eq_of_lt (((hfits j).trans he.bound).trans_lt (by omega))
  case bmemFrame =>
    intro a ha
    rw [hbmem, Memory.read_writeRange_out _ _ _ (hlen i ▸ ha i (Nat.lt_succ_self i))]
    exact h.bmemFrame a fun j hj => ha j (Nat.lt_succ_of_lt hj)
  case wmemFrame =>
    intro a ha
    rw [hwmem, Memory.read_write_ne _ _ (by omega)]
    exact h.wmemFrame a (by omega)

end

/-! ### The loop -/

/-- The loop sends the needed messages, or as many of them as there are buffers (45_encoder.md R326,
R331). -/
theorem encLoop_sent {e : EncEnv} (he : e.Accepted) {s : State} (fuel : Nat) {i : Nat} {wk : EncWork}
    (h : EncWork.Sent e s i wk) (hi : i ≤ min e.need e.slots) (hfuel : e.need ≤ i + fuel) :
    (encLoop fuel e wk).1 = (if e.need ≤ e.slots then .ok else .outOfBuffers) ∧
      EncWork.Sent e s (min e.need e.slots) (encLoop fuel e wk).2 := by
  induction fuel generalizing i wk with
  | zero =>
    have hend : i = e.need := by omega
    have hmin : min e.need e.slots = i := by omega
    exact ⟨(if_pos (by omega)).symm, hmin ▸ h⟩
  | succ n ih =>
    have hmore : wk.prb < e.cfg.nofPrb.toNat ↔ i < e.need := by
      rw [he.lt_need_iff, h.prb]
      exact (min_lt_iff.trans (or_iff_right (lt_irrefl _)))
    rw [encLoop]
    by_cases hneed : i < e.need
    · rw [if_pos (hmore.mpr hneed), h.count]
      by_cases hfull : i = e.slots
      · have hmin : min e.need e.slots = i := by omega
        rw [if_pos hfull, hmin]
        exact ⟨(if_neg (by omega)).symm, h⟩
      · rw [if_neg hfull]
        exact ih (h.next he hneed) (by omega) (by omega)
    · have hmin : min e.need e.slots = i := by omega
      rw [if_neg (hmore.not.mpr hneed), hmin]
      exact ⟨(if_pos (by omega)).symm, h⟩

/-- NOF_PRB messages are enough (45_encoder.md R326). -/
theorem EncEnv.Accepted.need_le {e : EncEnv} (he : e.Accepted) : e.need ≤ e.prbs := by
  by_contra hc
  have hlt := he.lt_need_iff.mp (not_le.mp hc)
  exact absurd (Nat.le_mul_of_pos_right e.prbs he.cap_pos) hlt.not_ge

/-! ### The command -/

/-- ERR is set exactly when the buffers run out (45_encoder.md R331). -/
theorem outOfBuffers_err (need slots : Nat) :
    ((if need ≤ slots then Code.ok else .outOfBuffers) != .ok) = decide (slots < need) := by
  by_cases h : need ≤ slots
  · rw [if_pos h, decide_eq_false h.not_gt]
    rfl
  · rw [if_neg h, decide_eq_true (not_le.mp h)]
    rfl

/-- MSG_ENC on an acceptable request (45_encoder.md R326 to R332). -/
theorem msgEncRun_sent {w : BitVec 5} {meth : BitVec 4} {s : State}
    (hcontract : encContract w meth s = false) (he : (encEnv w meth s).Accepted)
    (hb : Memory.wf s.bmem) (hw : Memory.wf s.wmem) :
    let e := encEnv w meth s
    let sent := min e.need e.slots
    ∃ wk, EncWork.Sent e s sent wk ∧ msgEncRun w meth s =
      { s with
        bmem := wk.bmem
        wmem := wk.wmem
        secId := BitVec.ofNat 12 (s.secId.toNat + sent)
        res :=
          { s.res with
            r0 := word sent
            r1 := word (sent * e.head + min e.prbs (sent * e.cap) * e.rbSize)
            r2 := word (min e.prbs (sent * e.cap))
            r3 := s.secId.setWidth 32 }
        code := if e.need ≤ e.slots then .ok else .outOfBuffers
        err := decide (e.slots < e.need)
        done := true
        phase := .idle
        engView := none } := by
  intro e sent
  obtain ⟨hcode, hsent⟩ := encLoop_sent he e.prbs (encStart_sent e hb hw) (Nat.zero_le _)
    (he.need_le.trans (Nat.zero_add _).ge)
  refine ⟨_, hsent, (msgEncRun_fits hcontract he.supported he.room).trans ?_⟩
  change finishEncode s (encLoop e.prbs e (encStart s)) = _
  rw [finishEncode, complete_eq, hcode, outOfBuffers_err, hsent.count, hsent.total, hsent.prb,
    hsent.secId]

/-- Settles O58: the quantities of the loop are those of the statement. -/
theorem msgEncWritesTheFragmentedMessages : Obligations.MsgEncWritesTheFragmentedMessages := by
  intro s w meth ob size slots lt ctx nof hb pb cap need sent rb count hc hbwf hwwf hw1 hw16 hmeth
    hsrc hout htab hap hrest hsub hslot hsym hsize hstatic hroom
  have hs := encSupported_iff.mpr hmeth
  have hm : meth.toNat < 7 := by rcases hmeth with rfl | ⟨rfl, -⟩ <;> decide
  have hp := precheck_msgEnc_legal hw1 hw16 hm hc hsrc hout htab hap
  have hcontract : encContract w meth s = false :=
    encContract_eq_false_iff.mpr ⟨hrest, hsub, hslot, hsym, hsize, hstatic⟩
  let e := encEnv w meth s
  have hpb : e.rbSize = pb := prbSize_of_encSupported hs
  have hcap : e.cap = cap := congrArg (fun P => min 255 ((size - hb) / P)) hpb
  have hneed : e.need = need := congrArg (ceilDiv nof) hcap
  have hshare (i : Nat) : e.share i = count i := congrArg (fun c => min c (nof - i * c)) hcap
  have hlen (i : Nat) : e.fragmentLen i = hb + count i * pb := by
    rw [← hshare, ← hpb]
    rfl
  have hrb : e.rb = rb := funext fun r => List.map_map
  have hfragment (i : Nat) : e.fragment s.secId.toNat i = messageBytes s.cfg s.params.expRule
      s.engArg.r4 w meth rb (BitVec.ofNat 12 (s.secId.toNat + i)) (i * cap) (count i) := by
    rw [← hshare, ← hcap, ← hrb]
    rfl
  have he : e.Accepted := ⟨hs, quantizedRb_length s _, hpb ▸ hroom, hsize⟩
  obtain ⟨wk, hsent, hrun⟩ := msgEncRun_sent hcontract he hbwf hwwf
  rw [hneed] at hsent hrun
  rw [hcap, hpb] at hrun
  exact ⟨wk.bmem, wk.wmem, guarded_run_eq hp hrun,
    fun i hi => ⟨hfragment i ▸ hsent.messages i hi, hlen i ▸ hsent.lengths i hi⟩,
    fun a ha => hsent.bmemFrame a fun i hi => hlen i ▸ ha i hi, hsent.wmemFrame⟩

end Sys2Proof.Machine
end

section
/-!
PROOFS. Completion, this block's counterpart of an exception (60_exceptions.md): every command ends in
one completion (R350, R352), the checks before a data command and their order (R351), what a failed
command leaves (R355), and the interrupt level (R356, R357).
-/

namespace Sys2Proof.Machine

/-! ### Every command ends in one completion -/

/-- No command stops the machine (60_exceptions.md R350). -/
theorem exec_answers (i : Instr) (s : State) : ∃ t, exec i s = .next t := by
  by_cases hi : i = .init
  · subst hi
    rcases execInit_cases s with ⟨mask, -, he⟩ | ⟨u, -, -, he⟩
    · exact ⟨_, he⟩
    · exact ⟨_, he⟩
  · obtain ⟨t, he, -⟩ := exec_shaped i hi s
    exact ⟨t, he⟩

/-- What a command answers is a completion, whatever the state (60_exceptions.md R352); `exec_completes`
says more of a state whose configuration is sound. -/
theorem exec_eq_complete {i : Instr} {s t : State} (h : exec i s = .next t) :
    ∃ c u, t = complete c u := by
  rcases exec_next_cases h with ⟨-, mask, rfl⟩ | ⟨-, u, -, -, rfl⟩ | ⟨-, c, b, m, r, sid, sh⟩
  · exact ⟨_, _, rfl⟩
  · exact ⟨_, _, rfl⟩
  · exact ⟨_, _, sh.eq⟩

theorem complete_err_eq_decide (c : Code) (s : State) :
    (complete c s).err = decide ((complete c s).code ≠ .ok) := by
  cases c <;> rfl

/-- Settles O8: a command ends in a completion, and the frame of commands (O9) gives what it leaves. -/
theorem everyCommandCompletes : Obligations.EveryCommandCompletes := by
  intro i s
  obtain ⟨t, h⟩ := exec_answers i s
  obtain ⟨-, -, hovr, -, -, -, -, -, -, -, -, -, hcfg, -⟩ := commandsLeaveTheOtherRegisters i s t h
  obtain ⟨c, u, rfl⟩ := exec_eq_complete h
  exact ⟨_, h, rfl, rfl, complete_err_eq_decide c u, hovr, fun hi => (hcfg hi).2⟩

/-! ### What a failed command leaves -/

/-- Settles O11: INIT reaches no memory, and every other command has a shape that is quiet when it
fails. -/
theorem failedCommandLeavesMemoriesAndSecId : Obligations.FailedCommandLeavesMemoriesAndSecId := by
  intro i s t h hok hout
  rcases exec_next_cases h with ⟨-, mask, rfl⟩ | ⟨-, u, -, -, rfl⟩ | ⟨-, c, b, m, r, sid, sh⟩
  · exact ⟨rfl, rfl, rfl⟩
  · exact ⟨rfl, rfl, rfl⟩
  · have ht := sh.eq
    subst ht
    exact sh.quiet hok hout

/-! ### The checks before a data command -/

/-- All regions of a command in range, in the terms of statements (20_memory.md R87). -/
theorem Regions.inRange_iff {p : Params} {rs : Regions} :
    Regions.inRange p rs = true ↔
      ∀ r ∈ rs.ins ++ rs.outs, InRange (Params.sizeOf p r.mem) r.base r.len := by
  simp only [Regions.inRange, Bool.and_eq_true, List.all_eq_true, Region.inRange_iff_InRange,
    List.forall_mem_append]

theorem Region.overlaps_iff_not_Apart {a b : Region} :
    Region.overlaps a b = true ↔ a.mem = b.mem ∧ ¬ Apart a.base a.len b.base b.len := by
  by_cases hm : a.mem = b.mem
  · rw [← Region.not_overlaps_iff_Apart hm, Bool.not_eq_false]
    exact (and_iff_right hm).symm
  · simp [Region.not_overlaps_of_mem hm, hm]

/-- A forbidden overlap, in the terms of statements (20_memory.md R88): an input with an output that is
not the same region of an in-place command, or two outputs. -/
theorem Regions.clash_iff {rs : Regions} :
    rs.clash = true ↔
      (∃ a ∈ rs.ins, ∃ b ∈ rs.outs, a.mem = b.mem ∧ ¬ Apart a.base a.len b.base b.len ∧
          ¬ (rs.inPlace = true ∧ a = b)) ∨
        ¬ rs.outs.Pairwise (fun a b => a.mem = b.mem → Apart a.base a.len b.base b.len) := by
  have hpair (a b : Region) :
      (!(rs.inPlace && a == b) && Region.overlaps a b) = true ↔
        a.mem = b.mem ∧ ¬ Apart a.base a.len b.base b.len ∧ ¬ (rs.inPlace = true ∧ a = b) := by
    rw [Bool.and_eq_true, Region.overlaps_iff_not_Apart, Bool.not_eq_true', ← Bool.not_eq_true,
      Bool.and_eq_true, beq_iff_eq, and_comm, and_assoc]
  rw [Regions.clash, Bool.or_eq_true, ← anyOverlap_eq_false_iff, Bool.not_eq_false]
  simp only [List.any_eq_true, hpair]

section
variable {i : Instr} {s : State}

theorem precheck_addressError (hw : i.wf = true) (hc : s.cfgOk = true)
    (h : (commandRegions i s).inRange s.params = false) : precheck i s = some .addressError := by
  simp [precheck, hw, hc, h]

theorem precheck_contractViolation (hw : i.wf = true) (hc : s.cfgOk = true)
    (hr : (commandRegions i s).inRange s.params = true) (h : (commandRegions i s).clash = true) :
    precheck i s = some .contractViolation := by
  simp [precheck, hw, hc, hr, h]

/-- A failing check changes the flags of completion alone, ERR set: its code is not OK. -/
theorem exec_stops (hn : i ≠ .nop) (hi : i ≠ .init) {c : Code} (h : precheck i s = some c) :
    exec i s = .next
      { s with code := c, err := true, done := true, phase := .idle, engView := none } := by
  have herr : (c != .ok) = true := by
    rcases precheck_codes h with rfl | rfl | rfl | rfl <;> rfl
  rw [exec_fail hn hi h, complete_eq, herr]

end

/-- Settles O12: the regions command by command, then one lemma for each check. -/
theorem dataCommandChecksComeInOrder : Obligations.DataCommandChecksComeInOrder := by
  intro i s hn hi
  refine ⟨by cases i <;> rfl, fun hw => ?_, fun hw hc => ?_, fun hw hc hout => ?_,
    fun hw hc hin hclash => ?_⟩
  · exact exec_stops hn hi (precheck_illegal hw)
  · exact exec_stops hn hi (precheck_notConfigured hw hc)
  · obtain ⟨r, hr, hnot⟩ := hout
    have hrange : (commandRegions i s).inRange s.params = false :=
      Bool.eq_false_iff.mpr fun h => hnot (Regions.inRange_iff.mp h r hr)
    exact exec_stops hn hi (precheck_addressError hw hc hrange)
  · exact exec_stops hn hi
      (precheck_contractViolation hw hc (Regions.inRange_iff.mpr hin) (Regions.clash_iff.mpr hclash))

/-! ### The interrupt level -/

theorem irq_complete (c : Code) (s : State) : irq (complete c s) = s.irqEn := Bool.and_true _

theorem irq_accept (c : Word) (s : State) : irq (accept c s) = false := Bool.and_false _

theorem writeCtrl_enable {v : Word} (h : v.getLsbD 1 = false) (s : State) :
    writeCtrl v s = { s with irqEn := v.getLsbD 0 } := by
  simp only [writeCtrl, h, Bool.false_eq_true, if_false]

theorem writeReg_cmd (v : Word) (s : State) : writeReg .word 0x018#32 v s = writeCmd v s :=
  writeReg_of_mem (r := .cmd) (by decide) v s

/-- Settles O19: the level after a completion, a write of CTRL, of STATUS and of CMD. -/
theorem interruptFollowsEnableAndDone : Obligations.InterruptFollowsEnableAndDone := by
  refine ⟨fun i s t h => ?_, fun s v h => ?_, fun s v h => ?_, fun s c h => ?_⟩
  · obtain ⟨-, hirq, -⟩ := commandsLeaveTheOtherRegisters i s t h
    obtain ⟨c, u, rfl⟩ := exec_eq_complete h
    exact (irq_complete c u).trans hirq
  · rw [writeReg_ctrl, writeCtrl_enable h]
    rfl
  · rw [writeReg_status]
    simp [irq, h]
  · rw [writeReg_cmd, writeCmd_idle h]
    exact irq_accept c s

end Sys2Proof.Machine
end

section
/-!
PROOFS. The two resets (70_reset_and_hazards.md R380, R381): both leave the registers of `State.reset`, so
the host reads the same value after each; a soft reset frees the outputs of an aborted command only.
-/

namespace Sys2Proof.Machine

/-! ### The registers after a reset -/

/-- `State.reset` but for the parameters, the memories and the model's own components, which a reset need
not set. -/
inductive AfterReset : State → Prop where
  | mk (p : Params) (b : Memory 8) (m : Memory 16) (es : List Event) (d : Word) (n : Nat) :
    AfterReset { State.reset with
      params := p, bmem := b, wmem := m, inputs := es, readData := d, freeCtr := n }

theorem afterReset_reset : AfterReset State.reset := .mk ..

theorem afterReset_hardReset (s : State) : AfterReset (hardReset s) := .mk ..

theorem afterReset_softReset (s : State) : AfterReset (softReset s) := .mk ..

theorem AfterReset.phase_idle {t : State} (h : AfterReset t) : t.phase = .idle := by cases h; rfl

theorem AfterReset.irq_false {t : State} (h : AfterReset t) : irq t = false := by cases h; rfl

/-- Only CAP, BMEM_LAST and WMEM_LAST read the parameters (10_state.md R35 to R37). -/
theorem AfterReset.regValue_eq {t : State} (h : AfterReset t) {r : Reg}
    (hr : r ∉ [Reg.cap, .bmemLast, .wmemLast]) : regValue t r = regValue State.reset r := by
  cases h
  cases r with
  | cap | bmemLast | wmemLast => exact absurd (by decide) hr
  | _ => rfl

/-- Past the identification registers every read is the one the reset state gives. -/
theorem AfterReset.readReg_eq {t : State} (h : AfterReset t) {offset v : Word}
    (hv : 0x010 ≤ offset.toNat ∧ readReg State.reset .word offset = v) :
    readReg t .word offset = v := by
  have table : ∀ p ∈ regMap, 0x010 ≤ p.1 → p.2 ∉ [Reg.cap, .bmemLast, .wmemLast] := by decide
  obtain ⟨ho, rfl⟩ := hv
  cases hr : regAt .word offset with
  | none => simp only [readReg, hr]
  | some r =>
    simp only [readReg, hr]
    exact h.regValue_eq (table _ (mem_of_regAt hr).2 ho)

/-- ARG and RES are 0 in the reset state (70_reset_and_hazards.md R380). -/
theorem readReg_reset_arg (k : Fin 8) :
    0x010 ≤ (BitVec.ofNat 32 (0x020 + 4 * k.val)).toNat ∧
      readReg State.reset .word (BitVec.ofNat 32 (0x020 + 4 * k.val)) = 0#32 := by
  revert k; decide

theorem readReg_reset_res (k : Fin 8) :
    0x010 ≤ (BitVec.ofNat 32 (0x040 + 4 * k.val)).toNat ∧
      readReg State.reset .word (BitVec.ofNat 32 (0x040 + 4 * k.val)) = 0#32 := by
  revert k; decide

/-! ### The obligation -/

/-- The reset input performs the hardware reset (70_reset_and_hazards.md R380). -/
theorem step_hardReset {s : State} {rest : List Event} (h : s.inputs = .hardReset :: rest) :
    step s = .next (hardReset { s with inputs := rest }) := by
  simp only [step, h, handle]

/-- Settles O26: every register as the reset state has it, and the memories as `softReset_freesIn` and
`softReset_idle` leave them. -/
theorem resetsLeaveResetRegistersAndMemories : Obligations.ResetsLeaveResetRegistersAndMemories := by
  intro s
  refine ⟨fun t ht => ?_, softReset_params s, hardReset_params s, fun rest => step_hardReset,
    softReset_idle s, fun a ha => ?_, fun a ha => ?_⟩
  · have h : AfterReset t := by
      simp only [List.mem_cons, List.not_mem_nil, or_false] at ht
      rcases ht with rfl | rfl | rfl
      · exact afterReset_softReset s
      · exact afterReset_hardReset s
      · exact afterReset_reset
    exact ⟨h.readReg_eq (by decide), h.readReg_eq (by decide), h.readReg_eq (by decide),
      fun k => ⟨h.readReg_eq (readReg_reset_arg k), h.readReg_eq (readReg_reset_res k)⟩,
      h.readReg_eq (by decide), h.readReg_eq (by decide), h.readReg_eq (by decide),
      h.readReg_eq (by decide), h.readReg_eq (by decide), h.readReg_eq (by decide),
      h.readReg_eq (by decide), h.phase_idle, h.irq_false⟩
  · exact (softReset_freesIn s).bmem a fun r hr => Region.holds_eq_false_iff.mpr (ha r hr)
  · exact (softReset_freesIn s).wmem a fun r hr => Region.holds_eq_false_iff.mpr (ha r hr)

end Sys2Proof.Machine
end

section
/-!
PROOFS. The invariant holds after reset (70_reset_and_hazards.md R380): the reset state is a state a hardware
reset leaves, and a hardware reset meets the invariant from any state.
-/

namespace Sys2Proof.Machine

/-- The reset state is its own hardware reset: the components a hardware reset keeps are already its own. -/
theorem hardReset_reset : hardReset State.reset = State.reset := rfl

/-- Settles O15: the reset state is what a hardware reset of it leaves, which `inv_hardReset` covers. -/
theorem resetMeetsTheInvariant : Obligations.ResetMeetsTheInvariant := by
  have h : Inv (hardReset State.reset) := inv_hardReset State.reset
  rwa [hardReset_reset] at h

end Sys2Proof.Machine
end
